-- ==== Sys2Proof/Word.lean ====
section
/-! DEFINITION. The widths of the machine (00_scope.md R7): CPU data bytes and CPU bus addresses. -/

namespace Sys2Proof

/-- A CPU data byte: A, X, Y, SP and every byte of the buses (R7). -/
abbrev Byte := BitVec 8

/-- A CPU bus address, and the program counter (R7). -/
abbrev Addr := BitVec 16

/-- A PPU bus address: 14 bits, wider addresses wrap (R7, R80). -/
abbrev PpuAddr := BitVec 14

end Sys2Proof
end

