-- ==== Sys2Proof/Syntax/Operand.lean ====
section
/-! DEFINITION. The operand forms of the instructions: the addressing modes of 30_encoding.md R134 to R145 with the
operand byte or address each carries. -/

namespace Sys2Proof

/-- An addressing mode with its operand (R134 to R144). `rel` (R145) is the displacement a branch carries, and an
implied instruction (R133) carries nothing. -/
inductive Operand where
  /-- Accumulator, R134. -/
  | acc
  /-- Immediate, R135. -/
  | imm (value : Byte)
  /-- Zero page, R136. -/
  | zp (op8 : Byte)
  /-- Zero page,X, R137. -/
  | zpx (op8 : Byte)
  /-- Zero page,Y, R138. -/
  | zpy (op8 : Byte)
  /-- Absolute, R139. -/
  | abs (op16 : Addr)
  /-- Absolute,X, R140. -/
  | absx (op16 : Addr)
  /-- Absolute,Y, R141. -/
  | absy (op16 : Addr)
  /-- Indirect, JMP only, R142. -/
  | ind (op16 : Addr)
  /-- Indexed indirect `(zp,X)`, R143. -/
  | indx (op8 : Byte)
  /-- Indirect indexed `(zp),Y`, R144. -/
  | indy (op8 : Byte)
deriving DecidableEq, Repr

/-- The six forms of the `NOP*` opcodes (R150). The immediate form carries no operand: its byte is skipped and read by
no one (R303, log entry 7). -/
inductive NopForm where
  | imp
  | imm
  | zp (op8 : Byte)
  | zpx (op8 : Byte)
  | abs (op16 : Addr)
  | absx (op16 : Addr)
deriving DecidableEq, Repr

end Sys2Proof
end

