-- ==== Sys2Proof/Syntax.lean ====
section
/-! DEFINITION. The instruction set (30_encoding.md R147 to R151): one constructor for each mnemonic of
spec/opcode_table.json, `NOP*` and `UND` among them; a row of the table is a constructor with one of its operand
forms (log entry 15). -/

namespace Sys2Proof

/-- An instruction as the CPU sees it after fetching its bytes. -/
inductive Instr where
  -- 40_load_store_transfer.md
  | lda (m : Operand)
  | ldx (m : Operand)
  | ldy (m : Operand)
  | sta (m : Operand)
  | stx (m : Operand)
  | sty (m : Operand)
  | tax
  | tay
  | txa
  | tya
  | tsx
  | txs
  -- 41_arithmetic_logic.md
  | adc (m : Operand)
  | sbc (m : Operand)
  | and (m : Operand)
  | ora (m : Operand)
  | eor (m : Operand)
  | cmp (m : Operand)
  | cpx (m : Operand)
  | cpy (m : Operand)
  | bit (m : Operand)
  -- 42_shift_incdec.md
  | asl (m : Operand)
  | lsr (m : Operand)
  | rol (m : Operand)
  | ror (m : Operand)
  | inc (m : Operand)
  | dec (m : Operand)
  | inx
  | iny
  | dex
  | dey
  -- 43_control_transfer.md
  | bcc (op8 : Byte)
  | bcs (op8 : Byte)
  | beq (op8 : Byte)
  | bne (op8 : Byte)
  | bmi (op8 : Byte)
  | bpl (op8 : Byte)
  | bvc (op8 : Byte)
  | bvs (op8 : Byte)
  | jmp (m : Operand)
  | jsr (target : Addr)
  | rts
  | rti
  | brk
  -- 44_stack_flags_nop.md
  | pha
  | pla
  | php
  | plp
  | clc
  | sec
  | cli
  | sei
  | clv
  | cld
  | sed
  | nop
  /-- One of the 27 `NOP*` opcodes (R150): its opcode byte and its form. -/
  | nopStar (opcode : Byte) (form : NopForm)
  /-- One of the 78 `UND` opcodes (R151). -/
  | und (opcode : Byte)
deriving DecidableEq, Repr

end Sys2Proof
end

