-- ==== Sys2Proof/WellFormed.lean ====
section
/-! DEFINITION. Which terms of Instr stand for instructions: the operand forms of each mnemonic's "Encoding" line
(files 40 to 44) and the opcode bytes of R150 and R151. -/

namespace Sys2Proof

/-- The eight forms of LDA, ADC, SBC, AND, ORA, EOR and CMP (R170, R200 to R205). -/
def Operand.isRead : Operand → Bool
  | .imm _ | .zp _ | .zpx _ | .abs _ | .absx _ | .absy _ | .indx _ | .indy _ => true
  | _ => false

/-- The five forms of ASL, LSR, ROL and ROR (R230 to R233). -/
def Operand.isShift : Operand → Bool
  | .acc | .zp _ | .zpx _ | .abs _ | .absx _ => true
  | _ => false

/-- The opcode bytes of each `NOP*` form (R150). -/
def NopForm.opcodes : NopForm → List Byte
  | .imp => [0x1A, 0x3A, 0x5A, 0x7A, 0xDA, 0xFA]
  | .imm => [0x80, 0x82, 0x89, 0xC2, 0xE2]
  | .zp _ => [0x04, 0x44, 0x64]
  | .zpx _ => [0x14, 0x34, 0x54, 0x74, 0xD4, 0xF4]
  | .abs _ => [0x0C]
  | .absx _ => [0x1C, 0x3C, 0x5C, 0x7C, 0xDC, 0xFC]

/-- The 78 opcode bytes of R151. -/
def undOpcodes : List Byte :=
  [0x02, 0x03, 0x07, 0x0B, 0x0F, 0x12, 0x13, 0x17, 0x1B, 0x1F, 0x22, 0x23, 0x27, 0x2B, 0x2F, 0x32,
   0x33, 0x37, 0x3B, 0x3F, 0x42, 0x43, 0x47, 0x4B, 0x4F, 0x52] ++
  [0x53, 0x57, 0x5B, 0x5F, 0x62, 0x63, 0x67, 0x6B, 0x6F, 0x72, 0x73, 0x77, 0x7B, 0x7F, 0x83, 0x87,
   0x8B, 0x8F, 0x92, 0x93, 0x97, 0x9B, 0x9C, 0x9E, 0x9F, 0xA3] ++
  [0xA7, 0xAB, 0xAF, 0xB2, 0xB3, 0xB7, 0xBB, 0xBF, 0xC3, 0xC7, 0xCB, 0xCF, 0xD2, 0xD3, 0xD7, 0xDB,
   0xDF, 0xE3, 0xE7, 0xEB, 0xEF, 0xF2, 0xF3, 0xF7, 0xFB, 0xFF]

/-- The instruction is a row of the opcode table with its operand. -/
def Instr.wellFormed : Instr → Bool
  | .lda m | .adc m | .sbc m | .and m | .ora m | .eor m | .cmp m => m.isRead
  | .ldx m => match m with | .imm _ | .zp _ | .zpy _ | .abs _ | .absy _ => true | _ => false
  | .ldy m => match m with | .imm _ | .zp _ | .zpx _ | .abs _ | .absx _ => true | _ => false
  | .sta m => match m with | .zp _ | .zpx _ | .abs _ | .absx _ | .absy _ | .indx _ | .indy _ => true | _ => false
  | .stx m => match m with | .zp _ | .zpy _ | .abs _ => true | _ => false
  | .sty m => match m with | .zp _ | .zpx _ | .abs _ => true | _ => false
  | .cpx m | .cpy m => match m with | .imm _ | .zp _ | .abs _ => true | _ => false
  | .bit m => match m with | .zp _ | .abs _ => true | _ => false
  | .asl m | .lsr m | .rol m | .ror m => m.isShift
  | .inc m | .dec m => match m with | .zp _ | .zpx _ | .abs _ | .absx _ => true | _ => false
  | .jmp m => match m with | .abs _ | .ind _ => true | _ => false
  | .nopStar opcode form => form.opcodes.contains opcode
  | .und opcode => undOpcodes.contains opcode
  | .tax | .tay | .txa | .tya | .tsx | .txs | .inx | .iny | .dex | .dey => true
  | .bcc _ | .bcs _ | .beq _ | .bne _ | .bmi _ | .bpl _ | .bvc _ | .bvs _ => true
  | .jsr _ | .rts | .rti | .brk => true
  | .pha | .pla | .php | .plp | .clc | .sec | .cli | .sei | .clv | .cld | .sed | .nop => true

end Sys2Proof
end

