-- ==== Sys2Proof/Decode.lean ====
section
/-! DEFINITION. The encodings (30_encoding.md R130 to R132, R147 to R151): the opcode map, the decoder, total on any
bytes, and after it the encoder and the cost columns of the opcode table. -/

namespace Sys2Proof

/-- A 16-bit value from its bytes, low byte first (R95, R97, R130). -/
def leWord (lo hi : Byte) : Addr := hi ++ lo

/-- The low byte of a 16-bit value (R130). -/
def loByte (w : Addr) : Byte := w.truncate 8

/-- The high byte of a 16-bit value (R130). -/
def hiByte (w : Addr) : Byte := (w >>> 8).truncate 8

/-- The upper half of R147's map, opcodes 0x00 to 0x7F: one list a row of the map, its columns x0 to xF in order.
`b1` is the byte after the opcode and `w` the little-endian word after it (R132). -/
def opcodeMapLow (b1 : Byte) (w : Addr) : List (List Instr) :=
  [
   -- 0x
   [.brk, .ora (.indx b1), .und 0x02, .und 0x03,
    .nopStar 0x04 (.zp b1), .ora (.zp b1), .asl (.zp b1), .und 0x07,
    .php, .ora (.imm b1), .asl .acc, .und 0x0B,
    .nopStar 0x0C (.abs w), .ora (.abs w), .asl (.abs w), .und 0x0F],
   -- 1x
   [.bpl b1, .ora (.indy b1), .und 0x12, .und 0x13,
    .nopStar 0x14 (.zpx b1), .ora (.zpx b1), .asl (.zpx b1), .und 0x17,
    .clc, .ora (.absy w), .nopStar 0x1A .imp, .und 0x1B,
    .nopStar 0x1C (.absx w), .ora (.absx w), .asl (.absx w), .und 0x1F],
   -- 2x
   [.jsr w, .and (.indx b1), .und 0x22, .und 0x23,
    .bit (.zp b1), .and (.zp b1), .rol (.zp b1), .und 0x27,
    .plp, .and (.imm b1), .rol .acc, .und 0x2B,
    .bit (.abs w), .and (.abs w), .rol (.abs w), .und 0x2F],
   -- 3x
   [.bmi b1, .and (.indy b1), .und 0x32, .und 0x33,
    .nopStar 0x34 (.zpx b1), .and (.zpx b1), .rol (.zpx b1), .und 0x37,
    .sec, .and (.absy w), .nopStar 0x3A .imp, .und 0x3B,
    .nopStar 0x3C (.absx w), .and (.absx w), .rol (.absx w), .und 0x3F],
   -- 4x
   [.rti, .eor (.indx b1), .und 0x42, .und 0x43,
    .nopStar 0x44 (.zp b1), .eor (.zp b1), .lsr (.zp b1), .und 0x47,
    .pha, .eor (.imm b1), .lsr .acc, .und 0x4B,
    .jmp (.abs w), .eor (.abs w), .lsr (.abs w), .und 0x4F],
   -- 5x
   [.bvc b1, .eor (.indy b1), .und 0x52, .und 0x53,
    .nopStar 0x54 (.zpx b1), .eor (.zpx b1), .lsr (.zpx b1), .und 0x57,
    .cli, .eor (.absy w), .nopStar 0x5A .imp, .und 0x5B,
    .nopStar 0x5C (.absx w), .eor (.absx w), .lsr (.absx w), .und 0x5F],
   -- 6x
   [.rts, .adc (.indx b1), .und 0x62, .und 0x63,
    .nopStar 0x64 (.zp b1), .adc (.zp b1), .ror (.zp b1), .und 0x67,
    .pla, .adc (.imm b1), .ror .acc, .und 0x6B,
    .jmp (.ind w), .adc (.abs w), .ror (.abs w), .und 0x6F],
   -- 7x
   [.bvs b1, .adc (.indy b1), .und 0x72, .und 0x73,
    .nopStar 0x74 (.zpx b1), .adc (.zpx b1), .ror (.zpx b1), .und 0x77,
    .sei, .adc (.absy w), .nopStar 0x7A .imp, .und 0x7B,
    .nopStar 0x7C (.absx w), .adc (.absx w), .ror (.absx w), .und 0x7F]]

/-- The lower half of R147's map, opcodes 0x80 to 0xFF. -/
def opcodeMapHigh (b1 : Byte) (w : Addr) : List (List Instr) :=
  [
   -- 8x
   [.nopStar 0x80 .imm, .sta (.indx b1), .nopStar 0x82 .imm, .und 0x83,
    .sty (.zp b1), .sta (.zp b1), .stx (.zp b1), .und 0x87,
    .dey, .nopStar 0x89 .imm, .txa, .und 0x8B,
    .sty (.abs w), .sta (.abs w), .stx (.abs w), .und 0x8F],
   -- 9x
   [.bcc b1, .sta (.indy b1), .und 0x92, .und 0x93,
    .sty (.zpx b1), .sta (.zpx b1), .stx (.zpy b1), .und 0x97,
    .tya, .sta (.absy w), .txs, .und 0x9B,
    .und 0x9C, .sta (.absx w), .und 0x9E, .und 0x9F],
   -- Ax
   [.ldy (.imm b1), .lda (.indx b1), .ldx (.imm b1), .und 0xA3,
    .ldy (.zp b1), .lda (.zp b1), .ldx (.zp b1), .und 0xA7,
    .tay, .lda (.imm b1), .tax, .und 0xAB,
    .ldy (.abs w), .lda (.abs w), .ldx (.abs w), .und 0xAF],
   -- Bx
   [.bcs b1, .lda (.indy b1), .und 0xB2, .und 0xB3,
    .ldy (.zpx b1), .lda (.zpx b1), .ldx (.zpy b1), .und 0xB7,
    .clv, .lda (.absy w), .tsx, .und 0xBB,
    .ldy (.absx w), .lda (.absx w), .ldx (.absy w), .und 0xBF],
   -- Cx
   [.cpy (.imm b1), .cmp (.indx b1), .nopStar 0xC2 .imm, .und 0xC3,
    .cpy (.zp b1), .cmp (.zp b1), .dec (.zp b1), .und 0xC7,
    .iny, .cmp (.imm b1), .dex, .und 0xCB,
    .cpy (.abs w), .cmp (.abs w), .dec (.abs w), .und 0xCF],
   -- Dx
   [.bne b1, .cmp (.indy b1), .und 0xD2, .und 0xD3,
    .nopStar 0xD4 (.zpx b1), .cmp (.zpx b1), .dec (.zpx b1), .und 0xD7,
    .cld, .cmp (.absy w), .nopStar 0xDA .imp, .und 0xDB,
    .nopStar 0xDC (.absx w), .cmp (.absx w), .dec (.absx w), .und 0xDF],
   -- Ex
   [.cpx (.imm b1), .sbc (.indx b1), .nopStar 0xE2 .imm, .und 0xE3,
    .cpx (.zp b1), .sbc (.zp b1), .inc (.zp b1), .und 0xE7,
    .inx, .sbc (.imm b1), .nop, .und 0xEB,
    .cpx (.abs w), .sbc (.abs w), .inc (.abs w), .und 0xEF],
   -- Fx
   [.beq b1, .sbc (.indy b1), .und 0xF2, .und 0xF3,
    .nopStar 0xF4 (.zpx b1), .sbc (.zpx b1), .inc (.zpx b1), .und 0xF7,
    .sed, .sbc (.absy w), .nopStar 0xFA .imp, .und 0xFB,
    .nopStar 0xFC (.absx w), .sbc (.absx w), .inc (.absx w), .und 0xFF]]

/-- R147: the whole map, one list for each high nibble. -/
def opcodeMap (b1 : Byte) (w : Addr) : List (List Instr) :=
  opcodeMapLow b1 w ++ opcodeMapHigh b1 w

/-- The instruction of an opcode byte and the two bytes after it; the bytes a form does not use do not matter. Every
opcode byte decodes (R147), by the opcode byte alone (R130). -/
def decode3 (b0 b1 b2 : Byte) : Instr :=
  (((opcodeMap b1 (leWord b1 b2)).getD (b0.toNat / 16) []).getD (b0.toNat % 16) (.und b0))

/-- Which bytes the CPU reads after the opcode, and when (R132). -/
inductive OperandFetch where
  /-- No operand byte is read: R133, R134, BRK's padding byte (R274) and the `NOP*` immediate byte (R303). -/
  | nothing
  /-- The byte at PC0 + 1, read by the action after PC has advanced and the cost is charged (R135). -/
  | immediate
  /-- op8, read by the mode computation. -/
  | op8
  /-- op16, read by the mode computation, low byte first (R95). -/
  | op16
deriving DecidableEq, Repr

/-- The operand bytes of each addressing mode (R134 to R144). -/
def Operand.fetch : Operand → OperandFetch
  | .acc => .nothing
  | .imm _ => .immediate
  | .zp _ | .zpx _ | .zpy _ | .indx _ | .indy _ => .op8
  | .abs _ | .absx _ | .absy _ | .ind _ => .op16

/-- The operand bytes the mode computation of a `NOP*` form reads (R311). -/
def NopForm.fetch : NopForm → OperandFetch
  | .imp | .imm => .nothing
  | .zp _ | .zpx _ => .op8
  | .abs _ | .absx _ => .op16

/-- The operand bytes the CPU reads for an instruction. -/
def Instr.fetch : Instr → OperandFetch
  | .lda m | .ldx m | .ldy m | .sta m | .stx m | .sty m => m.fetch
  | .adc m | .sbc m | .and m | .ora m | .eor m | .cmp m | .cpx m | .cpy m | .bit m => m.fetch
  | .asl m | .lsr m | .rol m | .ror m | .inc m | .dec m | .jmp m => m.fetch
  | .bcc _ | .bcs _ | .beq _ | .bne _ | .bmi _ | .bpl _ | .bvc _ | .bvs _ => .op8
  | .jsr _ => .op16
  | .nopStar _ form => form.fetch
  | .tax | .tay | .txa | .tya | .tsx | .txs | .inx | .iny | .dex | .dey => .nothing
  | .rts | .rti | .brk => .nothing
  | .pha | .pla | .php | .plp | .clc | .sec | .cli | .sei | .clv | .cld | .sed | .nop | .und _ => .nothing

/-- The size of a form in bytes (R131, R133 to R144). -/
def Operand.size : Operand → Nat
  | .acc => 1
  | .imm _ | .zp _ | .zpx _ | .zpy _ | .indx _ | .indy _ => 2
  | .abs _ | .absx _ | .absy _ | .ind _ => 3

/-- The declared sizes of the `NOP*` forms (R150). -/
def NopForm.size : NopForm → Nat
  | .imp => 1
  | .imm | .zp _ | .zpx _ => 2
  | .abs _ | .absx _ => 3

/-- The `bytes` column of the table (R131): fixed by the mode, but BRK is 2 bytes though implied. -/
def Instr.size : Instr → Nat
  | .lda m | .ldx m | .ldy m | .sta m | .stx m | .sty m => m.size
  | .adc m | .sbc m | .and m | .ora m | .eor m | .cmp m | .cpx m | .cpy m | .bit m => m.size
  | .asl m | .lsr m | .rol m | .ror m | .inc m | .dec m | .jmp m => m.size
  | .bcc _ | .bcs _ | .beq _ | .bne _ | .bmi _ | .bpl _ | .bvc _ | .bvs _ | .brk => 2
  | .jsr _ => 3
  | .nopStar _ form => form.size
  | .tax | .tay | .txa | .tya | .tsx | .txs | .inx | .iny | .dex | .dey => 1
  | .rts | .rti => 1
  | .pha | .pla | .php | .plp | .clc | .sec | .cli | .sei | .clv | .cld | .sed | .nop | .und _ => 1

/-- Why a byte list is not an instruction: only because it is too short, since every opcode byte decodes (R147). -/
inductive DecodeError where
  /-- There is no opcode byte. -/
  | empty
  /-- The list ends before the operand bytes of this opcode. -/
  | truncated (opcode : Byte)
deriving DecidableEq, Repr

/-- The first instruction of a byte list and the bytes after it. -/
def decode : List Byte → Except DecodeError (Instr × List Byte)
  | [] => .error .empty
  | b0 :: rest =>
    let i := decode3 b0 (rest.getD 0 0) (rest.getD 1 0)
    if rest.length + 1 < i.size then .error (.truncated b0) else .ok (i, rest.drop (i.size - 1))

/-- The bytes of a number, the first in its low bits, as the opcode table numbers them. -/
def tableBytes (nbits w : Nat) : List Byte :=
  let w := w % 2 ^ nbits
  [BitVec.ofNat 8 w, BitVec.ofNat 8 (w / 256), BitVec.ofNat 8 (w / 65536)]

/-- The instruction the decoder reads from an instruction whose bits are `w`, numbered as spec/opcode_table.json
numbers them; the bits above `nbits` are zero. -/
def decodeTableWord (nbits w : Nat) : Option Instr :=
  match decode (tableBytes nbits w) with
  | .ok (i, _) => some i
  | .error _ => none

/-- The columns of a table row that its mode does not fix (R148): the opcode byte, the base cycles and the page
penalty. -/
structure Entry where
  opcode : Byte
  cycles : Nat
  penalty : Nat
deriving DecidableEq, Repr

/-- The rows of LDA (R170, R148). -/
def ldaEntry : Operand → Option Entry
  | .imm _ => some ⟨0xA9, 2, 0⟩
  | .zp _ => some ⟨0xA5, 3, 0⟩
  | .zpx _ => some ⟨0xB5, 4, 0⟩
  | .abs _ => some ⟨0xAD, 4, 0⟩
  | .absx _ => some ⟨0xBD, 4, 1⟩
  | .absy _ => some ⟨0xB9, 4, 1⟩
  | .indx _ => some ⟨0xA1, 6, 0⟩
  | .indy _ => some ⟨0xB1, 5, 1⟩
  | _ => none

/-- The rows of LDX (R171, R148). -/
def ldxEntry : Operand → Option Entry
  | .imm _ => some ⟨0xA2, 2, 0⟩
  | .zp _ => some ⟨0xA6, 3, 0⟩
  | .zpy _ => some ⟨0xB6, 4, 0⟩
  | .abs _ => some ⟨0xAE, 4, 0⟩
  | .absy _ => some ⟨0xBE, 4, 1⟩
  | _ => none

/-- The rows of LDY (R172, R148). -/
def ldyEntry : Operand → Option Entry
  | .imm _ => some ⟨0xA0, 2, 0⟩
  | .zp _ => some ⟨0xA4, 3, 0⟩
  | .zpx _ => some ⟨0xB4, 4, 0⟩
  | .abs _ => some ⟨0xAC, 4, 0⟩
  | .absx _ => some ⟨0xBC, 4, 1⟩
  | _ => none

/-- The rows of STA (R173, R148). -/
def staEntry : Operand → Option Entry
  | .zp _ => some ⟨0x85, 3, 0⟩
  | .zpx _ => some ⟨0x95, 4, 0⟩
  | .abs _ => some ⟨0x8D, 4, 0⟩
  | .absx _ => some ⟨0x9D, 5, 0⟩
  | .absy _ => some ⟨0x99, 5, 0⟩
  | .indx _ => some ⟨0x81, 6, 0⟩
  | .indy _ => some ⟨0x91, 6, 0⟩
  | _ => none

/-- The rows of STX (R174, R148). -/
def stxEntry : Operand → Option Entry
  | .zp _ => some ⟨0x86, 3, 0⟩
  | .zpy _ => some ⟨0x96, 4, 0⟩
  | .abs _ => some ⟨0x8E, 4, 0⟩
  | _ => none

/-- The rows of STY (R175, R148). -/
def styEntry : Operand → Option Entry
  | .zp _ => some ⟨0x84, 3, 0⟩
  | .zpx _ => some ⟨0x94, 4, 0⟩
  | .abs _ => some ⟨0x8C, 4, 0⟩
  | _ => none

/-- The rows of ADC (R200, R148). -/
def adcEntry : Operand → Option Entry
  | .imm _ => some ⟨0x69, 2, 0⟩
  | .zp _ => some ⟨0x65, 3, 0⟩
  | .zpx _ => some ⟨0x75, 4, 0⟩
  | .abs _ => some ⟨0x6D, 4, 0⟩
  | .absx _ => some ⟨0x7D, 4, 1⟩
  | .absy _ => some ⟨0x79, 4, 1⟩
  | .indx _ => some ⟨0x61, 6, 0⟩
  | .indy _ => some ⟨0x71, 5, 1⟩
  | _ => none

/-- The rows of SBC (R201, R148). -/
def sbcEntry : Operand → Option Entry
  | .imm _ => some ⟨0xE9, 2, 0⟩
  | .zp _ => some ⟨0xE5, 3, 0⟩
  | .zpx _ => some ⟨0xF5, 4, 0⟩
  | .abs _ => some ⟨0xED, 4, 0⟩
  | .absx _ => some ⟨0xFD, 4, 1⟩
  | .absy _ => some ⟨0xF9, 4, 1⟩
  | .indx _ => some ⟨0xE1, 6, 0⟩
  | .indy _ => some ⟨0xF1, 5, 1⟩
  | _ => none

/-- The rows of AND (R202, R148). -/
def andEntry : Operand → Option Entry
  | .imm _ => some ⟨0x29, 2, 0⟩
  | .zp _ => some ⟨0x25, 3, 0⟩
  | .zpx _ => some ⟨0x35, 4, 0⟩
  | .abs _ => some ⟨0x2D, 4, 0⟩
  | .absx _ => some ⟨0x3D, 4, 1⟩
  | .absy _ => some ⟨0x39, 4, 1⟩
  | .indx _ => some ⟨0x21, 6, 0⟩
  | .indy _ => some ⟨0x31, 5, 1⟩
  | _ => none

/-- The rows of ORA (R203, R148). -/
def oraEntry : Operand → Option Entry
  | .imm _ => some ⟨0x09, 2, 0⟩
  | .zp _ => some ⟨0x05, 3, 0⟩
  | .zpx _ => some ⟨0x15, 4, 0⟩
  | .abs _ => some ⟨0x0D, 4, 0⟩
  | .absx _ => some ⟨0x1D, 4, 1⟩
  | .absy _ => some ⟨0x19, 4, 1⟩
  | .indx _ => some ⟨0x01, 6, 0⟩
  | .indy _ => some ⟨0x11, 5, 1⟩
  | _ => none

/-- The rows of EOR (R204, R148). -/
def eorEntry : Operand → Option Entry
  | .imm _ => some ⟨0x49, 2, 0⟩
  | .zp _ => some ⟨0x45, 3, 0⟩
  | .zpx _ => some ⟨0x55, 4, 0⟩
  | .abs _ => some ⟨0x4D, 4, 0⟩
  | .absx _ => some ⟨0x5D, 4, 1⟩
  | .absy _ => some ⟨0x59, 4, 1⟩
  | .indx _ => some ⟨0x41, 6, 0⟩
  | .indy _ => some ⟨0x51, 5, 1⟩
  | _ => none

/-- The rows of CMP (R205, R148). -/
def cmpEntry : Operand → Option Entry
  | .imm _ => some ⟨0xC9, 2, 0⟩
  | .zp _ => some ⟨0xC5, 3, 0⟩
  | .zpx _ => some ⟨0xD5, 4, 0⟩
  | .abs _ => some ⟨0xCD, 4, 0⟩
  | .absx _ => some ⟨0xDD, 4, 1⟩
  | .absy _ => some ⟨0xD9, 4, 1⟩
  | .indx _ => some ⟨0xC1, 6, 0⟩
  | .indy _ => some ⟨0xD1, 5, 1⟩
  | _ => none

/-- The rows of CPX (R206, R148). -/
def cpxEntry : Operand → Option Entry
  | .imm _ => some ⟨0xE0, 2, 0⟩
  | .zp _ => some ⟨0xE4, 3, 0⟩
  | .abs _ => some ⟨0xEC, 4, 0⟩
  | _ => none

/-- The rows of CPY (R207, R148). -/
def cpyEntry : Operand → Option Entry
  | .imm _ => some ⟨0xC0, 2, 0⟩
  | .zp _ => some ⟨0xC4, 3, 0⟩
  | .abs _ => some ⟨0xCC, 4, 0⟩
  | _ => none

/-- The rows of BIT (R208, R148). -/
def bitEntry : Operand → Option Entry
  | .zp _ => some ⟨0x24, 3, 0⟩
  | .abs _ => some ⟨0x2C, 4, 0⟩
  | _ => none

/-- The rows of ASL (R230, R148). -/
def aslEntry : Operand → Option Entry
  | .acc => some ⟨0x0A, 2, 0⟩
  | .zp _ => some ⟨0x06, 5, 0⟩
  | .zpx _ => some ⟨0x16, 6, 0⟩
  | .abs _ => some ⟨0x0E, 6, 0⟩
  | .absx _ => some ⟨0x1E, 7, 0⟩
  | _ => none

/-- The rows of LSR (R231, R148). -/
def lsrEntry : Operand → Option Entry
  | .acc => some ⟨0x4A, 2, 0⟩
  | .zp _ => some ⟨0x46, 5, 0⟩
  | .zpx _ => some ⟨0x56, 6, 0⟩
  | .abs _ => some ⟨0x4E, 6, 0⟩
  | .absx _ => some ⟨0x5E, 7, 0⟩
  | _ => none

/-- The rows of ROL (R232, R148). -/
def rolEntry : Operand → Option Entry
  | .acc => some ⟨0x2A, 2, 0⟩
  | .zp _ => some ⟨0x26, 5, 0⟩
  | .zpx _ => some ⟨0x36, 6, 0⟩
  | .abs _ => some ⟨0x2E, 6, 0⟩
  | .absx _ => some ⟨0x3E, 7, 0⟩
  | _ => none

/-- The rows of ROR (R233, R148). -/
def rorEntry : Operand → Option Entry
  | .acc => some ⟨0x6A, 2, 0⟩
  | .zp _ => some ⟨0x66, 5, 0⟩
  | .zpx _ => some ⟨0x76, 6, 0⟩
  | .abs _ => some ⟨0x6E, 6, 0⟩
  | .absx _ => some ⟨0x7E, 7, 0⟩
  | _ => none

/-- The rows of INC (R234, R148). -/
def incEntry : Operand → Option Entry
  | .zp _ => some ⟨0xE6, 5, 0⟩
  | .zpx _ => some ⟨0xF6, 6, 0⟩
  | .abs _ => some ⟨0xEE, 6, 0⟩
  | .absx _ => some ⟨0xFE, 7, 0⟩
  | _ => none

/-- The rows of DEC (R235, R148). -/
def decEntry : Operand → Option Entry
  | .zp _ => some ⟨0xC6, 5, 0⟩
  | .zpx _ => some ⟨0xD6, 6, 0⟩
  | .abs _ => some ⟨0xCE, 6, 0⟩
  | .absx _ => some ⟨0xDE, 7, 0⟩
  | _ => none

/-- The rows of JMP (R269, R270, R148). -/
def jmpEntry : Operand → Option Entry
  | .abs _ => some ⟨0x4C, 3, 0⟩
  | .ind _ => some ⟨0x6C, 5, 0⟩
  | _ => none

/-- The row of the opcode table an instruction stands for (R148); none for a term that is no instruction. The `NOP*`
and `UND` rows cost 2 cycles with no page penalty (R150, R151). -/
def Instr.entry : Instr → Option Entry
  | .lda m => ldaEntry m
  | .ldx m => ldxEntry m
  | .ldy m => ldyEntry m
  | .sta m => staEntry m
  | .stx m => stxEntry m
  | .sty m => styEntry m
  | .adc m => adcEntry m
  | .sbc m => sbcEntry m
  | .and m => andEntry m
  | .ora m => oraEntry m
  | .eor m => eorEntry m
  | .cmp m => cmpEntry m
  | .cpx m => cpxEntry m
  | .cpy m => cpyEntry m
  | .bit m => bitEntry m
  | .asl m => aslEntry m
  | .lsr m => lsrEntry m
  | .rol m => rolEntry m
  | .ror m => rorEntry m
  | .inc m => incEntry m
  | .dec m => decEntry m
  | .jmp m => jmpEntry m
  | .tax => some ⟨0xAA, 2, 0⟩
  | .tay => some ⟨0xA8, 2, 0⟩
  | .txa => some ⟨0x8A, 2, 0⟩
  | .tya => some ⟨0x98, 2, 0⟩
  | .tsx => some ⟨0xBA, 2, 0⟩
  | .txs => some ⟨0x9A, 2, 0⟩
  | .inx => some ⟨0xE8, 2, 0⟩
  | .iny => some ⟨0xC8, 2, 0⟩
  | .dex => some ⟨0xCA, 2, 0⟩
  | .dey => some ⟨0x88, 2, 0⟩
  | .bcc _ => some ⟨0x90, 2, 0⟩
  | .bcs _ => some ⟨0xB0, 2, 0⟩
  | .beq _ => some ⟨0xF0, 2, 0⟩
  | .bne _ => some ⟨0xD0, 2, 0⟩
  | .bmi _ => some ⟨0x30, 2, 0⟩
  | .bpl _ => some ⟨0x10, 2, 0⟩
  | .bvc _ => some ⟨0x50, 2, 0⟩
  | .bvs _ => some ⟨0x70, 2, 0⟩
  | .jsr _ => some ⟨0x20, 6, 0⟩
  | .rts => some ⟨0x60, 6, 0⟩
  | .rti => some ⟨0x40, 6, 0⟩
  | .brk => some ⟨0x00, 7, 0⟩
  | .pha => some ⟨0x48, 3, 0⟩
  | .pla => some ⟨0x68, 4, 0⟩
  | .php => some ⟨0x08, 3, 0⟩
  | .plp => some ⟨0x28, 4, 0⟩
  | .clc => some ⟨0x18, 2, 0⟩
  | .sec => some ⟨0x38, 2, 0⟩
  | .cli => some ⟨0x58, 2, 0⟩
  | .sei => some ⟨0x78, 2, 0⟩
  | .clv => some ⟨0xB8, 2, 0⟩
  | .cld => some ⟨0xD8, 2, 0⟩
  | .sed => some ⟨0xF8, 2, 0⟩
  | .nop => some ⟨0xEA, 2, 0⟩
  | .nopStar opcode form => if form.opcodes.contains opcode then some ⟨opcode, 2, 0⟩ else none
  | .und opcode => if undOpcodes.contains opcode then some ⟨opcode, 2, 0⟩ else none

/-- The operand bytes of a form, in memory order (R130, R132). -/
def Operand.bytes : Operand → List Byte
  | .acc => []
  | .imm b | .zp b | .zpx b | .zpy b | .indx b | .indy b => [b]
  | .abs w | .absx w | .absy w | .ind w => [loByte w, hiByte w]

/-- The operand bytes of a `NOP*` form; the skipped immediate byte is written 0x00. -/
def NopForm.bytes : NopForm → List Byte
  | .imp => []
  | .imm => [0x00]
  | .zp b | .zpx b => [b]
  | .abs w | .absx w => [loByte w, hiByte w]

/-- The bytes after the opcode; BRK's padding byte is written 0x00 (R274). -/
def Instr.operandBytes : Instr → List Byte
  | .lda m | .ldx m | .ldy m | .sta m | .stx m | .sty m => m.bytes
  | .adc m | .sbc m | .and m | .ora m | .eor m | .cmp m | .cpx m | .cpy m | .bit m => m.bytes
  | .asl m | .lsr m | .rol m | .ror m | .inc m | .dec m | .jmp m => m.bytes
  | .bcc d | .bcs d | .beq d | .bne d | .bmi d | .bpl d | .bvc d | .bvs d => [d]
  | .jsr w => [loByte w, hiByte w]
  | .brk => [0x00]
  | .nopStar _ form => form.bytes
  | .tax | .tay | .txa | .tya | .tsx | .txs | .inx | .iny | .dex | .dey => []
  | .rts | .rti => []
  | .pha | .pla | .php | .plp | .clc | .sec | .cli | .sei | .clv | .cld | .sed | .nop | .und _ => []

/-- The bytes of an instruction (R130): its opcode byte, then its operand bytes. A term that is no instruction has
none. -/
def encode (i : Instr) : List Byte :=
  match i.entry with
  | some e => e.opcode :: i.operandBytes
  | none => []

end Sys2Proof
end

