-- ==== Sys2Proof/Config.lean ====
section
/-! DEFINITION. What is fixed for one machine: the open parameter ACCESS_MODE (00_scope.md R8), the cartridge's
mirroring and PRG size, and the constants of R7 that the other files name. The spec leaves no value free, so no
uninterpreted constant stands here. -/

namespace Sys2Proof

/-- R8: what a programmer-error access does. The spec leaves the choice OPEN. -/
inductive AccessMode where
  /-- The access faults. -/
  | strict
  /-- A read gives 0x00 and a write is discarded. -/
  | lenient
deriving DecidableEq, Repr

/-- R55, R103: the nametable mirroring of header byte 6 bit 0. -/
inductive Mirroring where
  | horizontal
  | vertical
deriving DecidableEq, Repr

/-- R7, R55: the two PRG sizes of mapper 0. -/
inductive PrgSize where
  | k16
  | k32
deriving DecidableEq, Repr

/-- The PRG size in bytes. -/
def PrgSize.bytes : PrgSize → Nat
  | .k16 => 16384
  | .k32 => 32768

namespace Config

/-- R117: the NMI vector. -/
def nmiVector : Addr := 0xFFFA#16

/-- R117: the reset vector. -/
def resetVector : Addr := 0xFFFC#16

/-- R117: the vector IRQ and BRK share. -/
def irqVector : Addr := 0xFFFE#16

/-- R7: dots in a scanline. -/
def dotsPerLine : Nat := 341

/-- R7: scanlines in a frame. -/
def linesPerFrame : Nat := 262

/-- R322, R356: the delay, in PPU ticks, of a scheduled NMI pulse. -/
def nmiDelay : Nat := 15

end Config

end Sys2Proof
end

