-- ==== Sys2Proof/Machine/State.lean ====
section
/-! DEFINITION. Everything the spec gives the machine (10_state.md R30 to R58), as plain data, with the value after
`power_up()` (70_reset_and_hazards.md R450). Each storage is a sparse list of cells in the canonical form of
Machine/Memory.lean; an unlisted cell reads 0x00, the power-up content of every storage (R40 to R43, R54, R55). -/

namespace Sys2Proof.Machine

/-- A storage of bytes: the cells whose byte is not what an unlisted cell reads as. -/
abbrev Memory := List Host.Cell

/-- The framebuffer's storage: 6-bit entries under the key `y * 256 + x` (R54). -/
abbrev Pixels := List (Nat × BitVec 6)

/-- P (R33): seven stored flags. Bit 5 has no storage (R34). -/
structure Status where
  /-- Carry, bit 0. -/
  c : Bool
  /-- Zero, bit 1. -/
  z : Bool
  /-- IRQ disable, bit 2. -/
  i : Bool
  /-- Decimal, bit 3; stored, with no effect on arithmetic (R209). -/
  d : Bool
  /-- Break, bit 4; stored (R35). -/
  b : Bool
  /-- Signed overflow, bit 6. -/
  v : Bool
  /-- Sign, bit 7. -/
  s : Bool
deriving DecidableEq, Repr

/-- The kinds the interrupt queue can hold (R38). -/
inductive Interrupt where
  | nmi
  | irq
deriving DecidableEq, Repr

/-- The CPU register file and its two counters (R30 to R33, R37 to R39). -/
structure Cpu where
  a : Byte
  x : Byte
  y : Byte
  /-- The stack pointer; slot SP is CPU address `0x0100 | SP` (R31). -/
  sp : Byte
  pc : Addr
  p : Status
  /-- The CPU cycle counter (R37). -/
  cycles : BitVec 64
  /-- The interrupt queue, one slot (R38). -/
  pending : Option Interrupt
  /-- CPU ticks left before the next instruction boundary (R39). -/
  remaining : Nat
deriving DecidableEq, Repr

/-- R450: the CPU after power-up, with the program counter the reset vector gives. -/
def Cpu.powerUp (pc : Addr) : Cpu where
  a := 0x00
  x := 0x00
  y := 0x00
  sp := 0xFD
  pc := pc
  p := { c := false, z := false, i := true, d := false, b := true, v := false, s := false }
  cycles := 7
  pending := none
  remaining := 0

/-- The PPU: its storages, registers, latches and counters (R41 to R54). -/
structure Ppu where
  /-- Nametable storage, 2048 bytes (R41). -/
  nt : Memory
  /-- Palette storage, 32 bytes (R42). -/
  pal : Memory
  /-- Object attribute memory, 256 bytes (R43). -/
  oam : Memory
  oamAddr : Byte
  /-- The current VRAM address (R44). -/
  v : BitVec 15
  /-- The temporary VRAM address (R44). -/
  t : BitVec 15
  fineX : BitVec 3
  /-- The write toggle; false means the next write is the first of a pair (R45). -/
  w : Bool
  /-- The buffer of PPUDATA reads (R46). -/
  readBuffer : Byte
  ntByte : Byte
  /-- The 2-bit attribute in bits 3:2, the other bits 0 (R47). -/
  atBits : Byte
  ptLow : Byte
  ptHigh : Byte
  /-- Sixteen 4-bit pixels, the next one in bits 63:60 (R48). -/
  pipe : BitVec 64
  spriteOverflow : Bool
  sprite0Hit : Bool
  vblank : Bool
  /-- PPUCTRL (R50). -/
  inc32 : Bool
  sprTable : Bool
  bgTable : Bool
  sprSize16 : Bool
  /-- Stored, with no effect (R50). -/
  ext : Bool
  nmiEnable : Bool
  /-- PPUMASK (R51); greyscale and emphasis are stored, with no effect. -/
  greyscale : Bool
  showLeftBg : Bool
  showLeftSpr : Bool
  showBg : Bool
  showSpr : Bool
  emphasis : BitVec 3
  /-- The dot processed last (R52, R341). -/
  cycle : Nat
  scanline : Nat
  frame : BitVec 64
  /-- PPU ticks left before a scheduled NMI pulse is tested; 0 when none is queued (R53). -/
  nmiDelay : Nat
  framebuffer : Pixels
deriving DecidableEq, Repr

/-- R450: the PPU after power-up. -/
def Ppu.powerUp : Ppu where
  nt := []
  pal := []
  oam := []
  oamAddr := 0x00
  v := 0
  t := 0
  fineX := 0
  w := false
  readBuffer := 0x00
  ntByte := 0x00
  atBits := 0x00
  ptLow := 0x00
  ptHigh := 0x00
  pipe := 0
  spriteOverflow := false
  sprite0Hit := false
  vblank := false
  inc32 := false
  sprTable := false
  bgTable := false
  sprSize16 := false
  ext := false
  nmiEnable := false
  greyscale := false
  showLeftBg := false
  showLeftSpr := false
  showBg := false
  showSpr := false
  emphasis := 0
  cycle := 0
  scanline := 0
  frame := 0
  nmiDelay := 0
  framebuffer := []

/-- The header fields that are recorded and change nothing (R104, R122). -/
structure Header where
  persistentRam : Bool
  ignoreMirroring : Bool
  vsUnisystem : Bool
  prgRamUnits : Byte
deriving DecidableEq, Repr

/-- The cartridge (R55), built once from the iNES image (R118 to R122). -/
structure Cartridge where
  /-- The PRG image; no bus access writes it (R93). -/
  prg : Memory
  prgSize : PrgSize
  chr : Memory
  /-- CHR is RAM-backed and so writable (R121). -/
  chrIsRam : Bool
  /-- Work RAM, 8192 bytes (R92). -/
  wram : Memory
  mirroring : Mirroring
  header : Header
deriving DecidableEq, Repr

/-- The cartridge of `State.reset`, log entry 1 (DESIGN CHOICE): the parameter CART (R9) has no value of its own, so
reset takes a blank 16 KiB image with CHR RAM and horizontal mirroring. -/
def Cartridge.blank : Cartridge where
  prg := []
  prgSize := .k16
  chr := []
  chrIsRam := true
  wram := []
  mirroring := .horizontal
  header := { persistentRam := false, ignoreMirroring := false, vsUnisystem := false, prgRamUnits := 0 }

/-- Eight buttons in the order they are delivered (R56). -/
structure Buttons where
  a : Bool
  b : Bool
  select : Bool
  start : Bool
  up : Bool
  down : Bool
  left : Bool
  right : Bool
deriving DecidableEq, Repr

/-- No button is pressed. -/
def Buttons.released : Buttons where
  a := false
  b := false
  select := false
  start := false
  up := false
  down := false
  left := false
  right := false

/-- The two controllers and their shared strobe (R56). -/
structure Controllers where
  strobe : Bool
  /-- The shift positions, 0 to 8. -/
  index1 : Nat
  index2 : Nat
  /-- The latched snapshots. -/
  buttons1 : Buttons
  buttons2 : Buttons
deriving DecidableEq, Repr

/-- R450: the controllers after power-up. -/
def Controllers.powerUp : Controllers where
  strobe := false
  index1 := 0
  index2 := 0
  buttons1 := .released
  buttons2 := .released

/-- The fault reasons (R57, R409), each with the CPU address of the access. Each is what the spec itself says stops
the machine, so each is safe. -/
inductive FaultReason where
  /-- A read of 0x4000-0x4013, by an instruction or by an OAM-DMA read, in either access mode (R85). -/
  | apuRead (a : Addr)
  /-- A read of a write-only port, 0x2000, 0x2001, 0x2003, 0x2005, 0x2006 or 0x4014, in `strict` mode (R86, R337). -/
  | writeOnlyRead (a : Addr)
  /-- A write of PPUSTATUS in `strict` mode (R325). -/
  | readOnlyWrite (a : Addr)
  /-- An access to 0x4020-0x5FFF in `strict` mode (R91). -/
  | unmapped (a : Addr)
deriving DecidableEq, Repr

/-- The host's operations between two master ticks (R470). Building a machine from an image is
Machine/Cartridge.lean; observing it has no effect (R361). -/
inductive HostOp where
  /-- `power_up()` (R450). -/
  | powerUp
  /-- `reset()`, the reset button (R451). -/
  | reset
  /-- Replace the host button snapshots (R420). -/
  | setPads (pad1 pad2 : Buttons)
  /-- `request_irq()` (R402). -/
  | requestIrq
  /-- `request_nmi()` (R401). -/
  | requestNmi
deriving DecidableEq, Repr

/-- The whole machine. -/
structure State where
  cpu : Cpu
  /-- CPU internal RAM, 2048 bytes (R40). -/
  ram : Memory
  ppu : Ppu
  cart : Cartridge
  ctrl : Controllers
  /-- The host's button snapshots (R10, R420). -/
  pad1 : Buttons
  pad2 : Buttons
  /-- The parameter ACCESS_MODE (R8), log entry 2; no step changes it. -/
  accessMode : AccessMode
  /-- The model's own field, log entry 3: the host operations still to come, the first list before the next master
  tick. -/
  inputs : List (List HostOp)
  /-- The fault record (R57). -/
  fault : Option FaultReason
deriving DecidableEq, Repr

/-- How the machine stops. -/
inductive Fault where
  /-- A bus access faulted for `reason`, and `kept` is the state at that access, with everything done before it in the
  same master tick and with the fault recorded (R411, R412). Raised by every bus read and write of
  Machine/Ops.lean, and by a step of a machine that has already faulted. Safe: the spec says the machine stops. -/
  | access (reason : FaultReason) (kept : State)
deriving DecidableEq, Repr

/-- Why the model gives no outcome. -/
inductive Refusal where
  /-- Raised by an arm of `exec` whose instruction has no meaning in this model; no arm does. Safe. -/
  | notModelled (mnemonic : String)
  /-- Raised by every meaning for a term that is no row of the opcode table (log entry 14), which no bytes decode to.
  Safe. -/
  | illFormed
deriving DecidableEq, Repr

/-- The machine after `power_up()` with the blank cartridge (R450, log entry 1). The reset vector of that cartridge
reads 0x0000. The access mode and the host's inputs are the model's choice (log entries 2, 3, 4). -/
def State.reset : State where
  cpu := Cpu.powerUp 0x0000
  ram := []
  ppu := Ppu.powerUp
  cart := Cartridge.blank
  ctrl := Controllers.powerUp
  pad1 := .released
  pad2 := .released
  accessMode := .strict
  inputs := []
  fault := none

end Sys2Proof.Machine
end

