-- ==== Sys2Proof/Machine/Flags.lean ====
section
/-! DEFINITION. The flag computations (30_encoding.md R157, 41_arithmetic_logic.md R200 to R210) and the status image
(10_state.md R34 to R36). -/

namespace Sys2Proof.Machine

/-- R157 `setZ`. -/
def Status.setZ (p : Status) (v : Byte) : Status := { p with z := decide (v = 0) }

/-- R157 `setS`. -/
def Status.setS (p : Status) (v : Byte) : Status := { p with s := v.getLsbD 7 }

/-- R157 `setZS`: Z when the byte is 0, S its bit 7. -/
def Status.setZS (p : Status) (v : Byte) : Status := (p.setZ v).setS v

/-- R36: the status as a byte with bit 4 = `b` and bit 5 = 1. -/
def Status.image (p : Status) (b : Bool) : Byte :=
  BitVec.ofBool p.s ++ BitVec.ofBool p.v ++ 1#1 ++ BitVec.ofBool b ++ BitVec.ofBool p.d ++ BitVec.ofBool p.i ++
    BitVec.ofBool p.z ++ BitVec.ofBool p.c

/-- R36 `P_reg`: P as observed, with the stored B. -/
def Status.reg (p : Status) : Byte := p.image p.b

/-- R36 `SetP`: the restore of PLP and RTI; B is cleared and bit 5 of the byte is ignored. -/
def Status.ofByte (m : Byte) : Status where
  s := m.getLsbD 7
  v := m.getLsbD 6
  b := false
  d := m.getLsbD 3
  i := m.getLsbD 2
  z := m.getLsbD 1
  c := m.getLsbD 0

/-- R200: the unsigned sum of a byte, a byte and the carry, 0 to 511. -/
def addSum (a m : Byte) (c : Bool) : Nat := a.toNat + m.toNat + c.toNat

/-- R200: the sum modulo 256. -/
def addResult (a m : Byte) (c : Bool) : Byte := BitVec.ofNat 8 (addSum a m c)

/-- R200: the carry out of bit 7. -/
def addCarry (a m : Byte) (c : Bool) : Bool := decide (addSum a m c > 0xFF)

/-- R200: V, when the operands agree in bit 7 and the sum does not. -/
def addOverflow (a m : Byte) (c : Bool) : Bool :=
  (a ^^^ m).getLsbD 7 = false && (a ^^^ addResult a m c).getLsbD 7 = true

/-- R200: the flags ADC leaves; SBC's are these of the complement of M (R201). -/
def Status.afterAdd (p : Status) (a m : Byte) : Status :=
  { p with c := addCarry a m p.c, v := addOverflow a m p.c }.setZS (addResult a m p.c)

/-- R205 to R207: C when the register is not below M, unsigned; Z and S of the difference modulo 256. -/
def Status.afterCompare (p : Status) (r m : Byte) : Status :=
  { p with c := decide (m.toNat ≤ r.toNat) }.setZS (r - m)

/-- R208: Z from A and M, S and V from bits 7 and 6 of M. -/
def Status.afterBit (p : Status) (a m : Byte) : Status :=
  { p with z := decide (a &&& m = 0), s := m.getLsbD 7, v := m.getLsbD 6 }

end Sys2Proof.Machine
end

