-- ==== Sys2Proof/Machine/Memory.lean ====
section
/-! DEFINITION. A storage as a sparse list of cells: keys strictly rising, and no cell that holds what an unlisted cell
reads as, so that equal contents are equal lists. -/

namespace Sys2Proof.Machine

/-- What an unlisted cell reads as: 0x00, the power-up content the spec gives every storage (R450; log entry 9). -/
def unlisted {n : Nat} : BitVec n := 0#n

/-- The content of cell `a`. -/
def Cells.read {n : Nat} : List (Nat × BitVec n) → Nat → BitVec n
  | [], _ => unlisted
  | (k, v) :: rest, a => if k = a then v else Cells.read rest a

/-- A cell in front of a list, unless it holds what an unlisted cell reads as. -/
def Cells.cons {n : Nat} (a : Nat) (v : BitVec n) (m : List (Nat × BitVec n)) : List (Nat × BitVec n) :=
  if v = unlisted then m else (a, v) :: m

/-- The storage with `v` in cell `a`, still in canonical form. -/
def Cells.write {n : Nat} : List (Nat × BitVec n) → Nat → BitVec n → List (Nat × BitVec n)
  | [], a, v => Cells.cons a v []
  | (k, u) :: rest, a, v =>
    if a < k then Cells.cons a v ((k, u) :: rest)
    else if a = k then Cells.cons a v rest
    else (k, u) :: Cells.write rest a v

/-- The keys rise strictly from `lo` on, and no cell holds what an unlisted one reads as. -/
def Cells.wfFrom {n : Nat} : Nat → List (Nat × BitVec n) → Bool
  | _, [] => true
  | lo, (k, v) :: rest => decide (lo ≤ k) && decide (v ≠ unlisted) && Cells.wfFrom (k + 1) rest

/-- The canonical form. -/
def Cells.wf {n : Nat} (m : List (Nat × BitVec n)) : Bool := Cells.wfFrom 0 m

/-- Every listed cell is one of the storage's `size` cells. -/
def Cells.below {n : Nat} (size : Nat) (m : List (Nat × BitVec n)) : Bool := m.all fun c => decide (c.1 < size)

/-- The canonical form of a byte storage. -/
def Memory.wf (m : Memory) : Bool := Cells.wf m

/-- The storage that holds these bytes from cell `start` on. -/
def Memory.ofBytesFrom : Nat → List Byte → Memory
  | _, [] => []
  | start, b :: rest => Cells.cons start b (Memory.ofBytesFrom (start + 1) rest)

/-- The storage that holds these bytes from cell 0 on. -/
def Memory.ofBytes (bytes : List Byte) : Memory := Memory.ofBytesFrom 0 bytes

end Sys2Proof.Machine
end

