-- ==== Sys2Proof/Machine/Ppu.lean ====
section
/-! DEFINITION. The picture processing unit: its address space (20_memory.md R100 to R107), its register ports
(50_ppu.md R321 to R336) and its tick (R341 to R360). Every function here is on the PPU and the cartridge alone; the
CPU's side of a port is Machine/Ops.lean. -/

namespace Sys2Proof.Machine

/-! ### The PPU address space -/

/-- R103: the cell of the nametable storage for a PPU address 0x2000-0x3EFF. -/
def ntIndex (mirroring : Mirroring) (a : PpuAddr) : Nat :=
  let o := (a.toNat - 0x2000) % 0x1000
  let table := o / 0x400
  let phys := match mirroring with
    | .horizontal => table / 2
    | .vertical => table % 2
  phys * 0x400 + o % 0x400

/-- R105: the cell of the palette storage for a PPU address 0x3F00-0x3FFF. -/
def palIndex (a : PpuAddr) : Nat :=
  let i := a.toNat % 0x20
  if i ≥ 0x10 ∧ i % 4 = 0 then i - 0x10 else i

/-- R100: a read of the PPU address space; it has no side effect. -/
def Ppu.read (p : Ppu) (cart : Cartridge) (a : PpuAddr) : Byte :=
  if a.toNat < 0x2000 then Cells.read cart.chr a.toNat
  else if a.toNat < 0x3F00 then Cells.read p.nt (ntIndex cart.mirroring a)
  else Cells.read p.pal (palIndex a)

/-- R100, R102: a write of the PPU address space. -/
def Ppu.write (p : Ppu) (cart : Cartridge) (a : PpuAddr) (v : Byte) : Ppu × Cartridge :=
  if a.toNat < 0x2000 then
    (p, if cart.chrIsRam then { cart with chr := Cells.write cart.chr a.toNat v } else cart)
  else if a.toNat < 0x3F00 then ({ p with nt := Cells.write p.nt (ntIndex cart.mirroring a) v }, cart)
  else ({ p with pal := Cells.write p.pal (palIndex a) v }, cart)

/-! ### The register ports -/

/-- R322: an NMI pulse is scheduled when NMI is newly enabled during vblank and none is queued. -/
def Ppu.nmiEnableCheck (old : Bool) (p : Ppu) : Ppu :=
  if old = false ∧ p.nmiEnable = true ∧ p.vblank = true ∧ p.nmiDelay = 0 then { p with nmiDelay := Config.nmiDelay }
  else p

/-- R321: a write to PPUCTRL. -/
def Ppu.writeCtrl (p : Ppu) (v : Byte) : Ppu :=
  Ppu.nmiEnableCheck p.nmiEnable
    { p with
      t := (p.t &&& 0x73FF#15) ||| ((v &&& 3).setWidth 15 <<< 10)
      inc32 := v.getLsbD 2
      sprTable := v.getLsbD 3
      bgTable := v.getLsbD 4
      sprSize16 := v.getLsbD 5
      ext := v.getLsbD 6
      nmiEnable := v.getLsbD 7 }

/-- R323: a write to PPUMASK. -/
def Ppu.writeMask (p : Ppu) (v : Byte) : Ppu :=
  { p with
    greyscale := v.getLsbD 0
    showLeftBg := v.getLsbD 1
    showLeftSpr := v.getLsbD 2
    showBg := v.getLsbD 3
    showSpr := v.getLsbD 4
    emphasis := v.extractLsb' 5 3 }

/-- R324: the value of PPUSTATUS; bits 4:0 are 0. -/
def Ppu.status (p : Ppu) : Byte :=
  BitVec.ofBool p.vblank ++ BitVec.ofBool p.sprite0Hit ++ BitVec.ofBool p.spriteOverflow ++ 0#5

/-- R324: what a read of PPUSTATUS leaves. -/
def Ppu.afterStatusRead (p : Ppu) : Ppu := { p with vblank := false, w := false }

/-- R326: a write to OAMADDR. -/
def Ppu.writeOamAddr (p : Ppu) (v : Byte) : Ppu := { p with oamAddr := v }

/-- R327: the value of OAMDATA. -/
def Ppu.oamData (p : Ppu) : Byte := Cells.read p.oam p.oamAddr.toNat

/-- R328: a write to OAMDATA. -/
def Ppu.writeOamData (p : Ppu) (v : Byte) : Ppu :=
  { p with oam := Cells.write p.oam p.oamAddr.toNat v, oamAddr := p.oamAddr + 1 }

/-- R329, R330: a write to PPUSCROLL, X first and then Y. -/
def Ppu.writeScroll (p : Ppu) (v : Byte) : Ppu :=
  if p.w = false then
    { p with t := (p.t &&& 0x7FE0#15) ||| (v >>> 3).setWidth 15, fineX := v.setWidth 3, w := true }
  else
    { p with
      t := (p.t &&& 0x0C1F#15) ||| ((v &&& 7).setWidth 15 <<< 12) ||| ((v &&& 0xF8).setWidth 15 <<< 2)
      w := false }

/-- R331, R332: a write to PPUADDR, the high byte first; the second write copies T into V. -/
def Ppu.writeAddr (p : Ppu) (v : Byte) : Ppu :=
  if p.w = false then
    { p with t := (p.t &&& 0x00FF#15) ||| ((v &&& 0x3F).setWidth 15 <<< 8), w := true }
  else
    let t := (p.t &&& 0x7F00#15) ||| v.setWidth 15
    { p with t := t, v := t, w := false }

/-- R336: V advances by 1 or 32, modulo 2^15. -/
def Ppu.advanceV (p : Ppu) : Ppu := { p with v := p.v + if p.inc32 then 32#15 else 1#15 }

/-- R336: the PPU bus address of a PPUDATA access, V's low 14 bits. -/
def Ppu.dataAddr (p : Ppu) : PpuAddr := p.v.setWidth 14

/-- R333, R334: the value of PPUDATA: the buffer, or the palette byte itself. -/
def Ppu.data (p : Ppu) (cart : Cartridge) : Byte :=
  if p.dataAddr.toNat < 0x3F00 then p.readBuffer else p.read cart p.dataAddr

/-- R333, R334: what a read of PPUDATA leaves: the buffer refilled, from the nametable byte underneath in the palette
range, and V advanced. -/
def Ppu.afterDataRead (p : Ppu) (cart : Cartridge) : Ppu :=
  Ppu.advanceV
    { p with
      readBuffer := if p.dataAddr.toNat < 0x3F00 then p.read cart p.dataAddr
        else p.read cart (p.dataAddr - 0x1000#14) }

/-- R335: a write to PPUDATA. -/
def Ppu.writeData (p : Ppu) (cart : Cartridge) (v : Byte) : Ppu × Cartridge :=
  let r := p.write cart p.dataAddr v
  (r.1.advanceV, r.2)

/-! ### Sprite 0 -/

/-- R359: bit `7 - col` of either plane of a pattern row. -/
def Ppu.patternBit (p : Ppu) (cart : Cartridge) (addr col : Nat) : Bool :=
  (p.read cart (BitVec.ofNat 14 addr)).getLsbD (7 - col) || (p.read cart (BitVec.ofNat 14 (addr + 8))).getLsbD (7 - col)

/-- R359: where row `row` of sprite 0's tile lies in the pattern tables. -/
def Ppu.spritePattern (p : Ppu) (tile row : Nat) : Nat :=
  if p.sprSize16 then (tile % 2) * 0x1000 + (tile / 2 * 2 + row / 8) * 16 + row % 8
  else (if p.sprTable then 0x1000 else 0) + tile * 16 + row

/-- R359: sprite 0 has an opaque pixel at (x, y). -/
def Ppu.sprite0Opaque (p : Ppu) (cart : Cartridge) (x y : Nat) : Bool :=
  let sy := (Cells.read p.oam 0).toNat
  let tile := (Cells.read p.oam 1).toNat
  let attr := Cells.read p.oam 2
  let sx := (Cells.read p.oam 3).toNat
  let h := if p.sprSize16 then 16 else 8
  if sy + 1 ≤ y ∧ y - (sy + 1) < h ∧ sx ≤ x ∧ x - sx < 8 then
    let row := if attr.getLsbD 7 then h - 1 - (y - (sy + 1)) else y - (sy + 1)
    let col := if attr.getLsbD 6 then 7 - (x - sx) else x - sx
    p.patternBit cart (p.spritePattern tile row) col
  else false

/-- R359: the coarse sprite-0 hit at a pixel with background value `bg`. -/
def Ppu.sprite0Check (cart : Cartridge) (x y : Nat) (bg : BitVec 4) (p : Ppu) : Ppu :=
  if p.sprite0Hit = false ∧ p.showBg = true ∧ p.showSpr = true ∧ bg &&& 3 ≠ 0 ∧ x ≠ 255 ∧
      ¬(x < 8 ∧ (p.showLeftBg = false ∨ p.showLeftSpr = false)) ∧ p.sprite0Opaque cart x y = true then
    { p with sprite0Hit := true }
  else p

/-! ### The work of a dot -/

/-- R345: the background value at column `x`: 0 when the background is off or its left column is hidden. -/
def Ppu.background (p : Ppu) (x : Nat) : BitVec 4 :=
  if p.showBg = false ∨ (x < 8 ∧ p.showLeftBg = false) then 0
  else ((p.pipe >>> 32) >>> ((7 - p.fineX.toNat) * 4)).setWidth 4

/-- R345: the 6-bit colour of a background value, looked up literally at 0x3F00 + value. -/
def Ppu.color (p : Ppu) (cart : Cartridge) (bg : BitVec 4) : BitVec 6 :=
  (p.read cart (0x3F00#14 + bg.setWidth 14)).setWidth 6

/-- R345: the pixel at (x, y). -/
def Ppu.outputPixel (cart : Cartridge) (x y : Nat) (p : Ppu) : Ppu :=
  let bg := p.background x
  let p := p.sprite0Check cart x y bg
  { p with framebuffer := Cells.write p.framebuffer (y * 256 + x) (p.color cart bg) }

/-- R349: the pattern-table address of the tile row being fetched. -/
def Ppu.tileAddr (p : Ppu) : PpuAddr :=
  (if p.bgTable then 0x1000#14 else 0#14) + p.ntByte.setWidth 14 * 16 + (p.v >>> 12).setWidth 14

/-- R348: the attribute address for V. -/
def attrAddr (v : BitVec 15) : PpuAddr :=
  0x23C0#14 ||| (v &&& 0x0C00).setWidth 14 ||| ((v >>> 4) &&& 0x38).setWidth 14 ||| ((v >>> 2) &&& 0x07).setWidth 14

/-- R348: the two attribute bits for V, in bits 3:2. -/
def attrBits (v : BitVec 15) (at8 : Byte) : Byte :=
  ((at8 >>> (((v >>> 4) &&& 4) ||| (v &&& 2)).toNat) &&& 3) <<< 2

/-- R351: the 4-bit value of the pixel in bit `b` of the pattern bytes. -/
def Ppu.tilePixel (p : Ppu) (b : Nat) : BitVec 64 :=
  p.atBits.setWidth 64 ||| ((BitVec.ofBool (p.ptHigh.getLsbD b)).setWidth 64 <<< 1) |||
    (BitVec.ofBool (p.ptLow.getLsbD b)).setWidth 64

/-- R351: the tile's eight pixels, the leftmost in the highest nibble of bits 31:0. -/
def Ppu.tilePixels (p : Ppu) : BitVec 64 :=
  [0, 1, 2, 3, 4, 5, 6, 7].foldl (fun acc b => acc ||| (p.tilePixel b <<< (b * 4))) 0

/-- R347 to R351: the micro-step of a fetch dot. -/
def Ppu.fetchStep (cart : Cartridge) (k : Nat) (p : Ppu) : Ppu :=
  match k with
  | 0 => { p with pipe := p.pipe ||| p.tilePixels }
  | 1 => { p with ntByte := p.read cart (0x2000#14 ||| (p.v &&& 0x0FFF).setWidth 14) }
  | 3 => { p with atBits := attrBits p.v (p.read cart (attrAddr p.v)) }
  | 5 => { p with ptLow := p.read cart p.tileAddr }
  | 7 => { p with ptHigh := p.read cart (p.tileAddr + 8) }
  | _ => p

/-- R352: the coarse-X increment. -/
def incX (v : BitVec 15) : BitVec 15 :=
  if v &&& 0x001F = 31 then (v &&& ~~~0x001F#15) ^^^ 0x0400 else v + 1

/-- R353: the Y increment. -/
def incY (v : BitVec 15) : BitVec 15 :=
  if v &&& 0x7000 ≠ 0x7000 then v + 0x1000
  else
    let v := v &&& ~~~0x7000#15
    let y := (v >>> 5) &&& 31
    let y' := if y = 29 ∨ y = 31 then 0#15 else y + 1
    let v := if y = 29 then v ^^^ 0x0800 else v
    (v &&& ~~~0x03E0#15) ||| (y' <<< 5)

/-- R354: the horizontal copy from T to V. -/
def copyX (v t : BitVec 15) : BitVec 15 := (v &&& 0x7BE0) ||| (t &&& 0x041F)

/-- R355: the vertical copy from T to V. -/
def copyY (v t : BitVec 15) : BitVec 15 := (v &&& 0x041F) ||| (t &&& 0x7BE0)

/-- R342: rendering is on. -/
def Ppu.rendering (p : Ppu) : Bool := p.showBg || p.showSpr

/-- R342, R343: a visible line or the pre-render line. -/
def renderLine (s : Nat) : Bool := decide (s ≤ 239) || decide (s = 261)

/-- R343, R344: a dot of a fetch window. -/
def fetchDot (c : Nat) : Bool := (decide (1 ≤ c) && decide (c ≤ 256)) || (decide (321 ≤ c) && decide (c ≤ 336))

/-- R343, R346: the pipeline shift and the micro-step of a fetch dot. -/
def Ppu.fetchStage (cart : Cartridge) (c : Nat) (p : Ppu) : Ppu :=
  if fetchDot c then Ppu.fetchStep cart (c % 8) { p with pipe := p.pipe <<< 4 } else p

/-- R343: the scroll updates of a dot on a render line, in their order. -/
def scrollStage (s c : Nat) (t v : BitVec 15) : BitVec 15 :=
  let v := if s = 261 ∧ 280 ≤ c ∧ c ≤ 304 then copyY v t else v
  let v := if fetchDot c ∧ c % 8 = 0 then incX v else v
  let v := if c = 256 then incY v else v
  if c = 257 then copyX v t else v

/-- R343: the pixel output of a visible dot. -/
def Ppu.pixelStage (cart : Cartridge) (s c : Nat) (p : Ppu) : Ppu :=
  if s ≤ 239 ∧ 1 ≤ c ∧ c ≤ 256 then Ppu.outputPixel cart (c - 1) s p else p

/-- R343: the fetch engine and the scroll updates, on render lines while rendering is on. -/
def Ppu.renderStage (cart : Cartridge) (s c : Nat) (p : Ppu) : Ppu :=
  if p.rendering && renderLine s then
    let p := Ppu.fetchStage cart c p
    { p with v := scrollStage s c p.t p.v }
  else p

/-- R356: vblank starts; a pulse is scheduled when NMI is enabled and none is queued. -/
def Ppu.vblankStart (p : Ppu) : Ppu :=
  { p with
    vblank := true
    nmiDelay := if p.nmiEnable = true ∧ p.nmiDelay = 0 then Config.nmiDelay else p.nmiDelay }

/-- R357: vblank ends; sprite overflow is left as it is. -/
def Ppu.vblankEnd (p : Ppu) : Ppu := { p with vblank := false, sprite0Hit := false }

/-- R343: the vblank flag at dots (241, 1) and (261, 1). -/
def Ppu.vblankStage (s c : Nat) (p : Ppu) : Ppu :=
  if s = 241 ∧ c = 1 then p.vblankStart else if s = 261 ∧ c = 1 then p.vblankEnd else p

/-- R343: the work of dot (s, c). -/
def Ppu.dotWork (cart : Cartridge) (s c : Nat) (p : Ppu) : Ppu :=
  Ppu.vblankStage s c (Ppu.renderStage cart s c (Ppu.pixelStage cart s c p))

/-! ### The tick -/

/-- R341, R358: the NMI delay counter counts down. -/
def Ppu.countNmi (p : Ppu) : Ppu := { p with nmiDelay := p.nmiDelay - 1 }

/-- R341, R358: the counter reaches 0 on this tick and the conditions still hold. -/
def Ppu.postsNmi (p : Ppu) : Bool :=
  decide (p.nmiDelay = 1) && p.vblank && p.nmiEnable

/-- R341: the next dot. -/
def Ppu.advanceDot (p : Ppu) : Ppu :=
  if p.cycle + 1 = Config.dotsPerLine then
    if p.scanline + 1 = Config.linesPerFrame then { p with cycle := 0, scanline := 0, frame := p.frame + 1 }
    else { p with cycle := 0, scanline := p.scanline + 1 }
  else { p with cycle := p.cycle + 1 }

/-- R341: one PPU tick, but for the NMI it may post. -/
def Ppu.tick (cart : Cartridge) (p : Ppu) : Ppu :=
  let p := p.countNmi.advanceDot
  Ppu.dotWork cart p.scanline p.cycle p

end Sys2Proof.Machine
end

