-- ==== Sys2Proof/Machine/Ops.lean ====
section
/-! DEFINITION. The named operations over registers and memory: the CPU bus decoder with its devices (20_memory.md
R81 to R94, 50_ppu.md R320 to R340, 60_exceptions.md R418, R419), the multi-byte reads and the stack (20_memory.md
R95 to R99), and taking an interrupt (60_exceptions.md R405, 43_control_transfer.md R274) with the return from one
beside it (R273). An operation that may fault answers in `Except Fault`. -/

namespace Sys2Proof.Machine

/-! ### Registers -/

/-- R30: write A. -/
def State.setA (s : State) (v : Byte) : State := { s with cpu := { s.cpu with a := v } }

/-- R30: write X. -/
def State.setX (s : State) (v : Byte) : State := { s with cpu := { s.cpu with x := v } }

/-- R30: write Y. -/
def State.setY (s : State) (v : Byte) : State := { s with cpu := { s.cpu with y := v } }

/-- R31: write SP. -/
def State.setSp (s : State) (v : Byte) : State := { s with cpu := { s.cpu with sp := v } }

/-- R32: write PC. -/
def State.setPc (s : State) (v : Addr) : State := { s with cpu := { s.cpu with pc := v } }

/-- R33: write the flags. -/
def State.setP (s : State) (p : Status) : State := { s with cpu := { s.cpu with p := p } }

/-- R38: write the interrupt queue. -/
def State.setPending (s : State) (k : Option Interrupt) : State := { s with cpu := { s.cpu with pending := k } }

/-- R39: write the countdown to the next boundary. -/
def State.setRemaining (s : State) (n : Nat) : State := { s with cpu := { s.cpu with remaining := n } }

/-- R12 `charge`, R37: the cycle counter advances, modulo 2^64. -/
def State.charge (s : State) (n : Nat) : State :=
  { s with cpu := { s.cpu with cycles := s.cpu.cycles + BitVec.ofNat 64 n } }

/-- R32, R160: PC moves past `n` bytes, modulo 2^16. -/
def State.advancePc (s : State) (n : Nat) : State := s.setPc (s.cpu.pc + BitVec.ofNat 16 n)

/-- Set the internal RAM. -/
def State.setRam (s : State) (m : Memory) : State := { s with ram := m }

/-- Set the PPU. -/
def State.setPpu (s : State) (p : Ppu) : State := { s with ppu := p }

/-- Set the cartridge. -/
def State.setCart (s : State) (c : Cartridge) : State := { s with cart := c }

/-- Set the controllers. -/
def State.setCtrl (s : State) (c : Controllers) : State := { s with ctrl := c }

/-- One byte of OAM. -/
def State.setOam (s : State) (i : Nat) (v : Byte) : State :=
  s.setPpu { s.ppu with oam := Cells.write s.ppu.oam i v }

/-! ### Faults -/

/-- R411, R412: the machine stops at this access, with the fault recorded. -/
def State.stop (s : State) (reason : FaultReason) : Fault := .access reason { s with fault := some reason }

/-- R94 `ProgErrRead`. -/
def progErrRead (reason : FaultReason) (s : State) : Except Fault (Byte × State) :=
  match s.accessMode with
  | .strict => .error (s.stop reason)
  | .lenient => .ok (0x00, s)

/-- R94 `ProgErrWrite`. -/
def progErrWrite (reason : FaultReason) (s : State) : Except Fault State :=
  match s.accessMode with
  | .strict => .error (s.stop reason)
  | .lenient => .ok s

/-! ### The CPU bus decoder -/

/-- What a CPU address selects (R81, R82). -/
inductive Target where
  /-- A byte of internal RAM, by its index (R83). -/
  | ram (i : Nat)
  /-- A PPU register port 0 to 7 (R84). -/
  | ppuPort (r : BitVec 3)
  /-- The APU stubs 0x4000-0x4013 (R85). -/
  | apu
  /-- The OAM-DMA port (R86). -/
  | oamDma
  /-- The APU status stub (R87). -/
  | apuStatus
  /-- The controller port 0x4016 (R88). -/
  | ctrl1
  /-- The controller port 0x4017 (R89). -/
  | ctrl2
  /-- The test registers 0x4018-0x401F (R90). -/
  | test
  /-- The unmapped cartridge addresses 0x4020-0x5FFF (R91). -/
  | unmapped
  /-- A byte of work RAM, by its index (R92). -/
  | wram (i : Nat)
  /-- PRG ROM, by the offset from 0x8000 (R93). -/
  | prg (offset : Nat)
deriving DecidableEq, Repr

/-- R81: the decoder, evaluated in order. -/
def target (a : Addr) : Target :=
  let n := a.toNat
  if n ≤ 0x1FFF then .ram (n % 0x800)
  else if n ≤ 0x3FFF then .ppuPort (a.setWidth 3)
  else if n ≤ 0x4013 then .apu
  else if n = 0x4014 then .oamDma
  else if n = 0x4015 then .apuStatus
  else if n = 0x4016 then .ctrl1
  else if n = 0x4017 then .ctrl2
  else if n ≤ 0x401F then .test
  else if n ≤ 0x5FFF then .unmapped
  else if n ≤ 0x7FFF then .wram (n - 0x6000)
  else .prg (n - 0x8000)

/-- R93: the PRG byte at an offset from 0x8000; a 16 KiB image appears twice. -/
def Cartridge.prgByte (c : Cartridge) (offset : Nat) : Byte := Cells.read c.prg (offset % c.prgSize.bytes)

/-- R320: `PpuRegRead` of port `r` at the CPU address `a`, which a fault records (R411; log entry 6). -/
def ppuRegRead (r : BitVec 3) (a : Addr) (s : State) : Except Fault (Byte × State) :=
  match r.toNat with
  | 2 => .ok (s.ppu.status, s.setPpu s.ppu.afterStatusRead)
  | 4 => .ok (s.ppu.oamData, s)
  | 7 => .ok (s.ppu.data s.cart, s.setPpu (s.ppu.afterDataRead s.cart))
  | _ => progErrRead (.writeOnlyRead a) s

/-- R320: `PpuRegWrite` of port `r` at the CPU address `a`, which a fault records (R411; log entry 6). -/
def ppuRegWrite (r : BitVec 3) (a : Addr) (v : Byte) (s : State) : Except Fault State :=
  match r.toNat with
  | 0 => .ok (s.setPpu (s.ppu.writeCtrl v))
  | 1 => .ok (s.setPpu (s.ppu.writeMask v))
  | 2 => progErrWrite (.readOnlyWrite a) s
  | 3 => .ok (s.setPpu (s.ppu.writeOamAddr v))
  | 4 => .ok (s.setPpu (s.ppu.writeOamData v))
  | 5 => .ok (s.setPpu (s.ppu.writeScroll v))
  | 6 => .ok (s.setPpu (s.ppu.writeAddr v))
  | _ =>
    let w := s.ppu.writeData s.cart v
    .ok ((s.setPpu w.1).setCart w.2)

/-! ### The controllers -/

/-- R56: the button at a shift position, in the order A, B, Select, Start, Up, Down, Left, Right, then 1 for good
(R418). -/
def Buttons.bit (b : Buttons) : Nat → Bool
  | 0 => b.a
  | 1 => b.b
  | 2 => b.select
  | 3 => b.start
  | 4 => b.up
  | 5 => b.down
  | 6 => b.left
  | 7 => b.right
  | _ => true

/-- R419 `Latch`: both snapshots are copied from the host's pads. -/
def State.latch (s : State) : State :=
  s.setCtrl { s.ctrl with buttons1 := s.pad1, buttons2 := s.pad2 }

/-- R418: the shift position after a read with the strobe off; it stops at 8. -/
def nextIndex (i : Nat) : Nat := if i < 8 then i + 1 else i

/-- R418: a read of 0x4016; the button is bit 0, bits 7:1 are 0. -/
def ctrlRead1 (s : State) : Byte × State :=
  if s.ctrl.strobe then
    let s := s.latch
    ((BitVec.ofBool (s.ctrl.buttons1.bit 0)).setWidth 8, s.setCtrl { s.ctrl with index1 := 0 })
  else
    ((BitVec.ofBool (s.ctrl.buttons1.bit s.ctrl.index1)).setWidth 8,
      s.setCtrl { s.ctrl with index1 := nextIndex s.ctrl.index1 })

/-- R418: a read of 0x4017. -/
def ctrlRead2 (s : State) : Byte × State :=
  if s.ctrl.strobe then
    let s := s.latch
    ((BitVec.ofBool (s.ctrl.buttons2.bit 0)).setWidth 8, s.setCtrl { s.ctrl with index2 := 0 })
  else
    ((BitVec.ofBool (s.ctrl.buttons2.bit s.ctrl.index2)).setWidth 8,
      s.setCtrl { s.ctrl with index2 := nextIndex s.ctrl.index2 })

/-- R419: a write to 0x4016 strobes both controllers. -/
def ctrlWrite (v : Byte) (s : State) : State :=
  let new := v.getLsbD 0
  let s' := if s.ctrl.strobe || new then s.latch else s
  if new then s'.setCtrl { s'.ctrl with strobe := true, index1 := 0, index2 := 0 }
  else s'.setCtrl { s'.ctrl with strobe := false }

/-! ### Reads and writes of the CPU bus -/

/-- R81: `read8`. -/
def read8 (a : Addr) (s : State) : Except Fault (Byte × State) :=
  match target a with
  | .ram i => .ok (Cells.read s.ram i, s)
  | .ppuPort r => ppuRegRead r a s
  | .apu => .error (s.stop (.apuRead a))
  | .oamDma => progErrRead (.writeOnlyRead a) s
  | .apuStatus => .ok (0x00, s)
  | .ctrl1 => .ok (ctrlRead1 s)
  | .ctrl2 => .ok (ctrlRead2 s)
  | .test => .ok (0x00, s)
  | .unmapped => progErrRead (.unmapped a) s
  | .wram i => .ok (Cells.read s.cart.wram i, s)
  | .prg o => .ok (s.cart.prgByte o, s)

/-- R339: the stall of an OAM DMA, from the parity of the counter at the write. -/
def dmaStall (s : State) : Nat := if s.cpu.cycles.toNat % 2 = 1 then 514 else 513

/-- R338: the copy of the last `n` bytes of a page into OAM, in increasing address order. -/
def dmaCopy (page : Byte) : Nat → State → Except Fault State
  | 0, s => .ok s
  | n + 1, s =>
    match read8 (leWord (BitVec.ofNat 8 (255 - n)) page) s with
    | .error f => .error f
    | .ok (v, s) => dmaCopy page n (s.setOam (255 - n) v)

/-- R338 to R340: the whole DMA, inline in the write that starts it. -/
def oamDma (page : Byte) (s : State) : Except Fault State :=
  match dmaCopy page 256 s with
  | .error f => .error f
  | .ok s => .ok (s.charge (dmaStall s))

/-- R82: `write8`. -/
def write8 (a : Addr) (v : Byte) (s : State) : Except Fault State :=
  match target a with
  | .ram i => .ok (s.setRam (Cells.write s.ram i v))
  | .ppuPort r => ppuRegWrite r a v s
  | .apu => .ok s
  | .oamDma => oamDma v s
  | .apuStatus => .ok s
  | .ctrl1 => .ok (ctrlWrite v s)
  | .ctrl2 => .ok s
  | .test => .ok s
  | .unmapped => progErrWrite (.unmapped a) s
  | .wram i => .ok (s.setCart { s.cart with wram := Cells.write s.cart.wram i v })
  | .prg _ => .ok s

/-- R95: `read16`, low byte first. -/
def read16 (a : Addr) (s : State) : Except Fault (Addr × State) :=
  match read8 a s with
  | .error f => .error f
  | .ok (lo, s) =>
    match read8 (a + 1) s with
    | .error f => .error f
    | .ok (hi, s) => .ok (leWord lo hi, s)

/-- R96: the address after `a`, the increment confined to the low byte. -/
def nextInPage (a : Addr) : Addr := (a &&& 0xFF00) ||| ((a + 1) &&& 0x00FF)

/-- R96: `read16_pagewrap`. -/
def read16PageWrap (a : Addr) (s : State) : Except Fault (Addr × State) :=
  match read8 a s with
  | .error f => .error f
  | .ok (lo, s) =>
    match read8 (nextInPage a) s with
    | .error f => .error f
    | .ok (hi, s) => .ok (leWord lo hi, s)

/-! ### The stack -/

/-- R31: the CPU address of a stack slot. -/
def stackAddr (sp : Byte) : Addr := leWord sp 0x01

/-- R98 `Push`: write, then decrement SP. -/
def push (v : Byte) (s : State) : Except Fault State :=
  match write8 (stackAddr s.cpu.sp) v s with
  | .error f => .error f
  | .ok s => .ok (s.setSp (s.cpu.sp - 1))

/-- R98 `Pop`: increment SP, then read. -/
def pop (s : State) : Except Fault (Byte × State) :=
  read8 (stackAddr (s.cpu.sp + 1)) (s.setSp (s.cpu.sp + 1))

/-- R99 `Push16`: the high byte, then the low byte. -/
def push16 (w : Addr) (s : State) : Except Fault State :=
  match push (hiByte w) s with
  | .error f => .error f
  | .ok s => push (loByte w) s

/-- R99 `Pop16`: the low byte, then the high byte. -/
def pop16 (s : State) : Except Fault (Addr × State) :=
  match pop s with
  | .error f => .error f
  | .ok (lo, s) =>
    match pop s with
    | .error f => .error f
    | .ok (hi, s) => .ok (leWord lo hi, s)

/-! ### Interrupts -/

/-- Taking an interrupt, the part BRK, NMI and IRQ share (R274, R405, R406): push the return address, push the status
image with bit 4 = `brk`, set I, and load PC from the vector. -/
def enterInterrupt (ret : Addr) (brk : Bool) (vector : Addr) (s : State) : Except Fault State :=
  match push16 ret s with
  | .error f => .error f
  | .ok s =>
    match push (s.cpu.p.image brk) s with
    | .error f => .error f
    | .ok s =>
      let s := s.setP { s.cpu.p with i := true }
      match read16 vector s with
      | .error f => .error f
      | .ok (pc, s) => .ok (s.setPc pc)

/-- The return from an interrupt (R273): restore the flags, then PC, without adding 1. -/
def leaveInterrupt (s : State) : Except Fault State :=
  match pop s with
  | .error f => .error f
  | .ok (m, s) =>
    match pop16 (s.setP (Status.ofByte m)) with
    | .error f => .error f
    | .ok (pc, s) => .ok (s.setPc pc)

/-- The vector of a queued interrupt (R400, R405). -/
def Interrupt.vector : Interrupt → Addr
  | .nmi => Config.nmiVector
  | .irq => Config.irqVector

/-- R405 `ServiceInterrupt`. -/
def serviceInterrupt (kind : Interrupt) (s : State) : Except Fault State :=
  match enterInterrupt s.cpu.pc false kind.vector s with
  | .error f => .error f
  | .ok s => .ok ((s.setPending none).charge 7)

/-! ### Memory as the host sees it -/

/-- The byte a plain memory address holds, without a bus access: RAM, work RAM and PRG ROM; none elsewhere. -/
def State.peek (s : State) (a : Addr) : Option Byte :=
  match target a with
  | .ram i => some (Cells.read s.ram i)
  | .wram i => some (Cells.read s.cart.wram i)
  | .prg o => some (s.cart.prgByte o)
  | _ => none

/-- Load a byte from outside the machine into RAM, work RAM or the PRG image (log entry 13); elsewhere nothing. -/
def State.load (s : State) (a : Addr) (v : Byte) : State :=
  match target a with
  | .ram i => s.setRam (Cells.write s.ram i v)
  | .wram i => s.setCart { s.cart with wram := Cells.write s.cart.wram i v }
  | .prg o => s.setCart { s.cart with prg := Cells.write s.cart.prg (o % s.cart.prgSize.bytes) v }
  | _ => s

/-- `a` is RAM, work RAM or PRG ROM. -/
def plainMemory (a : Addr) : Bool :=
  match target a with
  | .ram _ | .wram _ | .prg _ => true
  | _ => false

end Sys2Proof.Machine
end

