-- ==== Sys2Proof/Machine/Operands.lean ====
section
/-! DEFINITION. The addressing modes (30_encoding.md R133 to R146), the operand accesses (R158, R159), and the part of
the execute step every instruction shares (R160): mode computation, PC advance, charge, then the action. -/

namespace Sys2Proof.Machine

/-- Where an operand is, once its mode is computed. -/
inductive Place where
  /-- The accumulator (R134). -/
  | acc
  /-- The immediate byte, which the fetch has read (R135; log entry 8). -/
  | imm (value : Byte)
  /-- The byte at an effective address. -/
  | mem (ea : Addr)
deriving DecidableEq, Repr

/-- R140, R141, R144, R145: two addresses lie in different pages. -/
def crossesPage (a b : Addr) : Bool := decide (a &&& 0xFF00 ≠ b &&& 0xFF00)

/-- A zero-page address (R136). -/
def zeroPage (b : Byte) : Addr := b.setWidth 16

/-- The mode computation (R134 to R144): the operand's place, whether a page was crossed, and the state after the
pointer reads. -/
def resolve (m : Operand) (s : State) : Except Fault (Place × Bool × State) :=
  match m with
  | .acc => .ok (.acc, false, s)
  | .imm v => .ok (.imm v, false, s)
  | .zp o => .ok (.mem (zeroPage o), false, s)
  | .zpx o => .ok (.mem (zeroPage (o + s.cpu.x)), false, s)
  | .zpy o => .ok (.mem (zeroPage (o + s.cpu.y)), false, s)
  | .abs w => .ok (.mem w, false, s)
  | .absx w =>
    let ea := w + s.cpu.x.setWidth 16
    .ok (.mem ea, crossesPage w ea, s)
  | .absy w =>
    let ea := w + s.cpu.y.setWidth 16
    .ok (.mem ea, crossesPage w ea, s)
  | .ind w =>
    match read16PageWrap w s with
    | .error f => .error f
    | .ok (ea, s) => .ok (.mem ea, false, s)
  | .indx o =>
    match read16PageWrap (zeroPage (o + s.cpu.x)) s with
    | .error f => .error f
    | .ok (ea, s) => .ok (.mem ea, false, s)
  | .indy o =>
    match read16PageWrap (zeroPage o) s with
    | .error f => .error f
    | .ok (base, s) =>
      let ea := base + s.cpu.y.setWidth 16
      .ok (.mem ea, crossesPage base ea, s)

/-- R158 `Load`, `Load_or_A`: the operand's value; A and the immediate byte need no bus access here. -/
def loadPlace (p : Place) (s : State) : Except Fault (Byte × State) :=
  match p with
  | .acc => .ok (s.cpu.a, s)
  | .imm v => .ok (v, s)
  | .mem ea => read8 ea s

/-- R159 `Store_or_A`, and the store of STA, STX, STY, INC and DEC. No instruction stores to an immediate operand, so
that place takes nothing. -/
def storePlace (p : Place) (v : Byte) (s : State) : Except Fault State :=
  match p with
  | .acc => .ok (s.setA v)
  | .imm _ => .ok s
  | .mem ea => write8 ea v s

/-- A meaning's answer from the outcome of its accesses. -/
def answer (r : Except Fault State) : Host.Outcome State Fault Refusal :=
  match r with
  | .ok s => .next s
  | .error f => .fault f

/-- R146, R160: PC past the instruction, its base cycles charged, and the page penalty when a page was crossed. -/
def State.retire (s : State) (e : Entry) (size : Nat) (crossed : Bool) : State :=
  (s.advancePc size).charge (e.cycles + if crossed then e.penalty else 0)

/-- R160 for an implied instruction (R133). -/
def executeImplied (e : Option Entry) (size : Nat) (action : State → Except Fault State) (s : State) :
    Host.Outcome State Fault Refusal :=
  match e with
  | none => .refused .illFormed
  | some e => answer (action (s.retire e size false))

/-- R160 for an instruction with an operand. -/
def execute (e : Option Entry) (m : Operand) (action : Place → State → Except Fault State) (s : State) :
    Host.Outcome State Fault Refusal :=
  match e with
  | none => .refused .illFormed
  | some e =>
    match resolve m s with
    | .error f => .fault f
    | .ok (p, crossed, s) => answer (action p (s.retire e m.size crossed))

/-- R158, R160: an instruction that reads its operand and then changes registers or flags. -/
def executeRead (e : Option Entry) (m : Operand) (f : Byte → State → State) (s : State) :
    Host.Outcome State Fault Refusal :=
  execute e m (fun p s =>
    match loadPlace p s with
    | .error r => .error r
    | .ok (v, s) => .ok (f v s)) s

/-- R160: an instruction that stores a register; nothing is read at the operand's address (R111). -/
def executeStore (e : Option Entry) (m : Operand) (reg : State → Byte) (s : State) :
    Host.Outcome State Fault Refusal :=
  execute e m (fun p s => storePlace p (reg s) s) s

/-- R240, R160: an instruction that reads its operand once and writes it once. `result` is the byte written and
`carry` the flags set before the write, each from the value and the old flags; Z and S of the result come after the
write. -/
def executeModify (e : Option Entry) (m : Operand) (result : Byte → Status → Byte) (carry : Byte → Status → Status)
    (s : State) : Host.Outcome State Fault Refusal :=
  execute e m (fun p s =>
    match loadPlace p s with
    | .error r => .error r
    | .ok (v, s) =>
      let r := result v s.cpu.p
      match storePlace p r (s.setP (carry v s.cpu.p)) with
      | .error r => .error r
      | .ok s => .ok (s.setP (s.cpu.p.setZS r))) s

/-- R145: the target of a branch, counted from the address after it. -/
def branchTarget (next : Addr) (op8 : Byte) : Addr := next + op8.signExtend 16

/-- R260 `Branch`, after PC has moved past the branch. -/
def takeBranch (cond : Bool) (op8 : Byte) (s : State) : State :=
  if cond then
    let ea := branchTarget s.cpu.pc op8
    (s.charge (if crossesPage s.cpu.pc ea then 2 else 1)).setPc ea
  else s

end Sys2Proof.Machine
end

