-- ==== Sys2Proof/Machine/Arith.lean ====
section
/-! DEFINITION. Arithmetic, logic, compare and bit test (41_arithmetic_logic.md). No meaning here reads D (R209). -/

namespace Sys2Proof.Machine

/-- R200: A, M and the carry are added; C, V, Z and S are written. -/
def State.addA (m : Byte) (s : State) : State :=
  (s.setA (addResult s.cpu.a m s.cpu.p.c)).setP (s.cpu.p.afterAdd s.cpu.a m)

/-- R202 to R204: A takes a result; Z and S are written. -/
def State.logicA (r : Byte) (s : State) : State := (s.setA r).setP (s.cpu.p.setZS r)

/-- R200. -/
def execAdc (m : Operand) (s : State) : Host.Outcome State Fault Refusal :=
  executeRead (adcEntry m) m (fun v s => s.addA v) s

/-- R201: ADC of the one's complement of M. -/
def execSbc (m : Operand) (s : State) : Host.Outcome State Fault Refusal :=
  executeRead (sbcEntry m) m (fun v s => s.addA (v ^^^ 0xFF)) s

/-- R202. -/
def execAnd (m : Operand) (s : State) : Host.Outcome State Fault Refusal :=
  executeRead (andEntry m) m (fun v s => s.logicA (s.cpu.a &&& v)) s

/-- R203. -/
def execOra (m : Operand) (s : State) : Host.Outcome State Fault Refusal :=
  executeRead (oraEntry m) m (fun v s => s.logicA (s.cpu.a ||| v)) s

/-- R204. -/
def execEor (m : Operand) (s : State) : Host.Outcome State Fault Refusal :=
  executeRead (eorEntry m) m (fun v s => s.logicA (s.cpu.a ^^^ v)) s

/-- R205. -/
def execCmp (m : Operand) (s : State) : Host.Outcome State Fault Refusal :=
  executeRead (cmpEntry m) m (fun v s => s.setP (s.cpu.p.afterCompare s.cpu.a v)) s

/-- R206. -/
def execCpx (m : Operand) (s : State) : Host.Outcome State Fault Refusal :=
  executeRead (cpxEntry m) m (fun v s => s.setP (s.cpu.p.afterCompare s.cpu.x v)) s

/-- R207. -/
def execCpy (m : Operand) (s : State) : Host.Outcome State Fault Refusal :=
  executeRead (cpyEntry m) m (fun v s => s.setP (s.cpu.p.afterCompare s.cpu.y v)) s

/-- R208. -/
def execBit (m : Operand) (s : State) : Host.Outcome State Fault Refusal :=
  executeRead (bitEntry m) m (fun v s => s.setP (s.cpu.p.afterBit s.cpu.a v)) s

end Sys2Proof.Machine
end

