-- ==== Sys2Proof/Machine/Control.lean ====
section
/-! DEFINITION. Branches, jumps, calls, returns and BRK (43_control_transfer.md). -/

namespace Sys2Proof.Machine

/-- R260: an instruction that branches on a condition on the flags. -/
def executeBranch (e : Option Entry) (op8 : Byte) (cond : Status → Bool) (s : State) :
    Host.Outcome State Fault Refusal :=
  executeImplied e 2 (fun s => .ok (takeBranch (cond s.cpu.p) op8 s)) s

/-- R261. -/
def execBcc (op8 : Byte) (s : State) : Host.Outcome State Fault Refusal :=
  executeBranch (Instr.bcc op8).entry op8 (fun p => !p.c) s

/-- R262. -/
def execBcs (op8 : Byte) (s : State) : Host.Outcome State Fault Refusal :=
  executeBranch (Instr.bcs op8).entry op8 (fun p => p.c) s

/-- R263. -/
def execBeq (op8 : Byte) (s : State) : Host.Outcome State Fault Refusal :=
  executeBranch (Instr.beq op8).entry op8 (fun p => p.z) s

/-- R264. -/
def execBne (op8 : Byte) (s : State) : Host.Outcome State Fault Refusal :=
  executeBranch (Instr.bne op8).entry op8 (fun p => !p.z) s

/-- R265. -/
def execBmi (op8 : Byte) (s : State) : Host.Outcome State Fault Refusal :=
  executeBranch (Instr.bmi op8).entry op8 (fun p => p.s) s

/-- R266. -/
def execBpl (op8 : Byte) (s : State) : Host.Outcome State Fault Refusal :=
  executeBranch (Instr.bpl op8).entry op8 (fun p => !p.s) s

/-- R267. -/
def execBvc (op8 : Byte) (s : State) : Host.Outcome State Fault Refusal :=
  executeBranch (Instr.bvc op8).entry op8 (fun p => !p.v) s

/-- R268. -/
def execBvs (op8 : Byte) (s : State) : Host.Outcome State Fault Refusal :=
  executeBranch (Instr.bvs op8).entry op8 (fun p => p.v) s

/-- R269, R270: PC takes the effective address; the indirect form has read its pointer with the page-wrap fetch. -/
def execJmp (m : Operand) (s : State) : Host.Outcome State Fault Refusal :=
  execute (jmpEntry m) m (fun p s =>
    match p with
    | .mem ea => .ok (s.setPc ea)
    | .acc | .imm _ => .ok s) s

/-- R271: the address of the last byte of the JSR is pushed. -/
def execJsr (dest : Addr) (s : State) : Host.Outcome State Fault Refusal :=
  executeImplied (Instr.jsr dest).entry 3 (fun s =>
    match push16 (s.cpu.pc - 1) s with
    | .error f => .error f
    | .ok s => .ok (s.setPc dest)) s

/-- R272: the popped address plus 1. -/
def execRts (s : State) : Host.Outcome State Fault Refusal :=
  executeImplied Instr.rts.entry 1 (fun s =>
    match pop16 s with
    | .error f => .error f
    | .ok (w, s) => .ok (s.setPc (w + 1))) s

/-- R273. -/
def execRti (s : State) : Host.Outcome State Fault Refusal :=
  executeImplied Instr.rti.entry 1 leaveInterrupt s

/-- R274: BRK is two bytes, so the pushed address is PC0 + 2; bit 4 of the pushed status is 1. -/
def execBrk (s : State) : Host.Outcome State Fault Refusal :=
  executeImplied Instr.brk.entry 2 (fun s => enterInterrupt s.cpu.pc true Config.irqVector s) s

end Sys2Proof.Machine
end

