-- ==== Sys2Proof/Machine/Shift.lean ====
section
/-! DEFINITION. Shifts, rotates, increments and decrements (42_shift_incdec.md). -/

namespace Sys2Proof.Machine

/-- R230, R232: C takes bit 7 of the value. -/
def carryHigh (v : Byte) (p : Status) : Status := { p with c := v.getLsbD 7 }

/-- R231, R233: C takes bit 0 of the value. -/
def carryLow (v : Byte) (p : Status) : Status := { p with c := v.getLsbD 0 }

/-- R232: the value moved left, the old carry in bit 0. -/
def rotateLeft (v : Byte) (p : Status) : Byte := (v <<< 1) ||| (BitVec.ofBool p.c).setWidth 8

/-- R233: the value moved right, the old carry in bit 7. -/
def rotateRight (v : Byte) (p : Status) : Byte := (v >>> 1) ||| ((BitVec.ofBool p.c).setWidth 8 <<< 7)

/-- R230. -/
def execAsl (m : Operand) (s : State) : Host.Outcome State Fault Refusal :=
  executeModify (aslEntry m) m (fun v _ => v <<< 1) carryHigh s

/-- R231. -/
def execLsr (m : Operand) (s : State) : Host.Outcome State Fault Refusal :=
  executeModify (lsrEntry m) m (fun v _ => v >>> 1) carryLow s

/-- R232. -/
def execRol (m : Operand) (s : State) : Host.Outcome State Fault Refusal :=
  executeModify (rolEntry m) m rotateLeft carryHigh s

/-- R233. -/
def execRor (m : Operand) (s : State) : Host.Outcome State Fault Refusal :=
  executeModify (rorEntry m) m rotateRight carryLow s

/-- R234. -/
def execInc (m : Operand) (s : State) : Host.Outcome State Fault Refusal :=
  executeModify (incEntry m) m (fun v _ => v + 1) (fun _ p => p) s

/-- R235. -/
def execDec (m : Operand) (s : State) : Host.Outcome State Fault Refusal :=
  executeModify (decEntry m) m (fun v _ => v - 1) (fun _ p => p) s

/-- R236. -/
def execInx (s : State) : Host.Outcome State Fault Refusal :=
  executeImplied Instr.inx.entry 1 (fun s => .ok ((s.setX (s.cpu.x + 1)).setP (s.cpu.p.setZS (s.cpu.x + 1)))) s

/-- R237. -/
def execIny (s : State) : Host.Outcome State Fault Refusal :=
  executeImplied Instr.iny.entry 1 (fun s => .ok ((s.setY (s.cpu.y + 1)).setP (s.cpu.p.setZS (s.cpu.y + 1)))) s

/-- R238. -/
def execDex (s : State) : Host.Outcome State Fault Refusal :=
  executeImplied Instr.dex.entry 1 (fun s => .ok ((s.setX (s.cpu.x - 1)).setP (s.cpu.p.setZS (s.cpu.x - 1)))) s

/-- R239. -/
def execDey (s : State) : Host.Outcome State Fault Refusal :=
  executeImplied Instr.dey.entry 1 (fun s => .ok ((s.setY (s.cpu.y - 1)).setP (s.cpu.p.setZS (s.cpu.y - 1)))) s

end Sys2Proof.Machine
end

