-- ==== Sys2Proof/Machine/Stack.lean ====
section
/-! DEFINITION. Stack, flag and no-operation instructions (44_stack_flags_nop.md). -/

namespace Sys2Proof.Machine

/-- R290. -/
def execPha (s : State) : Host.Outcome State Fault Refusal :=
  executeImplied Instr.pha.entry 1 (fun s => push s.cpu.a s) s

/-- R291. -/
def execPla (s : State) : Host.Outcome State Fault Refusal :=
  executeImplied Instr.pla.entry 1 (fun s =>
    match pop s with
    | .error f => .error f
    | .ok (v, s) => .ok ((s.setA v).setP (s.cpu.p.setZS v))) s

/-- R292: the pushed image has bits 4 and 5 set. -/
def execPhp (s : State) : Host.Outcome State Fault Refusal :=
  executeImplied Instr.php.entry 1 (fun s => push (s.cpu.p.image true) s) s

/-- R293. -/
def execPlp (s : State) : Host.Outcome State Fault Refusal :=
  executeImplied Instr.plp.entry 1 (fun s =>
    match pop s with
    | .error f => .error f
    | .ok (m, s) => .ok (s.setP (Status.ofByte m))) s

/-- R294. -/
def execClc (s : State) : Host.Outcome State Fault Refusal :=
  executeImplied Instr.clc.entry 1 (fun s => .ok (s.setP { s.cpu.p with c := false })) s

/-- R295. -/
def execSec (s : State) : Host.Outcome State Fault Refusal :=
  executeImplied Instr.sec.entry 1 (fun s => .ok (s.setP { s.cpu.p with c := true })) s

/-- R296. -/
def execCli (s : State) : Host.Outcome State Fault Refusal :=
  executeImplied Instr.cli.entry 1 (fun s => .ok (s.setP { s.cpu.p with i := false })) s

/-- R297. -/
def execSei (s : State) : Host.Outcome State Fault Refusal :=
  executeImplied Instr.sei.entry 1 (fun s => .ok (s.setP { s.cpu.p with i := true })) s

/-- R298. -/
def execClv (s : State) : Host.Outcome State Fault Refusal :=
  executeImplied Instr.clv.entry 1 (fun s => .ok (s.setP { s.cpu.p with v := false })) s

/-- R299. -/
def execCld (s : State) : Host.Outcome State Fault Refusal :=
  executeImplied Instr.cld.entry 1 (fun s => .ok (s.setP { s.cpu.p with d := false })) s

/-- R300. -/
def execSed (s : State) : Host.Outcome State Fault Refusal :=
  executeImplied Instr.sed.entry 1 (fun s => .ok (s.setP { s.cpu.p with d := true })) s

/-- R301: only PC and the cycle counter move. -/
def execNop (s : State) : Host.Outcome State Fault Refusal :=
  executeImplied Instr.nop.entry 1 (fun s => .ok s) s

/-- R302 to R307, R311: PC moves by the declared size, 2 cycles, no data access. -/
def execNopStar (opcode : Byte) (form : NopForm) (s : State) : Host.Outcome State Fault Refusal :=
  executeImplied (Instr.nopStar opcode form).entry form.size (fun s => .ok s) s

/-- R308: one byte, 2 cycles, nothing else. -/
def execUnd (opcode : Byte) (s : State) : Host.Outcome State Fault Refusal :=
  executeImplied (Instr.und opcode).entry 1 (fun s => .ok s) s

end Sys2Proof.Machine
end

