-- ==== Sys2Proof/Machine/Transfer.lean ====
section
/-! DEFINITION. Loads, stores and register transfers (40_load_store_transfer.md). -/

namespace Sys2Proof.Machine

/-- R170. -/
def execLda (m : Operand) (s : State) : Host.Outcome State Fault Refusal :=
  executeRead (ldaEntry m) m (fun v s => (s.setA v).setP (s.cpu.p.setZS v)) s

/-- R171. -/
def execLdx (m : Operand) (s : State) : Host.Outcome State Fault Refusal :=
  executeRead (ldxEntry m) m (fun v s => (s.setX v).setP (s.cpu.p.setZS v)) s

/-- R172. -/
def execLdy (m : Operand) (s : State) : Host.Outcome State Fault Refusal :=
  executeRead (ldyEntry m) m (fun v s => (s.setY v).setP (s.cpu.p.setZS v)) s

/-- R173. -/
def execSta (m : Operand) (s : State) : Host.Outcome State Fault Refusal :=
  executeStore (staEntry m) m (fun s => s.cpu.a) s

/-- R174. -/
def execStx (m : Operand) (s : State) : Host.Outcome State Fault Refusal :=
  executeStore (stxEntry m) m (fun s => s.cpu.x) s

/-- R175. -/
def execSty (m : Operand) (s : State) : Host.Outcome State Fault Refusal :=
  executeStore (styEntry m) m (fun s => s.cpu.y) s

/-- R176. -/
def execTax (s : State) : Host.Outcome State Fault Refusal :=
  executeImplied Instr.tax.entry 1 (fun s => .ok ((s.setX s.cpu.a).setP (s.cpu.p.setZS s.cpu.a))) s

/-- R177. -/
def execTay (s : State) : Host.Outcome State Fault Refusal :=
  executeImplied Instr.tay.entry 1 (fun s => .ok ((s.setY s.cpu.a).setP (s.cpu.p.setZS s.cpu.a))) s

/-- R178. -/
def execTxa (s : State) : Host.Outcome State Fault Refusal :=
  executeImplied Instr.txa.entry 1 (fun s => .ok ((s.setA s.cpu.x).setP (s.cpu.p.setZS s.cpu.x))) s

/-- R179. -/
def execTya (s : State) : Host.Outcome State Fault Refusal :=
  executeImplied Instr.tya.entry 1 (fun s => .ok ((s.setA s.cpu.y).setP (s.cpu.p.setZS s.cpu.y))) s

/-- R180. -/
def execTsx (s : State) : Host.Outcome State Fault Refusal :=
  executeImplied Instr.tsx.entry 1 (fun s => .ok ((s.setX s.cpu.sp).setP (s.cpu.p.setZS s.cpu.sp))) s

/-- R181: the only transfer that sets no flag. -/
def execTxs (s : State) : Host.Outcome State Fault Refusal :=
  executeImplied Instr.txs.entry 1 (fun s => .ok (s.setSp s.cpu.x)) s

end Sys2Proof.Machine
end

