-- ==== Sys2Proof/Machine/Cartridge.lean ====
section
/-! DEFINITION. Building the cartridge from an iNES image (20_memory.md R118 to R122). -/

namespace Sys2Proof.Machine

/-- Why an image builds no machine (R119, R413). -/
inductive CartError where
  /-- The image is shorter than its header and payload. -/
  | tooShort
  /-- Bytes 0-3 are not the iNES magic. -/
  | badMagic
  /-- The mapper number is not 0. -/
  | badMapper
  /-- The PRG size is neither 1 nor 2 units. -/
  | badPrgSize
  /-- The CHR size is neither 0 nor 1 unit. -/
  | badChrSize
deriving DecidableEq, Repr

/-- R118: the bytes "N", "E", "S", 0x1A. -/
def inesMagic : List Byte := [0x4E, 0x45, 0x53, 0x1A]

/-- R118: the mapper number, byte 7's high nibble above byte 6's. -/
def mapperNumber (byte6 byte7 : Byte) : Byte := byte7.extractLsb' 4 4 ++ byte6.extractLsb' 4 4

/-- R118: the length of the header. -/
def headerBytes : Nat := 16

/-- R120: the trainer before the payload, present when byte 6 bit 2 is 1. -/
def trainerBytes (byte6 : Byte) : Nat := if byte6.getLsbD 2 then 512 else 0

/-- R118 to R122: the cartridge of an image, or why there is none. The trainer is skipped; CHR size 0 means CHR RAM;
work RAM starts at 0x00 (R55). -/
def buildCartridge (image : List Byte) : Except CartError Cartridge :=
  let byte6 := image.getD 6 0
  let byte7 := image.getD 7 0
  let prgUnits := (image.getD 4 0).toNat
  let chrUnits := (image.getD 5 0).toNat
  let prgStart := headerBytes + trainerBytes byte6
  let chrStart := prgStart + 16384 * prgUnits
  if image.length < headerBytes then .error .tooShort
  else if image.take 4 ≠ inesMagic then .error .badMagic
  else if mapperNumber byte6 byte7 ≠ 0 then .error .badMapper
  else if prgUnits ≠ 1 ∧ prgUnits ≠ 2 then .error .badPrgSize
  else if 1 < chrUnits then .error .badChrSize
  else if image.length < chrStart + 8192 * chrUnits then .error .tooShort
  else .ok
    { prg := Memory.ofBytes ((image.drop prgStart).take (16384 * prgUnits))
      prgSize := if prgUnits = 1 then .k16 else .k32
      chr := Memory.ofBytes ((image.drop chrStart).take (8192 * chrUnits))
      chrIsRam := decide (chrUnits = 0)
      wram := []
      mirroring := if byte6.getLsbD 0 then .vertical else .horizontal
      header :=
        { persistentRam := byte6.getLsbD 1
          ignoreMirroring := byte6.getLsbD 3
          vsUnisystem := byte7.getLsbD 0
          prgRamUnits := image.getD 8 0 } }

end Sys2Proof.Machine
end

