-- ==== Sys2Proof/Machine/HostOps.lean ====
section
/-! DEFINITION. The host's operations on the core (70_reset_and_hazards.md R450, R451, R470; 60_exceptions.md R401,
R402, R420; 50_ppu.md R361). -/

namespace Sys2Proof.Machine

/-- R401: `request_nmi()`. -/
def requestNmi (s : State) : State := s.setPending (some .nmi)

/-- R402: `request_irq()`: dropped when I is set, and a request already queued stays. -/
def requestIrq (s : State) : State :=
  if s.cpu.p.i then s
  else match s.cpu.pending with
    | none => s.setPending (some .irq)
    | some _ => s

/-- R450, R451: `read16(0xFFFC)`. The vector lies in PRG ROM (R117), so the reads neither fault nor change anything. -/
def State.resetTarget (s : State) : Addr :=
  leWord (s.cart.prgByte 0x7FFC) (s.cart.prgByte 0x7FFD)

/-- R55: the cartridge after power-up: work RAM is cleared, and CHR when it is RAM. -/
def Cartridge.powerUp (c : Cartridge) : Cartridge :=
  { c with wram := [], chr := if c.chrIsRam then [] else c.chr }

/-- R450: `power_up()`. The cartridge's images, the access mode and the host's inputs are no state of the machine
(R58), so they stay (log entry 11). -/
def powerUp (s : State) : State :=
  { s with
    cpu := Cpu.powerUp s.resetTarget
    ram := []
    ppu := Ppu.powerUp
    cart := s.cart.powerUp
    ctrl := Controllers.powerUp
    fault := none }

/-- R451: `reset()`. -/
def pressReset (s : State) : State :=
  ((s.setPc s.resetTarget).setSp 0xFD).setP { s.cpu.p with i := true }

/-- R420: the host replaces its button snapshots. -/
def setPads (pad1 pad2 : Buttons) (s : State) : State := { s with pad1 := pad1, pad2 := pad2 }

/-- R470: one host operation. -/
def HostOp.apply (op : HostOp) (s : State) : State :=
  match op with
  | .powerUp => Sys2Proof.Machine.powerUp s
  | .reset => pressReset s
  | .setPads p q => Sys2Proof.Machine.setPads p q s
  | .requestIrq => Sys2Proof.Machine.requestIrq s
  | .requestNmi => Sys2Proof.Machine.requestNmi s

/-- R470, log entry 3: the operations due before the next master tick, in order; they leave the list. -/
def applyInputs (s : State) : State :=
  match s.inputs with
  | [] => s
  | ops :: rest => ops.foldl (fun s op => op.apply s) { s with inputs := rest }

/-- R470: build a machine from an image and power it up; a refused image yields no machine (R119). -/
def boot (mode : AccessMode) (image : List Byte) : Except CartError State :=
  match buildCartridge image with
  | .error e => .error e
  | .ok c => .ok (powerUp { State.reset with cart := c, accessMode := mode })

/-- R361: a framebuffer entry, a 6-bit master-palette index. -/
def State.frameBuffer (s : State) (y x : Nat) : BitVec 6 := Cells.read s.ppu.framebuffer (y * 256 + x)

end Sys2Proof.Machine
end

