-- ==== Sys2Proof/Machine/Tick.lean ====
section
/-! DEFINITION. Fetching an instruction (30_encoding.md R130 to R132, R160) and the ticks of the machine
(70_reset_and_hazards.md R454, R455; 50_ppu.md R341). -/

namespace Sys2Proof.Machine

/-- R412: a fault with a change of the state it keeps. -/
def Fault.mapKept (f : State → State) : Fault → Fault
  | .access reason kept => .access reason (f kept)

/-- R135, R160: the immediate byte is read by the action, so a fault of that read keeps a state in which PC has moved
past the instruction and its base cycles are charged (log entry 8). -/
def readImmediate (i : Instr) (s : State) : Except Fault (Byte × State) :=
  match read8 (s.cpu.pc + 1) s with
  | .ok r => .ok r
  | .error f =>
    .error (f.mapKept fun k => (k.advancePc i.size).charge (match i.entry with | some e => e.cycles | none => 0))

/-- R160: the opcode fetch and the operand bytes its mode reads, each through `read8` at the address after the one
before (R115, R132, R161); then the instruction those bytes stand for. PC still holds the opcode's address. -/
def fetch (s : State) : Except Fault (Instr × State) :=
  match read8 s.cpu.pc s with
  | .error f => .error f
  | .ok (b0, s) =>
    let i := decode3 b0 0 0
    match i.fetch with
    | .nothing => .ok (i, s)
    | .immediate =>
      match readImmediate i s with
      | .error f => .error f
      | .ok (b1, s) => .ok (decode3 b0 b1 0, s)
    | .op8 =>
      match read8 (s.cpu.pc + 1) s with
      | .error f => .error f
      | .ok (b1, s) => .ok (decode3 b0 b1 0, s)
    | .op16 =>
      match read16 (s.cpu.pc + 1) s with
      | .error f => .error f
      | .ok (w, s) => .ok (decode3 b0 (loByte w) (hiByte w), s)

/-- R454: the countdown to the next boundary is what the boundary charged. -/
def State.schedule (s : State) (c0 : BitVec 64) : State := s.setRemaining (s.cpu.cycles - c0).toNat

/-- R160 `Execute`: fetch, then the instruction's meaning. -/
def runInstruction (s : State) : Host.Outcome State Fault Refusal :=
  match fetch s with
  | .error f => .fault f
  | .ok (i, s) => exec i s

/-- R404, R454: an instruction boundary: a queued interrupt is serviced, otherwise one instruction runs. -/
def boundary (s : State) : Host.Outcome State Fault Refusal :=
  match s.cpu.pending with
  | some kind => answer (serviceInterrupt kind s)
  | none => runInstruction s

/-- R454: the CPU tick. -/
def cpuTick (s : State) : Host.Outcome State Fault Refusal :=
  let s := s.setRemaining (s.cpu.remaining - 1)
  if s.cpu.remaining = 0 then
    match boundary s with
    | .next s' => .next (s'.schedule s.cpu.cycles)
    | .fault f => .fault f
    | .refused r => .refused r
  else .next s

/-- R341: the PPU tick; the NMI it may post goes to the CPU's queue (R358, R401). -/
def ppuTick (s : State) : State :=
  let s' := s.setPpu (s.ppu.tick s.cart)
  if s.ppu.postsNmi then requestNmi s' else s'

/-- R455: the master tick of a machine that has not faulted. -/
def masterTick (s : State) : Host.Outcome State Fault Refusal :=
  match cpuTick s with
  | .next s' => .next (ppuTick (ppuTick (ppuTick s')))
  | .fault f => .fault f
  | .refused r => .refused r

/-- R412, R455, R470: one step. A faulted machine stays as it is; otherwise the host operations due now are applied,
then one master tick. -/
def stepMachine (s : State) : Host.Outcome State Fault Refusal :=
  match s.fault with
  | some reason => .fault (.access reason s)
  | none => masterTick (applyInputs s)

/-- The address `withFetchWord` stores an instruction at: PC, or 0x0000 when the longest instruction at PC would not lie
in plain memory (log entry 13). -/
def loadAddr (s : State) : Addr :=
  if plainMemory s.cpu.pc && plainMemory (s.cpu.pc + 1) && plainMemory (s.cpu.pc + 2) then s.cpu.pc else 0x0000

/-- Store bytes at an address and the ones after it. -/
def loadBytes : List Byte → Addr → State → State
  | [], _, s => s
  | b :: rest, a, s => loadBytes rest (a + 1) (s.load a b)

/-- Make the next step an instruction boundary with nothing else to do: no fault, no queued interrupt, no countdown,
and no host operation before it. -/
def readyToFetch (s : State) : State :=
  let s := (s.setPending none).setRemaining 0
  { s with
    fault := none
    inputs := match s.inputs with
      | [] => []
      | later => [] :: later }

/-- The state in which the next step fetches and runs the instruction of these bytes. -/
def placeInstruction (bytes : List Byte) (s : State) : State :=
  let s := readyToFetch s
  loadBytes bytes (loadAddr s) (s.setPc (loadAddr s))

end Sys2Proof.Machine
end

