-- ==== Sys2Proof/Machine/Step.lean ====
section
/-! DEFINITION. The step of the machine: the host's operations due now, then one master tick (70_reset_and_hazards.md
R455, R470). -/

namespace Sys2Proof.Machine

/-- One step. -/
def step (s : State) : Host.Outcome State Fault Refusal := stepMachine s

/-- `s` with the instruction of `w` (numbered as spec/opcode_table.json numbers it) where `step` fetches its next one,
so that `step` runs exactly it (log entry 13). -/
def State.withFetchWord (s : State) (nbits w : Nat) : State := placeInstruction (tableBytes nbits w) s

end Sys2Proof.Machine
end

