-- ==== Sys2Proof/Machine/Run.lean ====
section
/-! DEFINITION. Runs of the machine, with the observation points of 70_reset_and_hazards.md R469: after a number of
master ticks, and right after the CPU tick of a boundary. -/

namespace Sys2Proof.Machine

/-- `n` steps, or the first fault among them. -/
def steps : Nat → State → Host.Outcome State Fault Refusal
  | 0, s => .next s
  | n + 1, s =>
    match step s with
    | .next t => steps n t
    | .fault f => .fault f
    | .refused r => .refused r

/-- R454: the next master tick is a boundary, once the host operations due before it are applied. -/
def atBoundary (s : State) : Bool := decide ((applyInputs s).cpu.remaining ≤ 1)

/-- R454: how many of the next `n` master ticks are boundaries. -/
def boundariesIn : Nat → State → Nat
  | 0, _ => 0
  | n + 1, s =>
    (atBoundary s).toNat +
      match step s with
      | .next t => boundariesIn n t
      | .fault _ => 0
      | .refused _ => 0

/-- The part of a step before its PPU ticks: the host operations due now and the CPU tick (R455). -/
def cpuHalf (s : State) : Host.Outcome State Fault Refusal :=
  match s.fault with
  | some reason => .fault (.access reason s)
  | none => cpuTick (applyInputs s)

/-- R469: a machine under observation. -/
structure Run where
  /-- The machine. -/
  machine : State
  /-- The run has stopped after the CPU tick of a master tick: that tick's three PPU ticks are still to come. -/
  midTick : Bool
  /-- The number of completed master ticks. -/
  ticks : Nat
deriving DecidableEq, Repr

/-- A run that starts at a machine. -/
def Run.start (s : State) : Run := { machine := s, midTick := false, ticks := 0 }

/-- R469: a run that continues first performs the three PPU ticks of an interrupted master tick, and not its CPU tick
again. -/
def Run.resume (r : Run) : Run :=
  if r.midTick then { machine := ppuTick (ppuTick (ppuTick r.machine)), midTick := false, ticks := r.ticks + 1 } else r

/-- The run after a whole master tick. -/
def Run.tickOnce (r : Run) : Host.Outcome Run Fault Refusal :=
  match step r.machine with
  | .next s => .next { machine := s, midTick := false, ticks := r.ticks + 1 }
  | .fault f => .fault f
  | .refused e => .refused e

/-- The run stopped in the next master tick, right after its CPU tick; the interrupted tick is not counted. -/
def Run.stopMidTick (r : Run) : Host.Outcome Run Fault Refusal :=
  match cpuHalf r.machine with
  | .next s => .next { machine := s, midTick := true, ticks := r.ticks }
  | .fault f => .fault f
  | .refused e => .refused e

/-- R469: `MasterTick()` on a run. -/
def Run.masterTick (r : Run) : Host.Outcome Run Fault Refusal := r.resume.tickOnce

/-- Whole master ticks until the next one is a boundary, then its CPU tick. The first argument bounds the whole ticks;
`remaining` is enough, for each of them counts it down and no host operation raises it (R454). -/
def Run.toBoundary : Nat → Run → Host.Outcome Run Fault Refusal
  | 0, r => r.stopMidTick
  | n + 1, r =>
    if atBoundary r.machine then r.stopMidTick
    else
      match r.tickOnce with
      | .next r => Run.toBoundary n r
      | .fault f => .fault f
      | .refused e => .refused e

/-- R469: `RunInstr(k)`. -/
def Run.runInstr : Nat → Run → Host.Outcome Run Fault Refusal
  | 0, r => .next r
  | k + 1, r =>
    match Run.toBoundary r.resume.machine.cpu.remaining r.resume with
    | .next r => Run.runInstr k r
    | .fault f => .fault f
    | .refused e => .refused e

end Sys2Proof.Machine
end

