-- ==== Sys2Proof/Safety.lean ====
section
/-! DEFINITION. The terms claims are stated in: the effective address and cost of an operand form, written from the spec
without a bus access; the invariants of the machine; and the dot position of the PPU. -/

namespace Sys2Proof.Machine

/-! ### Operands -/

/-- The byte of RAM at a zero-page address (R83). -/
def zeroByte (s : State) (o : Byte) : Byte := Cells.read s.ram o.toNat

/-- R96 with a zero-page pointer: both bytes lie in page 0. -/
def zeroWord (s : State) (o : Byte) : Addr := leWord (zeroByte s o) (zeroByte s (o + 1))

/-- R136 to R144: the effective address of a data operand; none for the accumulator, an immediate byte and JMP's
indirect form. -/
def effAddr (m : Operand) (s : State) : Option Addr :=
  match m with
  | .acc | .imm _ | .ind _ => none
  | .zp o => some (o.setWidth 16)
  | .zpx o => some ((o + s.cpu.x).setWidth 16)
  | .zpy o => some ((o + s.cpu.y).setWidth 16)
  | .abs w => some w
  | .absx w => some (w + s.cpu.x.setWidth 16)
  | .absy w => some (w + s.cpu.y.setWidth 16)
  | .indx o => some (zeroWord s (o + s.cpu.x))
  | .indy o => some (zeroWord s o + s.cpu.y.setWidth 16)

/-- R140, R141, R144: the form reports a page crossing. -/
def pageCrossed (m : Operand) (s : State) : Bool :=
  match m with
  | .absx w => hiByte w != hiByte (w + s.cpu.x.setWidth 16)
  | .absy w => hiByte w != hiByte (w + s.cpu.y.setWidth 16)
  | .indy o => hiByte (zeroWord s o) != hiByte (zeroWord s o + s.cpu.y.setWidth 16)
  | _ => false

/-- The "Encoding" lines of R170 to R172 and R200 to R208: the cycles of an instruction that reads its operand. -/
def readCost (m : Operand) (s : State) : Nat :=
  match m with
  | .imm _ => 2
  | .zp _ => 3
  | .zpx _ | .zpy _ | .abs _ => 4
  | .absx _ | .absy _ => if pageCrossed m s then 5 else 4
  | .indx _ => 6
  | .indy _ => if pageCrossed m s then 6 else 5
  | .acc | .ind _ => 0

/-- The "Encoding" lines of R173 to R175: the cycles of a store before any DMA stall. -/
def storeCost (m : Operand) : Nat :=
  match m with
  | .zp _ => 3
  | .zpx _ | .zpy _ | .abs _ => 4
  | .absx _ | .absy _ => 5
  | .indx _ | .indy _ => 6
  | .acc | .imm _ | .ind _ => 0

/-- The "Encoding" lines of R230 to R235: the cycles of an instruction that reads and writes its operand. -/
def modifyCost (m : Operand) : Nat :=
  match m with
  | .acc => 2
  | .zp _ => 5
  | .zpx _ | .abs _ => 6
  | .absx _ => 7
  | _ => 0

/-- R158: the operand's value and the state after reading it: the immediate byte, or a bus read at the effective
address. The accumulator and JMP's indirect form are no operands of an instruction that only reads. -/
def operandRead (m : Operand) (s : State) : Except Fault (Byte × State) :=
  match m with
  | .imm v => .ok (v, s)
  | _ =>
    match effAddr m s with
    | some a => read8 a s
    | none => .ok (s.cpu.a, s)

/-- R160: PC moved past `size` bytes and `cost` cycles charged. -/
def State.moved (s : State) (size cost : Nat) : State :=
  { s with
    cpu :=
      { s.cpu with pc := s.cpu.pc + BitVec.ofNat 16 size, cycles := s.cpu.cycles + BitVec.ofNat 64 cost } }

/-- R157: Z and S of a byte, the other flags as they are. -/
def Status.withZS (p : Status) (v : Byte) : Status := { p with z := decide (v = 0), s := v.getLsbD 7 }

/-- The shape of an instruction that reads its operand and then changes registers or flags (R158, R160): when the read
completes, `exec` answers the state the read leaves, with the CPU `after v` whose PC has moved past the instruction and
whose cost is charged; when the read faults, the machine stops with PC moved and the cost charged (R412). -/
def ReadsOperand (i : Instr) (m : Operand) (s : State) (after : Byte → Cpu) : Prop :=
  i.wellFormed = true →
    (∀ (v : Byte) (s' : State), operandRead m s = .ok (v, s') →
      exec i s =
        .next
          { s' with
            cpu :=
              { after v with
                pc := s.cpu.pc + BitVec.ofNat 16 m.size
                cycles := s.cpu.cycles + BitVec.ofNat 64 (readCost m s) } }) ∧
    (∀ f : Fault, operandRead m s = .error f →
      exec i s = .fault (f.mapKept fun k => k.moved m.size (readCost m s)))

/-- The shape of a store (R173 to R175): one bus write of `v` at the effective address, after PC has moved and the cost
is charged; nothing is read there. -/
def StoresRegister (i : Instr) (m : Operand) (s : State) (v : Byte) : Prop :=
  i.wellFormed = true →
    ∃ ea : Addr, effAddr m s = some ea ∧
      (∀ t : State, write8 ea v (s.moved m.size (storeCost m)) = .ok t → exec i s = .next t) ∧
      (∀ f : Fault, write8 ea v (s.moved m.size (storeCost m)) = .error f → exec i s = .fault f)

/-- The shape of an instruction that reads its memory operand once and writes it once (R240): `result` is the byte
written at the same address, `flags` the flags at the write; Z and S of the result come after it. -/
def ModifiesMemory (i : Instr) (m : Operand) (s : State) (result : Byte → Byte) (flags : Byte → Status) : Prop :=
  i.wellFormed = true →
    ∀ ea : Addr, effAddr m s = some ea →
      (∀ (v : Byte) (s' : State), read8 ea s = .ok (v, s') →
        (∀ t : State,
          write8 ea (result v) { s'.moved m.size (modifyCost m) with
              cpu := { (s'.moved m.size (modifyCost m)).cpu with p := flags v } } = .ok t →
            exec i s = .next { t with cpu := { t.cpu with p := t.cpu.p.withZS (result v) } }) ∧
        (∀ f : Fault,
          write8 ea (result v) { s'.moved m.size (modifyCost m) with
              cpu := { (s'.moved m.size (modifyCost m)).cpu with p := flags v } } = .error f →
            exec i s = .fault f)) ∧
      (∀ f : Fault, read8 ea s = .error f →
        exec i s = .fault (f.mapKept fun k => k.moved m.size (modifyCost m)))

/-- R132: how many bytes of the instruction the CPU reads. The padding byte of BRK and the immediate byte of `NOP*` are
not among them (log entry 7). -/
def bytesRead (i : Instr) : Nat :=
  match i.fetch with
  | .nothing => 1
  | .immediate | .op8 => 2
  | .op16 => 3

/-- R84: a CPU address of PPU register 0x2000 + r. -/
def IsPort (r : Nat) (a : Addr) : Prop := 0x2000 ≤ a.toNat ∧ a.toNat ≤ 0x3FFF ∧ a.toNat % 8 = r

/-! ### Invariants -/

/-- Every storage is in canonical form and within its size (R40 to R43, R54, R55). -/
structure StorageInv (s : State) : Prop where
  ram : Cells.wf s.ram = true ∧ Cells.below 0x800 s.ram = true
  nt : Cells.wf s.ppu.nt = true ∧ Cells.below 0x800 s.ppu.nt = true
  pal : Cells.wf s.ppu.pal = true ∧ Cells.below 0x20 s.ppu.pal = true
  oam : Cells.wf s.ppu.oam = true ∧ Cells.below 0x100 s.ppu.oam = true
  framebuffer : Cells.wf s.ppu.framebuffer = true ∧ Cells.below (256 * 240) s.ppu.framebuffer = true
  prg : Cells.wf s.cart.prg = true ∧ Cells.below s.cart.prgSize.bytes s.cart.prg = true
  chr : Cells.wf s.cart.chr = true ∧ Cells.below 0x2000 s.cart.chr = true
  wram : Cells.wf s.cart.wram = true ∧ Cells.below 0x2000 s.cart.wram = true

/-- Every counter and latch is in its range (R47, R52, R53, R56). -/
structure CounterInv (s : State) : Prop where
  cycle : s.ppu.cycle ≤ 340
  scanline : s.ppu.scanline ≤ 261
  nmiDelay : s.ppu.nmiDelay ≤ 15
  atBits : s.ppu.atBits &&& 0xF3 = 0
  index1 : s.ctrl.index1 ≤ 8
  index2 : s.ctrl.index2 ≤ 8

/-! ### Power-up -/

/-- The values 10_state.md and R450 give a machine powered up with the cartridge `c` (decisions D2, D3, D16; log entry
9 for the storages), each written out. -/
structure PoweredUp (c : Cartridge) (t : State) : Prop where
  registers : t.cpu.a = 0x00 ∧ t.cpu.x = 0x00 ∧ t.cpu.y = 0x00 ∧ t.cpu.sp = 0xFD
  status : t.cpu.p.reg = 0x34
  pc : t.cpu.pc = Cells.read c.prg (0x7FFD % c.prgSize.bytes) ++ Cells.read c.prg (0x7FFC % c.prgSize.bytes)
  cpuCounters : t.cpu.cycles = 7 ∧ t.cpu.pending = none ∧ t.cpu.remaining = 0
  fault : t.fault = none
  memories : ∀ i : Nat, Cells.read t.ram i = 0x00 ∧ Cells.read t.cart.wram i = 0x00
  chrRam : c.chrIsRam = true → ∀ i : Nat, Cells.read t.cart.chr i = 0x00
  ppuStorages : ∀ i : Nat, Cells.read t.ppu.nt i = 0x00 ∧ Cells.read t.ppu.pal i = 0x00 ∧
    Cells.read t.ppu.oam i = 0x00 ∧ Cells.read t.ppu.framebuffer i = 0
  ppuAddresses : t.ppu.oamAddr = 0x00 ∧ t.ppu.v = 0 ∧ t.ppu.t = 0 ∧ t.ppu.fineX = 0 ∧ t.ppu.w = false ∧
    t.ppu.readBuffer = 0x00
  fetchLatches : t.ppu.ntByte = 0x00 ∧ t.ppu.atBits = 0x00 ∧ t.ppu.ptLow = 0x00 ∧ t.ppu.ptHigh = 0x00 ∧
    t.ppu.pipe = 0
  ppuStatus : t.ppu.spriteOverflow = false ∧ t.ppu.sprite0Hit = false ∧ t.ppu.vblank = false
  ppuCtrl : t.ppu.inc32 = false ∧ t.ppu.sprTable = false ∧ t.ppu.bgTable = false ∧ t.ppu.sprSize16 = false ∧
    t.ppu.ext = false ∧ t.ppu.nmiEnable = false
  ppuMask : t.ppu.greyscale = false ∧ t.ppu.showLeftBg = false ∧ t.ppu.showLeftSpr = false ∧ t.ppu.showBg = false ∧
    t.ppu.showSpr = false ∧ t.ppu.emphasis = 0
  ppuCounters : t.ppu.cycle = 0 ∧ t.ppu.scanline = 0 ∧ t.ppu.frame = 0 ∧ t.ppu.nmiDelay = 0
  controllers : t.ctrl.strobe = false ∧ t.ctrl.index1 = 0 ∧ t.ctrl.index2 = 0
  buttons : ∀ b : Buttons, b = t.ctrl.buttons1 ∨ b = t.ctrl.buttons2 →
    [b.a, b.b, b.select, b.start, b.up, b.down, b.left, b.right] = List.replicate 8 false
  images : t.cart.prg = c.prg ∧ t.cart.prgSize = c.prgSize ∧ t.cart.mirroring = c.mirroring ∧
    t.cart.header = c.header ∧ t.cart.chrIsRam = c.chrIsRam ∧ (c.chrIsRam = false → t.cart.chr = c.chr)

/-! ### Dots -/

/-- R341, R364: the place of the PPU's last dot in its frame. -/
def dotIndex (p : Ppu) : Nat := 341 * p.scanline + p.cycle

/-- R364: the dots of a frame. -/
def dotsPerFrame : Nat := 89342

end Sys2Proof.Machine
end

