-- ==== Sys2Proof/Certificates/Slice0/Obligations.lean ====
section
/-! DEFINITION. The statements for the provers. Each docstring names the rules of spec/ it formalises, and the choice of
the spec or of the model it rests on where there is one. -/

open Sys2Proof Sys2Proof.Machine

/-! ### Encoding -/

/-- R130, R147, R148: the bytes of every well-formed instruction, followed by any bytes, decode to that instruction and
leave the others. The padding bytes that encode writes 0x00 are log entry 7's. -/
def Obligations.DecodeEncode : Prop :=
  ∀ (i : Instr) (rest : List Byte), i.wellFormed = true → decode (encode i ++ rest) = .ok (i, rest)

/-- R147: every byte decodes. Any three bytes start with a well-formed instruction whose row has the first byte as its
opcode; its bytes are the ones given, but for BRK's padding and the skipped byte of `NOP*` immediate (log entry 7). -/
def Obligations.EveryOpcodeDecodes : Prop :=
  ∀ b0 b1 b2 : Byte, ∃ (i : Instr) (rest : List Byte),
    decode [b0, b1, b2] = .ok (i, rest) ∧ i.wellFormed = true ∧ rest = [b0, b1, b2].drop i.size ∧
      (encode i).head? = some b0 ∧
      (i ≠ .brk → (∀ op : Byte, i ≠ .nopStar op .imm) → encode i ++ rest = [b0, b1, b2])

/-- R130, R147: words of the opcode table, written out from its rows, one or more for each file of instructions. -/
def Obligations.SampleWordsDecode : Prop :=
  decode [0xA9, 0x80] = .ok (.lda (.imm 0x80), []) ∧
  decode [0x8D, 0x00, 0x02] = .ok (.sta (.abs 0x0200), []) ∧
  decode [0xB6, 0x10] = .ok (.ldx (.zpy 0x10), []) ∧
  decode [0x9A] = .ok (.txs, []) ∧
  decode [0x71, 0x20] = .ok (.adc (.indy 0x20), []) ∧
  decode [0xE1, 0x20] = .ok (.sbc (.indx 0x20), []) ∧
  decode [0x2C, 0x02, 0x20] = .ok (.bit (.abs 0x2002), []) ∧
  decode [0x2A] = .ok (.rol .acc, []) ∧
  decode [0xFE, 0x34, 0x12] = .ok (.inc (.absx 0x1234), []) ∧
  decode [0xF0, 0xFE] = .ok (.beq 0xFE, []) ∧
  decode [0x6C, 0xFF, 0x60] = .ok (.jmp (.ind 0x60FF), []) ∧
  decode [0x20, 0x00, 0xC1] = .ok (.jsr 0xC100, []) ∧
  decode [0x00, 0x00] = .ok (.brk, []) ∧
  decode [0x28] = .ok (.plp, []) ∧
  decode [0xEA] = .ok (.nop, []) ∧
  decode [0x1C, 0xFF, 0x12] = .ok (.nopStar 0x1C (.absx 0x12FF), []) ∧
  decode [0xEB] = .ok (.und 0xEB, [])

/-! ### The step -/

/-- R160, R454, R455: at an instruction boundary with no interrupt queued, when the bytes at PC that the CPU reads lie in
plain memory and decode to `i`, the step is `exec i`, then the countdown is what the instruction charged, then three PPU
ticks. `u` is the machine after the host operations due now (log entry 10). -/
def Obligations.StepRunsDecodedInstruction : Prop :=
  ∀ (s u : State) (i : Instr) (bytes : List Byte), s.fault = none → applyInputs s = u → u.cpu.pending = none →
    u.cpu.remaining ≤ 1 → decode bytes = .ok (i, []) →
    (∀ k : Nat, k < bytesRead i → u.peek (u.cpu.pc + BitVec.ofNat 16 k) = bytes[k]?) →
    step s =
      match exec i (u.setRemaining 0) with
      | .next t => .next (ppuTick (ppuTick (ppuTick (t.setRemaining (t.cpu.cycles - u.cpu.cycles).toNat))))
      | .fault f => .fault f
      | .refused r => .refused r

/-- R454, R455: between two boundaries a step counts the remaining ticks down by one and ticks the PPU three times; no
instruction runs and no interrupt is taken. R469 (decision D49; log entry 10): `RunInstr(k + 1)` answers exactly the
machine right after the CPU tick of the boundary that has k boundaries before it, with the count of the master ticks
completed before it; it then resumes with that tick's three PPU ticks, on the trajectory of the steps, and meets the
invariant of R459 one tick ahead of its count. -/
def Obligations.CountdownAndRunInstr : Prop :=
  (∀ s u : State, s.fault = none → applyInputs s = u → 2 ≤ u.cpu.remaining →
    step s = .next (ppuTick (ppuTick (ppuTick (u.setRemaining (u.cpu.remaining - 1)))))) ∧
  (∀ (k : Nat) (r r' : Run),
    r.runInstr (k + 1) = .next r' ↔
      ∃ (n : Nat) (u t : State), steps n r.resume.machine = .next u ∧ boundariesIn n r.resume.machine = k ∧
        u.fault = none ∧ (applyInputs u).cpu.remaining ≤ 1 ∧ cpuTick (applyInputs u) = .next t ∧
        r' = { machine := t, midTick := true, ticks := r.resume.ticks + n }) ∧
  (∀ (k : Nat) (r r' : Run), r.runInstr (k + 1) = .next r' →
    steps (r'.ticks + 1 - r.resume.ticks) r.resume.machine = .next (ppuTick (ppuTick (ppuTick r'.machine))) ∧
    r'.masterTick =
      match step (ppuTick (ppuTick (ppuTick r'.machine))) with
      | .next t => .next { machine := t, midTick := false, ticks := r'.ticks + 2 }
      | .fault f => .fault f
      | .refused e => .refused e) ∧
  (∀ (k : Nat) (s : State) (r : Run), s.inputs = [] → s.cpu.remaining = 0 → (Run.start s).runInstr (k + 1) = .next r →
    r.machine.cpu.cycles =
      s.cpu.cycles + BitVec.ofNat 64 (r.ticks + 1) - 1 + BitVec.ofNat 64 r.machine.cpu.remaining)

/-- R404, R405, R406, R454: at a boundary with an interrupt queued the step takes it instead of an instruction: the
address of the next instruction and the status with bit 4 = 0 are pushed, I is set, PC comes from the vector, the queue is
emptied, 7 cycles are charged, and every byte outside the three slots is as before. -/
def Obligations.StepTakesInterrupt : Prop :=
  ∀ (s u : State) (k : Interrupt), s.fault = none → applyInputs s = u → u.cpu.pending = some k → u.cpu.remaining ≤ 1 →
    Cells.wf u.ram = true →
    ∃ t : State, step s = .next (ppuTick (ppuTick (ppuTick t))) ∧
      t = { u with ram := t.ram, cpu := t.cpu } ∧
      t.cpu =
        { u.cpu with
          sp := u.cpu.sp - 3
          p := { u.cpu.p with i := true }
          pc := match k with
            | .nmi => leWord (u.cart.prgByte 0x7FFA) (u.cart.prgByte 0x7FFB)
            | .irq => leWord (u.cart.prgByte 0x7FFE) (u.cart.prgByte 0x7FFF)
          cycles := u.cpu.cycles + 7
          pending := none
          remaining := 7 } ∧
      t.peek (stackAddr u.cpu.sp) = some (hiByte u.cpu.pc) ∧
      t.peek (stackAddr (u.cpu.sp - 1)) = some (loByte u.cpu.pc) ∧
      t.peek (stackAddr (u.cpu.sp - 2)) = some (u.cpu.p.image false) ∧
      (∀ b : Addr, target b ≠ target (stackAddr u.cpu.sp) → target b ≠ target (stackAddr (u.cpu.sp - 1)) →
        target b ≠ target (stackAddr (u.cpu.sp - 2)) → t.peek b = u.peek b)

/-- R409, R411, R412 (decisions D1, D49; log entries 5 and 6): a faulted machine takes no step. A step of a running
machine that faults names one of the four reasons at an address that R81 and R82 give that reason to, a mirror of a PPU
port among them, the state it keeps has that reason recorded, and but for the APU reads the machine is in `strict` mode.
-/
def Obligations.FaultReasons : Prop :=
  (∀ (s : State) (r : FaultReason), s.fault = some r → step s = .fault (.access r s)) ∧
  ∀ (s kept : State) (r : FaultReason), s.fault = none → step s = .fault (.access r kept) →
    kept.fault = some r ∧ kept.accessMode = s.accessMode ∧
    match r with
    | .apuRead a => 0x4000 ≤ a.toNat ∧ a.toNat ≤ 0x4013
    | .writeOnlyRead a =>
      s.accessMode = .strict ∧ (a = 0x4014 ∨ ∃ r : Nat, r ∈ [0, 1, 3, 5, 6] ∧ IsPort r a)
    | .readOnlyWrite a => s.accessMode = .strict ∧ IsPort 2 a
    | .unmapped a => s.accessMode = .strict ∧ 0x4020 ≤ a.toNat ∧ a.toNat ≤ 0x5FFF

/-- R147, R410, log entry 14: a term that is no row of the table is refused, a well-formed instruction never is, and no
step is refused. -/
def Obligations.OnlyIllFormedRefused : Prop :=
  (∀ (i : Instr) (s : State), i.wellFormed = false → exec i s = .refused .illFormed) ∧
  (∀ (i : Instr) (s : State) (r : Refusal), i.wellFormed = true → exec i s ≠ .refused r) ∧
  (∀ (s : State) (r : Refusal), step s ≠ .refused r)

/-- R30, R31, R33, R37 to R57, R450 (decisions D2, D3, D16; log entry 9 for the storages, log entry 11 for what stays):
powering up gives every register, flag, counter, latch and storage the value 10_state.md names, with PC from the reset
vector, and leaves the access mode, the pads and the inputs. R119, R470: `boot` is the powered-up machine of the
cartridge an image builds, and a refused image yields none. -/
def Obligations.PowerUpValues : Prop :=
  (∀ s : State, PoweredUp s.cart (powerUp s) ∧ (powerUp s).accessMode = s.accessMode ∧ (powerUp s).pad1 = s.pad1 ∧
    (powerUp s).pad2 = s.pad2 ∧ (powerUp s).inputs = s.inputs) ∧
  (∀ (mode : AccessMode) (image : List Byte),
    (∀ c : Cartridge, buildCartridge image = .ok c →
      ∃ t : State, boot mode image = .ok t ∧ PoweredUp c t ∧ t.accessMode = mode) ∧
    (∀ e : CartError, buildCartridge image = .error e → boot mode image = .error e))

/-- R118 to R121 (decision D39): which images build a cartridge, and what it holds: PRG after the header and the trainer,
CHR after PRG, CHR RAM when the image has no CHR, and the mirroring of header byte 6 bit 0. -/
def Obligations.CartridgeImage : Prop :=
  ∀ image : List Byte,
    let byte6 := image.getD 6 0
    let prgUnits := (image.getD 4 0).toNat
    let chrUnits := (image.getD 5 0).toNat
    let prgStart := if byte6.getLsbD 2 then 528 else 16
    let accepted := 16 ≤ image.length ∧ image.take 4 = [0x4E, 0x45, 0x53, 0x1A] ∧ byte6.extractLsb' 4 4 = 0 ∧
      (image.getD 7 0).extractLsb' 4 4 = 0 ∧ (prgUnits = 1 ∨ prgUnits = 2) ∧ chrUnits ≤ 1 ∧
      prgStart + 16384 * prgUnits + 8192 * chrUnits ≤ image.length
    (accepted → ∃ c : Cartridge, buildCartridge image = .ok c ∧ c.prgSize.bytes = 16384 * prgUnits ∧
      (∀ k : Nat, k < 16384 * prgUnits → Cells.read c.prg k = image.getD (prgStart + k) 0) ∧
      (∀ k : Nat, k < 8192 * chrUnits → Cells.read c.chr k = image.getD (prgStart + 16384 * prgUnits + k) 0) ∧
      c.chrIsRam = decide (chrUnits = 0) ∧ (chrUnits = 0 → c.chr = []) ∧ c.wram = [] ∧
      c.mirroring = (if byte6.getLsbD 0 then .vertical else .horizontal) ∧
      StorageInv (powerUp { State.reset with cart := c })) ∧
    (¬accepted → ∃ e : CartError, buildCartridge image = .error e)

/-- R451 (decision D40): the reset button loads PC from the reset vector, sets SP to 0xFD and I to 1, and changes nothing
else; `request_irq` is dropped while I is set and never replaces a queued request (R402, decision D12); `request_nmi` is
always queued (R401, decisions D11, D56). R420: the host's pads are replaced and nothing else; R450: `power_up()`. R470
(log entry 3): the operations due before a master tick apply in their order and leave the list, the first of them before
the others; none is due when the list is empty. -/
def Obligations.HostRequests : Prop :=
  ∀ s : State,
    (∃ pc : Addr, read16 0xFFFC#16 s = .ok (pc, s) ∧
      HostOp.reset.apply s = { s with cpu := { s.cpu with pc := pc, sp := 0xFD, p := { s.cpu.p with i := true } } }) ∧
    HostOp.requestNmi.apply s = { s with cpu := { s.cpu with pending := some .nmi } } ∧
    (s.cpu.p.i = true → HostOp.requestIrq.apply s = s) ∧
    (s.cpu.p.i = false → s.cpu.pending = none →
      HostOp.requestIrq.apply s = { s with cpu := { s.cpu with pending := some .irq } }) ∧
    (∀ k : Interrupt, s.cpu.pending = some k → HostOp.requestIrq.apply s = s) ∧
    (∀ p q : Buttons, (HostOp.setPads p q).apply s = { s with pad1 := p, pad2 := q }) ∧
    HostOp.powerUp.apply s = powerUp s ∧
    (s.inputs = [] → applyInputs s = s) ∧
    (∀ rest : List (List HostOp), s.inputs = [] :: rest → applyInputs s = { s with inputs := rest }) ∧
    (∀ (op : HostOp) (ops : List HostOp) (rest : List (List HostOp)), s.inputs = (op :: ops) :: rest →
      applyInputs s = applyInputs { op.apply s with inputs := ops :: rest })

/-! ### What every step keeps -/

/-- The canonical form of every storage and the ranges of every counter hold at reset. -/
def Obligations.ResetInvariants : Prop := StorageInv State.reset ∧ CounterInv State.reset

/-- R40 to R43, R54, R55, log entry 9: every step keeps every storage in its canonical form and within its size. -/
def Obligations.StepKeepsStorages : Prop :=
  ∀ s t : State, StorageInv s → step s = .next t → StorageInv t

/-- R47, R52, R53, R56: every step keeps the dot counters, the NMI delay, the attribute bits and the controller positions
in their ranges. -/
def Obligations.StepKeepsCounters : Prop :=
  ∀ s t : State, CounterInv s → step s = .next t → CounterInv t

/-- R93, R102, R55, R8, R360 (decision D30): no step changes the PRG image, the mirroring, the header, CHR ROM or the
access mode, sprite overflow is never set, and a step takes exactly the host operations due before it. -/
def Obligations.StepKeepsCartridge : Prop :=
  ∀ s t : State, step s = .next t →
    t.cart.prg = s.cart.prg ∧ t.cart.prgSize = s.cart.prgSize ∧ t.cart.mirroring = s.cart.mirroring ∧
      t.cart.header = s.cart.header ∧ t.cart.chrIsRam = s.cart.chrIsRam ∧
      (s.cart.chrIsRam = false → t.cart.chr = s.cart.chr) ∧ t.accessMode = s.accessMode ∧ t.fault = none ∧
      (s.ppu.spriteOverflow = false → t.ppu.spriteOverflow = false) ∧ t.inputs = s.inputs.tail

/-- R459: one step of the cycle-counter invariant. With no host operation due, the counter less the ticks still to come
grows by one from a state between boundaries, and stays when the machine has just been powered up; only a boundary
charges cycles. -/
def Obligations.CycleAccounting : Prop :=
  ∀ s t : State, s.inputs = [] → step s = .next t →
    (s.cpu.remaining ≠ 0 →
      t.cpu.cycles - BitVec.ofNat 64 t.cpu.remaining = s.cpu.cycles - BitVec.ofNat 64 s.cpu.remaining + 1) ∧
    (s.cpu.remaining = 0 → t.cpu.cycles - BitVec.ofNat 64 t.cpu.remaining = s.cpu.cycles) ∧
    (2 ≤ s.cpu.remaining → t.cpu.cycles = s.cpu.cycles)

/-- R454: every boundary that completes charges at least 2 cycles, so it is never followed by another in the next tick;
and it charges at most 521, the latency bound of R404. -/
def Obligations.BoundaryCost : Prop :=
  ∀ s t : State, boundary s = .next t →
    2 ≤ (t.cpu.cycles - s.cpu.cycles).toNat ∧ (t.cpu.cycles - s.cpu.cycles).toNat ≤ 521

/-! ### Loads, stores and transfers -/

/-- R170, R171, R172: a load puts the operand in its register and sets Z and S from it. -/
def Obligations.LoadInstructions : Prop :=
  ∀ (m : Operand) (s : State),
    ReadsOperand (.lda m) m s (fun v => { s.cpu with a := v, p := s.cpu.p.withZS v }) ∧
    ReadsOperand (.ldx m) m s (fun v => { s.cpu with x := v, p := s.cpu.p.withZS v }) ∧
    ReadsOperand (.ldy m) m s (fun v => { s.cpu with y := v, p := s.cpu.p.withZS v })

/-- R173, R174, R175: a store writes its register at the effective address and changes no flag. -/
def Obligations.StoreInstructions : Prop :=
  ∀ (m : Operand) (s : State),
    StoresRegister (.sta m) m s s.cpu.a ∧ StoresRegister (.stx m) m s s.cpu.x ∧ StoresRegister (.sty m) m s s.cpu.y

/-- R176 to R181, R236 to R239: register transfers, increments and decrements, modulo 256; all but TXS set Z and S from
the value, and nothing else changes but PC and the cycle counter. -/
def Obligations.RegisterInstructions : Prop :=
  ∀ s : State,
    exec .tax s = .next { s with cpu := { s.cpu with
      x := s.cpu.a, p := s.cpu.p.withZS s.cpu.a, pc := s.cpu.pc + 1, cycles := s.cpu.cycles + 2 } } ∧
    exec .tay s = .next { s with cpu := { s.cpu with
      y := s.cpu.a, p := s.cpu.p.withZS s.cpu.a, pc := s.cpu.pc + 1, cycles := s.cpu.cycles + 2 } } ∧
    exec .txa s = .next { s with cpu := { s.cpu with
      a := s.cpu.x, p := s.cpu.p.withZS s.cpu.x, pc := s.cpu.pc + 1, cycles := s.cpu.cycles + 2 } } ∧
    exec .tya s = .next { s with cpu := { s.cpu with
      a := s.cpu.y, p := s.cpu.p.withZS s.cpu.y, pc := s.cpu.pc + 1, cycles := s.cpu.cycles + 2 } } ∧
    exec .tsx s = .next { s with cpu := { s.cpu with
      x := s.cpu.sp, p := s.cpu.p.withZS s.cpu.sp, pc := s.cpu.pc + 1, cycles := s.cpu.cycles + 2 } } ∧
    exec .txs s = .next { s with cpu := { s.cpu with
      sp := s.cpu.x, pc := s.cpu.pc + 1, cycles := s.cpu.cycles + 2 } } ∧
    exec .inx s = .next { s with cpu := { s.cpu with
      x := s.cpu.x + 1, p := s.cpu.p.withZS (s.cpu.x + 1), pc := s.cpu.pc + 1, cycles := s.cpu.cycles + 2 } } ∧
    exec .iny s = .next { s with cpu := { s.cpu with
      y := s.cpu.y + 1, p := s.cpu.p.withZS (s.cpu.y + 1), pc := s.cpu.pc + 1, cycles := s.cpu.cycles + 2 } } ∧
    exec .dex s = .next { s with cpu := { s.cpu with
      x := s.cpu.x - 1, p := s.cpu.p.withZS (s.cpu.x - 1), pc := s.cpu.pc + 1, cycles := s.cpu.cycles + 2 } } ∧
    exec .dey s = .next { s with cpu := { s.cpu with
      y := s.cpu.y - 1, p := s.cpu.p.withZS (s.cpu.y - 1), pc := s.cpu.pc + 1, cycles := s.cpu.cycles + 2 } }

/-! ### Arithmetic and logic -/

/-- R200, R209 (decision D41): ADC. The sum of A, M and C as integers gives C (above 255), A (modulo 256) and, with the
signs of A and M, V; D is not consulted. PC, the cost and the state a fault keeps are R160's and R412's (decisions D5,
D49; log entries 5 and 8). -/
def Obligations.AddWithCarry : Prop :=
  ∀ (m : Operand) (s : State),
    ReadsOperand (.adc m) m s (fun v =>
      let sum := s.cpu.a.toNat + v.toNat + s.cpu.p.c.toNat
      let low := BitVec.ofNat 8 sum
      { s.cpu with
        a := low
        p := Status.withZS
          { s.cpu.p with
            c := decide (255 < sum)
            v := decide (s.cpu.a.getLsbD 7 = v.getLsbD 7 ∧ s.cpu.a.getLsbD 7 ≠ low.getLsbD 7) } low })

/-- R201, R209 (decision D41), R210: SBC. A - M - (1 - C): C when no borrow is needed, A the difference modulo 256, V
when the signed difference does not fit, as R210 derives it; D is not consulted. PC, the cost and the state a fault
keeps are R160's and R412's (decisions D5, D49; log entries 5 and 8). -/
def Obligations.SubtractWithBorrow : Prop :=
  ∀ (m : Operand) (s : State),
    ReadsOperand (.sbc m) m s (fun v =>
      let borrow := 1 - s.cpu.p.c.toNat
      let low := s.cpu.a - v - BitVec.ofNat 8 borrow
      { s.cpu with
        a := low
        p := Status.withZS
          { s.cpu.p with
            c := decide (v.toNat + borrow ≤ s.cpu.a.toNat)
            v := decide (s.cpu.a.toInt - v.toInt - borrow < -128 ∨ 127 < s.cpu.a.toInt - v.toInt - borrow) } low })

/-- R202, R203, R204: AND, ORA and EOR of A and the operand; C, V, I, D and B are unchanged. -/
def Obligations.LogicInstructions : Prop :=
  ∀ (m : Operand) (s : State),
    ReadsOperand (.and m) m s (fun v =>
      { s.cpu with a := s.cpu.a &&& v, p := s.cpu.p.withZS (s.cpu.a &&& v) }) ∧
    ReadsOperand (.ora m) m s (fun v =>
      { s.cpu with a := s.cpu.a ||| v, p := s.cpu.p.withZS (s.cpu.a ||| v) }) ∧
    ReadsOperand (.eor m) m s (fun v =>
      { s.cpu with a := s.cpu.a ^^^ v, p := s.cpu.p.withZS (s.cpu.a ^^^ v) })

/-- R205, R206, R207, R208: a compare sets C when the register is not below the operand, unsigned, and Z and S of the
difference modulo 256; no register is written. BIT sets Z from A and the operand, S and V from the operand's bits 7 and 6,
and nothing else. PC, the cost and the state a fault keeps are R160's and R412's (decisions D5, D49; log entries 5 and
8). -/
def Obligations.CompareInstructions : Prop :=
  ∀ (m : Operand) (s : State),
    ReadsOperand (.cmp m) m s (fun v =>
      { s.cpu with p := Status.withZS { s.cpu.p with c := decide (v.toNat ≤ s.cpu.a.toNat) } (s.cpu.a - v) }) ∧
    ReadsOperand (.cpx m) m s (fun v =>
      { s.cpu with p := Status.withZS { s.cpu.p with c := decide (v.toNat ≤ s.cpu.x.toNat) } (s.cpu.x - v) }) ∧
    ReadsOperand (.cpy m) m s (fun v =>
      { s.cpu with p := Status.withZS { s.cpu.p with c := decide (v.toNat ≤ s.cpu.y.toNat) } (s.cpu.y - v) }) ∧
    ReadsOperand (.bit m) m s (fun v =>
      { s.cpu with p := { s.cpu.p with z := decide (s.cpu.a &&& v = 0), s := v.getLsbD 7, v := v.getLsbD 6 } })

/-! ### Shifts, increments and decrements -/

/-- R230 to R233, accumulator mode: C takes the bit moved out, a rotate moves the old C in, Z and S come from the
result. -/
def Obligations.ShiftAccumulator : Prop :=
  ∀ s : State,
    exec (.asl .acc) s = .next { s with cpu := { s.cpu with
      a := s.cpu.a <<< 1
      p := Status.withZS { s.cpu.p with c := s.cpu.a.getLsbD 7 } (s.cpu.a <<< 1)
      pc := s.cpu.pc + 1, cycles := s.cpu.cycles + 2 } } ∧
    exec (.lsr .acc) s = .next { s with cpu := { s.cpu with
      a := s.cpu.a >>> 1
      p := Status.withZS { s.cpu.p with c := s.cpu.a.getLsbD 0 } (s.cpu.a >>> 1)
      pc := s.cpu.pc + 1, cycles := s.cpu.cycles + 2 } } ∧
    exec (.rol .acc) s = .next { s with cpu := { s.cpu with
      a := s.cpu.a.extractLsb' 0 7 ++ BitVec.ofBool s.cpu.p.c
      p := Status.withZS { s.cpu.p with c := s.cpu.a.getLsbD 7 } (s.cpu.a.extractLsb' 0 7 ++ BitVec.ofBool s.cpu.p.c)
      pc := s.cpu.pc + 1, cycles := s.cpu.cycles + 2 } } ∧
    exec (.ror .acc) s = .next { s with cpu := { s.cpu with
      a := BitVec.ofBool s.cpu.p.c ++ s.cpu.a.extractLsb' 1 7
      p := Status.withZS { s.cpu.p with c := s.cpu.a.getLsbD 0 } (BitVec.ofBool s.cpu.p.c ++ s.cpu.a.extractLsb' 1 7)
      pc := s.cpu.pc + 1, cycles := s.cpu.cycles + 2 } }

/-- R230 to R235, R240 (decision D46): the shifts, rotates, increments and decrements of a memory byte, one read and one
write at the same address; INC and DEC leave C. -/
def Obligations.ModifyMemory : Prop :=
  ∀ (m : Operand) (s : State),
    ModifiesMemory (.asl m) m s (fun v => v <<< 1) (fun v => { s.cpu.p with c := v.getLsbD 7 }) ∧
    ModifiesMemory (.lsr m) m s (fun v => v >>> 1) (fun v => { s.cpu.p with c := v.getLsbD 0 }) ∧
    ModifiesMemory (.rol m) m s (fun v => v.extractLsb' 0 7 ++ BitVec.ofBool s.cpu.p.c)
      (fun v => { s.cpu.p with c := v.getLsbD 7 }) ∧
    ModifiesMemory (.ror m) m s (fun v => BitVec.ofBool s.cpu.p.c ++ v.extractLsb' 1 7)
      (fun v => { s.cpu.p with c := v.getLsbD 0 }) ∧
    ModifiesMemory (.inc m) m s (fun v => v + 1) (fun _ => s.cpu.p) ∧
    ModifiesMemory (.dec m) m s (fun v => v - 1) (fun _ => s.cpu.p)

/-! ### Control transfer -/

/-- R260 to R268: a branch costs 2 and goes on at the next instruction when its condition fails; when it holds, PC is the
displacement from the next instruction, at 3 cycles, or 4 when the target lies in another page (R145, decision D15). No
flag and no memory changes. -/
def Obligations.BranchInstructions : Prop :=
  ∀ (d : Byte) (s : State),
    let next := s.cpu.pc + 2
    let dest := next + d.signExtend 16
    let stay : State := { s with cpu := { s.cpu with pc := next, cycles := s.cpu.cycles + 2 } }
    let go : State := { s with cpu := { s.cpu with
      pc := dest, cycles := s.cpu.cycles + if hiByte next = hiByte dest then 3 else 4 } }
    exec (.bcc d) s = .next (if s.cpu.p.c = false then go else stay) ∧
    exec (.bcs d) s = .next (if s.cpu.p.c = true then go else stay) ∧
    exec (.bne d) s = .next (if s.cpu.p.z = false then go else stay) ∧
    exec (.beq d) s = .next (if s.cpu.p.z = true then go else stay) ∧
    exec (.bpl d) s = .next (if s.cpu.p.s = false then go else stay) ∧
    exec (.bmi d) s = .next (if s.cpu.p.s = true then go else stay) ∧
    exec (.bvc d) s = .next (if s.cpu.p.v = false then go else stay) ∧
    exec (.bvs d) s = .next (if s.cpu.p.v = true then go else stay)

/-- R142, R269, R270: JMP absolute goes to its operand; JMP indirect reads its target with the page wrap of R96, the high
byte in the page of the low byte, and stops where one of the two reads faults. -/
def Obligations.JumpInstructions : Prop :=
  ∀ (w : Addr) (s : State),
    exec (.jmp (.abs w)) s = .next { s with cpu := { s.cpu with pc := w, cycles := s.cpu.cycles + 3 } } ∧
    (∀ (lo hi : Byte) (s1 s2 : State), read8 w s = .ok (lo, s1) →
      read8 ((w &&& 0xFF00) ||| ((w + 1) &&& 0x00FF)) s1 = .ok (hi, s2) →
      exec (.jmp (.ind w)) s = .next { s2 with cpu := { s.cpu with pc := hi ++ lo, cycles := s.cpu.cycles + 5 } }) ∧
    (∀ f : Fault, read8 w s = .error f → exec (.jmp (.ind w)) s = .fault f) ∧
    (∀ (lo : Byte) (s1 : State) (f : Fault), read8 w s = .ok (lo, s1) →
      read8 ((w &&& 0xFF00) ||| ((w + 1) &&& 0x00FF)) s1 = .error f → exec (.jmp (.ind w)) s = .fault f)

/-- R271, R99 (decision D14): JSR pushes the address of its own last byte, high byte first, and goes to its operand; every
byte outside the two slots is as before. -/
def Obligations.JumpToSubroutine : Prop :=
  ∀ (w : Addr) (s : State), Cells.wf s.ram = true →
    ∃ t : State, exec (.jsr w) s = .next t ∧
      t = { s with
        ram := t.ram, cpu := { s.cpu with pc := w, sp := s.cpu.sp - 2, cycles := s.cpu.cycles + 6 } } ∧
      t.peek (stackAddr s.cpu.sp) = some (hiByte (s.cpu.pc + 2)) ∧
      t.peek (stackAddr (s.cpu.sp - 1)) = some (loByte (s.cpu.pc + 2)) ∧
      (∀ b : Addr, target b ≠ target (stackAddr s.cpu.sp) → target b ≠ target (stackAddr (s.cpu.sp - 1)) →
        t.peek b = s.peek b)

/-- R272, R99 (decision D14 for the slots, modulo 256): RTS pops a word and goes to it plus 1, modulo 65536; nothing but
SP, PC and the cycle counter changes. An RTS right after a JSR goes on behind the JSR with the same stack pointer. -/
def Obligations.ReturnFromSubroutine : Prop :=
  (∀ (s : State) (lo hi : Byte), s.peek (stackAddr (s.cpu.sp + 1)) = some lo →
    s.peek (stackAddr (s.cpu.sp + 2)) = some hi →
    exec .rts s = .next { s with cpu := { s.cpu with
      pc := (hi ++ lo) + 1, sp := s.cpu.sp + 2, cycles := s.cpu.cycles + 6 } }) ∧
  (∀ (w : Addr) (s t : State), Cells.wf s.ram = true → exec (.jsr w) s = .next t →
    ∃ u : State, exec .rts t = .next u ∧ u.cpu.pc = s.cpu.pc + 3 ∧ u.cpu.sp = s.cpu.sp ∧
      u.cpu = { s.cpu with pc := u.cpu.pc, cycles := u.cpu.cycles })

/-- R273, R36 (decision D10): RTI pops the status, whose bits 4 and 5 are dropped and B cleared, then PC without adding
1. -/
def Obligations.ReturnFromInterrupt : Prop :=
  ∀ (s : State) (m lo hi : Byte), s.peek (stackAddr (s.cpu.sp + 1)) = some m →
    s.peek (stackAddr (s.cpu.sp + 2)) = some lo → s.peek (stackAddr (s.cpu.sp + 3)) = some hi →
    exec .rti s = .next { s with cpu := { s.cpu with
      p := { s := m.getLsbD 7, v := m.getLsbD 6, b := false, d := m.getLsbD 3, i := m.getLsbD 2, z := m.getLsbD 1,
             c := m.getLsbD 0 }
      pc := hi ++ lo, sp := s.cpu.sp + 3, cycles := s.cpu.cycles + 6 } }

/-- R274 (decision D6): BRK pushes PC0 + 2 and the status with bits 4 and 5 set, sets I, and goes to the vector at 0xFFFE;
the stored flags and every byte outside the three slots are as before. -/
def Obligations.BreakInstruction : Prop :=
  ∀ s : State, Cells.wf s.ram = true →
    ∃ t : State, exec .brk s = .next t ∧
      t = { s with
        ram := t.ram
        cpu := { s.cpu with
          pc := leWord (s.cart.prgByte 0x7FFE) (s.cart.prgByte 0x7FFF)
          sp := s.cpu.sp - 3
          p := { s.cpu.p with i := true }
          cycles := s.cpu.cycles + 7 } } ∧
      t.peek (stackAddr s.cpu.sp) = some (hiByte (s.cpu.pc + 2)) ∧
      t.peek (stackAddr (s.cpu.sp - 1)) = some (loByte (s.cpu.pc + 2)) ∧
      t.peek (stackAddr (s.cpu.sp - 2)) = some (s.cpu.p.image true) ∧
      (∀ b : Addr, target b ≠ target (stackAddr s.cpu.sp) → target b ≠ target (stackAddr (s.cpu.sp - 1)) →
        target b ≠ target (stackAddr (s.cpu.sp - 2)) → t.peek b = s.peek b)

/-! ### Stack, flags and no-operations -/

/-- R290, R292, R98: PHA pushes A, and PHP the status with bits 4 and 5 set; no flag changes, and every byte outside the
slot is as before. -/
def Obligations.PushInstructions : Prop :=
  ∀ s : State, Cells.wf s.ram = true →
    (∃ t : State, exec .pha s = .next t ∧
      t = { s with
        ram := t.ram
        cpu := { s.cpu with pc := s.cpu.pc + 1, sp := s.cpu.sp - 1, cycles := s.cpu.cycles + 3 } } ∧
      t.peek (stackAddr s.cpu.sp) = some s.cpu.a ∧
      (∀ b : Addr, target b ≠ target (stackAddr s.cpu.sp) → t.peek b = s.peek b)) ∧
    (∃ t : State, exec .php s = .next t ∧
      t = { s with
        ram := t.ram
        cpu := { s.cpu with pc := s.cpu.pc + 1, sp := s.cpu.sp - 1, cycles := s.cpu.cycles + 3 } } ∧
      t.peek (stackAddr s.cpu.sp) = some (BitVec.ofBool s.cpu.p.s ++ BitVec.ofBool s.cpu.p.v ++ 0b11#2 ++
        BitVec.ofBool s.cpu.p.d ++ BitVec.ofBool s.cpu.p.i ++ BitVec.ofBool s.cpu.p.z ++ BitVec.ofBool s.cpu.p.c) ∧
      (∀ b : Addr, target b ≠ target (stackAddr s.cpu.sp) → t.peek b = s.peek b))

/-- R291, R293 (decision D12): PLA pops A and sets Z and S; PLP pops the flags, with B cleared and bit 5 of the byte
ignored. -/
def Obligations.PullInstructions : Prop :=
  ∀ (s : State) (m : Byte), s.peek (stackAddr (s.cpu.sp + 1)) = some m →
    exec .pla s = .next { s with cpu := { s.cpu with
      a := m, p := s.cpu.p.withZS m, pc := s.cpu.pc + 1, sp := s.cpu.sp + 1, cycles := s.cpu.cycles + 4 } } ∧
    exec .plp s = .next { s with cpu := { s.cpu with
      p := { s := m.getLsbD 7, v := m.getLsbD 6, b := false, d := m.getLsbD 3, i := m.getLsbD 2, z := m.getLsbD 1,
             c := m.getLsbD 0 }
      pc := s.cpu.pc + 1, sp := s.cpu.sp + 1, cycles := s.cpu.cycles + 4 } }

/-- R294 to R300: each flag instruction writes its one flag, and PC and the cycle counter move; nothing else changes. -/
def Obligations.FlagInstructions : Prop :=
  ∀ s : State,
    let after (p : Status) : State :=
      { s with cpu := { s.cpu with p := p, pc := s.cpu.pc + 1, cycles := s.cpu.cycles + 2 } }
    exec .clc s = .next (after { s.cpu.p with c := false }) ∧
    exec .sec s = .next (after { s.cpu.p with c := true }) ∧
    exec .cli s = .next (after { s.cpu.p with i := false }) ∧
    exec .sei s = .next (after { s.cpu.p with i := true }) ∧
    exec .clv s = .next (after { s.cpu.p with v := false }) ∧
    exec .cld s = .next (after { s.cpu.p with d := false }) ∧
    exec .sed s = .next (after { s.cpu.p with d := true })

/-- R301 to R308 (decision D8): NOP, every `NOP*` and every `UND` opcode move PC by their size and charge 2 cycles; no
register, flag or byte changes and nothing is read at the operand's address. -/
def Obligations.NoOperations : Prop :=
  ∀ s : State,
    exec .nop s = .next { s with cpu := { s.cpu with pc := s.cpu.pc + 1, cycles := s.cpu.cycles + 2 } } ∧
    (∀ (op : Byte) (form : NopForm), (Instr.nopStar op form).wellFormed = true →
      exec (.nopStar op form) s =
        .next { s with cpu := { s.cpu with
          pc := s.cpu.pc + BitVec.ofNat 16 form.size, cycles := s.cpu.cycles + 2 } }) ∧
    (∀ op : Byte, (Instr.und op).wellFormed = true →
      exec (.und op) s = .next { s with cpu := { s.cpu with pc := s.cpu.pc + 1, cycles := s.cpu.cycles + 2 } })

/-! ### Frames -/

/-- R110: reading an operand changes no CPU register, no memory byte and no input; only a PPUSTATUS or PPUDATA port
changes the PPU, and there only vblank, W, the read buffer and V; only a controller port changes the controllers. -/
def Obligations.OperandReadFrame : Prop :=
  ∀ (m : Operand) (s s' : State) (v : Byte), operandRead m s = .ok (v, s') →
    s' = { s with ppu := s'.ppu, ctrl := s'.ctrl } ∧ (∀ b : Addr, s'.peek b = s.peek b) ∧
    s'.ppu = { s.ppu with
      vblank := s'.ppu.vblank, w := s'.ppu.w, readBuffer := s'.ppu.readBuffer, v := s'.ppu.v } ∧
    (∀ a : Addr, effAddr m s = some a → ¬IsPort 2 a → ¬IsPort 7 a → s'.ppu = s.ppu) ∧
    (∀ a : Addr, effAddr m s = some a → a ≠ 0x4016 → a ≠ 0x4017 → s'.ctrl = s.ctrl) ∧
    (effAddr m s = none → s' = s)

/-- The frame of the instructions that store (R173 to R175, R230 to R235): no byte changes but the one at the effective
address and its mirrors (R83); the accumulator forms store nothing; the registers stay but for A of an accumulator form,
a store writes no flag, and the others write C, Z and S at most. -/
def Obligations.StoreFrame : Prop :=
  ∀ (m : Operand) (s t : State) (i : Instr),
    i ∈ [.sta m, .stx m, .sty m, .asl m, .lsr m, .rol m, .ror m, .inc m, .dec m] → exec i s = .next t →
    (∀ a : Addr, effAddr m s = some a → ∀ b : Addr, target b ≠ target a → t.peek b = s.peek b) ∧
    (effAddr m s = none → ∀ b : Addr, t.peek b = s.peek b) ∧
    t.cpu = { s.cpu with
      a := t.cpu.a, p := t.cpu.p, pc := s.cpu.pc + BitVec.ofNat 16 i.size, cycles := t.cpu.cycles } ∧
    (m ≠ .acc → t.cpu.a = s.cpu.a) ∧
    t.cpu.p = { s.cpu.p with c := t.cpu.p.c, z := t.cpu.p.z, s := t.cpu.p.s } ∧
    (i ∈ [.sta m, .stx m, .sty m] → t.cpu.p = s.cpu.p) ∧
    (i ∈ [.inc m, .dec m] → t.cpu.p.c = s.cpu.p.c) ∧
    (∀ a : Addr, effAddr m s = some a → (∀ r : Nat, ¬IsPort r a) → a ≠ 0x4014 → t.ppu = s.ppu) ∧
    (∀ a : Addr, effAddr m s = some a → a ≠ 0x4014 → a ≠ 0x4016 → a ≠ 0x4017 → t.ctrl = s.ctrl) ∧
    (effAddr m s = none → t.ppu = s.ppu ∧ t.ctrl = s.ctrl ∧ t.cart = s.cart)

/-! ### The CPU bus -/

/-- R83: every address 0x0000-0x1FFF selects the byte `a & 0x07FF` of RAM. A read has no side effect; after a write the
byte reads back at each of its four addresses and every other byte is as before. -/
def Obligations.RamMirrors : Prop :=
  ∀ (a : Addr) (v : Byte) (s : State), Cells.wf s.ram = true → a.toNat ≤ 0x1FFF →
    (∃ u : Byte, ∀ b : Addr, b.toNat ≤ 0x1FFF → b.toNat % 0x800 = a.toNat % 0x800 → read8 b s = .ok (u, s)) ∧
    (∃ t : State, write8 a v s = .ok t ∧ t = { s with ram := t.ram } ∧
      ∀ b : Addr, read8 b t =
        if b.toNat ≤ 0x1FFF ∧ b.toNat % 0x800 = a.toNat % 0x800 then .ok (v, t)
        else match read8 b s with
          | .ok (u, s') => .ok (u, { s' with ram := t.ram })
          | .error f => .error (f.mapKept fun k => { k with ram := t.ram }))

/-- R92 (decision D39), R93 (decision D37): work RAM reads back what was written, at that address alone; a write to PRG
ROM changes nothing, a read gives the byte of the image at the address less 0x8000, a 16 KiB image appears twice, and
neither read has a side effect. -/
def Obligations.CartridgeSpace : Prop :=
  ∀ (a : Addr) (v : Byte) (s : State),
    (Cells.wf s.cart.wram = true → 0x6000 ≤ a.toNat → a.toNat ≤ 0x7FFF →
      ∃ t : State, write8 a v s = .ok t ∧ read8 a t = .ok (v, t) ∧
        t = { s with cart := { s.cart with wram := t.cart.wram } } ∧
        ∀ b : Addr, b ≠ a → t.peek b = s.peek b) ∧
    (0x8000 ≤ a.toNat → write8 a v s = .ok s ∧
      read8 a s = .ok (Cells.read s.cart.prg ((a.toNat - 0x8000) % s.cart.prgSize.bytes), s) ∧
      (s.cart.prgSize.bytes = match s.cart.prgSize with | .k16 => 16384 | .k32 => 32768) ∧
      (s.cart.prgSize = .k16 → a.toNat < 0xC000 →
        ∀ u : Byte, read8 a s = .ok (u, s) → read8 (a + 0x4000) s = .ok (u, s)))

/-- R85: a read of 0x4000-0x4013 faults in either access mode, and a write there has no effect. The kept state, with the
fault recorded, is R411's and R412's (decision D49; log entry 5, DESIGN CHOICE). -/
def Obligations.ApuStubs : Prop :=
  ∀ (a : Addr) (v : Byte) (s : State), 0x4000 ≤ a.toNat → a.toNat ≤ 0x4013 →
    read8 a s = .error (.access (.apuRead a) { s with fault := some (.apuRead a) }) ∧ write8 a v s = .ok s

/-- R86, R91, R94, R325, R337, R411 (decisions D1, D36, D49, D52; log entry 5 for the kept state, 6 for the address): the
programmer-error accesses fault in `strict` mode, with the address of the access recorded; in `lenient` mode a read
gives 0x00 and a write does nothing. Beside them R87, R89 and R90 (decision D35): the stubs that read 0x00, and the ports whose writes are ignored, in either mode. -/
def Obligations.ProgrammerErrors : Prop :=
  ∀ (a : Addr) (v : Byte) (s : State),
    (a = 0x4015 ∨ (0x4018 ≤ a.toNat ∧ a.toNat ≤ 0x401F) → read8 a s = .ok (0x00, s)) ∧
    (a = 0x4015 ∨ (0x4017 ≤ a.toNat ∧ a.toNat ≤ 0x401F) → write8 a v s = .ok s) ∧
    (∀ r : Nat, r ∈ [0, 1, 3, 5, 6] → IsPort r a →
      read8 a s = match s.accessMode with
        | .strict => .error (.access (.writeOnlyRead a) { s with fault := some (.writeOnlyRead a) })
        | .lenient => .ok (0x00, s)) ∧
    (IsPort 2 a →
      write8 a v s = match s.accessMode with
        | .strict => .error (.access (.readOnlyWrite a) { s with fault := some (.readOnlyWrite a) })
        | .lenient => .ok s) ∧
    (read8 0x4014 s = match s.accessMode with
      | .strict => .error (.access (.writeOnlyRead 0x4014) { s with fault := some (.writeOnlyRead 0x4014) })
      | .lenient => .ok (0x00, s)) ∧
    (0x4020 ≤ a.toNat → a.toNat ≤ 0x5FFF →
      (read8 a s = match s.accessMode with
        | .strict => .error (.access (.unmapped a) { s with fault := some (.unmapped a) })
        | .lenient => .ok (0x00, s)) ∧
      (write8 a v s = match s.accessMode with
        | .strict => .error (.access (.unmapped a) { s with fault := some (.unmapped a) })
        | .lenient => .ok s))

/-- R338, R339, R340 (decisions D32, D33, D34): a write of a page to 0x4014 copies its 256 bytes into OAM through the CPU
bus, leaves OAMADDR and everything the reads do not change, and charges 513 cycles, 514 when the counter is odd. From
RAM, work RAM and PRG ROM come the bytes there. From page 0x40 the first read faults in either access mode, and from
the PPU ports and the unmapped pages in `strict` mode (D1, D36, D49; log entries 5 and 6), before anything is copied.
In `lenient` mode the unmapped pages give zeros, and the PPU ports what R324, R327, R333, R334 and R337 give in address
order: PPUSTATUS with vblank cleared by its first read, OAMDATA the OAM as copied so far, PPUDATA its buffered reads
along V. -/
def Obligations.OamDma : Prop :=
  ∀ (page : Byte) (s : State),
    let charged : Cpu :=
      { s.cpu with cycles := s.cpu.cycles + if s.cpu.cycles.toNat % 2 = 1 then 514 else 513 }
    let start : Addr := page ++ 0x00#8
    (Cells.wf s.ppu.oam = true → page.toNat ≤ 0x1F ∨ 0x60 ≤ page.toNat →
      ∃ t : State, write8 0x4014 page s = .ok t ∧
        (∀ i : Byte, s.peek (page ++ i) = some (Cells.read t.ppu.oam i.toNat)) ∧
        t = { s with ppu := { s.ppu with oam := t.ppu.oam }, cpu := charged }) ∧
    write8 0x4014 0x40 s = .error (.access (.apuRead 0x4000) { s with fault := some (.apuRead 0x4000) }) ∧
    (0x41 ≤ page.toNat → page.toNat ≤ 0x5F →
      (s.accessMode = .strict →
        write8 0x4014 page s = .error (.access (.unmapped start) { s with fault := some (.unmapped start) })) ∧
      (s.accessMode = .lenient → Cells.wf s.ppu.oam = true →
        ∃ t : State, write8 0x4014 page s = .ok t ∧ (∀ i : Nat, i < 256 → Cells.read t.ppu.oam i = 0x00) ∧
          t = { s with ppu := { s.ppu with oam := t.ppu.oam }, cpu := charged })) ∧
    (0x20 ≤ page.toNat → page.toNat ≤ 0x3F →
      (s.accessMode = .strict →
        write8 0x4014 page s =
          .error (.access (.writeOnlyRead start) { s with fault := some (.writeOnlyRead start) })) ∧
      (s.accessMode = .lenient → Cells.wf s.ppu.oam = true →
        let vAt (k : Nat) : BitVec 15 := s.ppu.v + BitVec.ofNat 15 (k * if s.ppu.inc32 then 32 else 1)
        let addrAt (k : Nat) : PpuAddr := (vAt k).extractLsb' 0 14
        let buffered (k : Nat) : Byte :=
          s.ppu.read s.cart (if (addrAt k).toNat < 0x3F00 then addrAt k else addrAt k - 0x1000)
        let o := s.ppu.oamAddr.toNat
        ∃ t : State, write8 0x4014 page s = .ok t ∧
          t = { s with
            ppu := { s.ppu with
              oam := t.ppu.oam, vblank := false, w := false, v := vAt 32, readBuffer := buffered 31 }
            cpu := charged } ∧
          (∀ i : Nat, i < 256 → i % 8 ∈ [0, 1, 3, 5, 6] → Cells.read t.ppu.oam i = 0x00) ∧
          (∀ i : Nat, i < 256 → i % 8 = 2 → Cells.read t.ppu.oam i =
            BitVec.ofBool (decide (i = 2) && s.ppu.vblank) ++ BitVec.ofBool s.ppu.sprite0Hit ++
              BitVec.ofBool s.ppu.spriteOverflow ++ 0#5) ∧
          (∀ i : Nat, i < 256 → i % 8 = 4 →
            Cells.read t.ppu.oam i = if o < i then Cells.read t.ppu.oam o else Cells.read s.ppu.oam o) ∧
          (∀ k : Nat, k < 32 → Cells.read t.ppu.oam (8 * k + 7) =
            if 0x3F00 ≤ (addrAt k).toNat then s.ppu.read s.cart (addrAt k)
            else if k = 0 then s.ppu.readBuffer else buffered (k - 1))))

/-- R418, R419 (decision D38): a write with bit 0 set latches both pads and starts both shifts over; a later write with
bit 0 clear latches once more and ends the strobe; a read of 0x4016 or 0x4017 with the strobe off gives the button at the
shift position in bit 0, or 1 after the eighth, and moves on; with the strobe on it latches and gives A. -/
def Obligations.ControllerPorts : Prop :=
  ∀ (v : Byte) (s : State),
    let bits (b : Buttons) : List Bool := [b.a, b.b, b.select, b.start, b.up, b.down, b.left, b.right]
    (v.getLsbD 0 = true →
      write8 0x4016 v s = .ok { s with
        ctrl := { strobe := true, index1 := 0, index2 := 0, buttons1 := s.pad1, buttons2 := s.pad2 } }) ∧
    (v.getLsbD 0 = false → s.ctrl.strobe = true →
      write8 0x4016 v s = .ok { s with
        ctrl := { s.ctrl with strobe := false, buttons1 := s.pad1, buttons2 := s.pad2 } }) ∧
    (v.getLsbD 0 = false → s.ctrl.strobe = false → write8 0x4016 v s = .ok s) ∧
    (s.ctrl.strobe = false → s.ctrl.index1 ≤ 8 →
      read8 0x4016 s = .ok (if (bits s.ctrl.buttons1).getD s.ctrl.index1 true then 0x01 else 0x00,
        { s with ctrl := { s.ctrl with index1 := min 8 (s.ctrl.index1 + 1) } })) ∧
    (s.ctrl.strobe = false → s.ctrl.index2 ≤ 8 →
      read8 0x4017 s = .ok (if (bits s.ctrl.buttons2).getD s.ctrl.index2 true then 0x01 else 0x00,
        { s with ctrl := { s.ctrl with index2 := min 8 (s.ctrl.index2 + 1) } })) ∧
    (s.ctrl.strobe = true →
      read8 0x4016 s = .ok (if s.pad1.a then 0x01 else 0x00,
        { s with ctrl := { s.ctrl with index1 := 0, buttons1 := s.pad1, buttons2 := s.pad2 } }) ∧
      read8 0x4017 s = .ok (if s.pad2.a then 0x01 else 0x00,
        { s with ctrl := { s.ctrl with index2 := 0, buttons1 := s.pad1, buttons2 := s.pad2 } }))

/-! ### The PPU's ports -/

/-- R321, R322 (decision D19): PPUCTRL at any of its addresses. T bits 10 and 11 take the value's low two bits and T's
other bits stay; bits 2 to 7 go to their fields; a pulse is scheduled exactly when NMI is newly enabled during vblank and
none is queued; nothing else changes. -/
def Obligations.PpuCtrlWrite : Prop :=
  ∀ (a : Addr) (v : Byte) (s : State), IsPort 0 a →
    ∃ t : BitVec 15, t.extractLsb' 10 2 = v.extractLsb' 0 2 ∧ t.extractLsb' 0 10 = s.ppu.t.extractLsb' 0 10 ∧
      t.extractLsb' 12 3 = s.ppu.t.extractLsb' 12 3 ∧
      write8 a v s = .ok { s with ppu := { s.ppu with
        t := t
        inc32 := v.getLsbD 2, sprTable := v.getLsbD 3, bgTable := v.getLsbD 4, sprSize16 := v.getLsbD 5
        ext := v.getLsbD 6, nmiEnable := v.getLsbD 7
        nmiDelay := if s.ppu.nmiEnable = false ∧ v.getLsbD 7 = true ∧ s.ppu.vblank = true ∧ s.ppu.nmiDelay = 0 then 15
          else s.ppu.nmiDelay } }

/-- R323: PPUMASK at any of its addresses: the value's bits go to their fields, and no other state changes. -/
def Obligations.PpuMaskWrite : Prop :=
  ∀ (a : Addr) (v : Byte) (s : State), IsPort 1 a →
    write8 a v s = .ok { s with ppu := { s.ppu with
      greyscale := v.getLsbD 0, showLeftBg := v.getLsbD 1, showLeftSpr := v.getLsbD 2, showBg := v.getLsbD 3
      showSpr := v.getLsbD 4, emphasis := v.extractLsb' 5 3 } }

/-- R324 (decision D26): PPUSTATUS gives vblank, the sprite-0 hit and sprite overflow in bits 7, 6 and 5 and zeros below,
clears vblank and W, and changes nothing else; so a second read has bit 7 clear. -/
def Obligations.PpuStatusRead : Prop :=
  ∀ (a : Addr) (s : State), IsPort 2 a →
    ∃ v : Byte, read8 a s = .ok (v, { s with ppu := { s.ppu with vblank := false, w := false } }) ∧
      v.getLsbD 7 = s.ppu.vblank ∧ v.getLsbD 6 = s.ppu.sprite0Hit ∧ v.getLsbD 5 = s.ppu.spriteOverflow ∧
      v.extractLsb' 0 5 = 0

/-- R326, R327, R328 (decision D45): OAMADDR, and OAMDATA reads and writes: a read leaves OAMADDR, a write stores there
and increments it modulo 256, and every other OAM byte is as before. -/
def Obligations.OamPorts : Prop :=
  ∀ (a : Addr) (v : Byte) (s : State),
    (IsPort 3 a → write8 a v s = .ok { s with ppu := { s.ppu with oamAddr := v } }) ∧
    (IsPort 4 a → read8 a s = .ok (Cells.read s.ppu.oam s.ppu.oamAddr.toNat, s)) ∧
    (IsPort 4 a → Cells.wf s.ppu.oam = true →
      ∃ t : State, write8 a v s = .ok t ∧
        t = { s with ppu := { s.ppu with oam := t.ppu.oam, oamAddr := s.ppu.oamAddr + 1 } } ∧
        ∀ i : Nat, Cells.read t.ppu.oam i = if i = s.ppu.oamAddr.toNat then v else Cells.read s.ppu.oam i)

/-- R329, R330: the pair of PPUSCROLL writes. With W = 0 the first sets coarse X and fine X and W; with W = 1 the second
sets coarse Y and fine Y and clears W; V, the nametable bits of T and everything else stay. -/
def Obligations.PpuScrollWrites : Prop :=
  ∀ (a : Addr) (v : Byte) (s : State), IsPort 5 a →
    ∃ t : BitVec 15, t.extractLsb' 10 2 = s.ppu.t.extractLsb' 10 2 ∧
      (s.ppu.w = false → t.extractLsb' 0 5 = v.extractLsb' 3 5 ∧ t.extractLsb' 5 10 = s.ppu.t.extractLsb' 5 10 ∧
        write8 a v s = .ok { s with ppu := { s.ppu with t := t, fineX := v.extractLsb' 0 3, w := true } }) ∧
      (s.ppu.w = true → t.extractLsb' 5 5 = v.extractLsb' 3 5 ∧ t.extractLsb' 12 3 = v.extractLsb' 0 3 ∧
        t.extractLsb' 0 5 = s.ppu.t.extractLsb' 0 5 ∧
        write8 a v s = .ok { s with ppu := { s.ppu with t := t, w := false } })

/-- R331, R332: the pair of PPUADDR writes. With W = 0 the write sets T bits 13 to 8, clears bit 14, and leaves V; with
W = 1 it sets T's low byte, copies T into V and clears W. After the pair V and T hold the 14-bit address of both bytes. -/
def Obligations.PpuAddrWrites : Prop :=
  ∀ (a b : Addr) (hi lo : Byte) (s : State), IsPort 6 a → IsPort 6 b →
    (s.ppu.w = false → write8 a hi s = .ok { s with ppu := { s.ppu with
      t := 0#1 ++ hi.extractLsb' 0 6 ++ s.ppu.t.extractLsb' 0 8, w := true } }) ∧
    (s.ppu.w = true → write8 a lo s = .ok { s with ppu := { s.ppu with
      t := s.ppu.t.extractLsb' 8 7 ++ lo, v := s.ppu.t.extractLsb' 8 7 ++ lo, w := false } }) ∧
    (s.ppu.w = false → ∃ s1 : State, write8 a hi s = .ok s1 ∧
      write8 b lo s1 = .ok { s with ppu := { s.ppu with
        t := 0#1 ++ hi.extractLsb' 0 6 ++ lo, v := 0#1 ++ hi.extractLsb' 0 6 ++ lo, w := false } })

/-- R333, R334, R335, R336 (decisions D27, D28): PPUDATA. Below 0x3F00 a read gives the buffer and refills it; in the
palette it gives the palette byte and fills the buffer from the address 0x1000 below; a write stores on the PPU bus; each
access moves V by 1 or 32 modulo 2^15, and a read changes nothing else. -/
def Obligations.PpuDataPort : Prop :=
  ∀ (a : Addr) (v : Byte) (s : State), IsPort 7 a →
    let ppuAddr : PpuAddr := s.ppu.v.extractLsb' 0 14
    let next : BitVec 15 := s.ppu.v + if s.ppu.inc32 then 32 else 1
    (ppuAddr.toNat < 0x3F00 →
      read8 a s = .ok (s.ppu.readBuffer,
        { s with ppu := { s.ppu with readBuffer := s.ppu.read s.cart ppuAddr, v := next } })) ∧
    (0x3F00 ≤ ppuAddr.toNat →
      read8 a s = .ok (s.ppu.read s.cart ppuAddr,
        { s with ppu := { s.ppu with readBuffer := s.ppu.read s.cart (ppuAddr - 0x1000), v := next } })) ∧
    write8 a v s = .ok { s with
      ppu := { (s.ppu.write s.cart ppuAddr v).1 with v := next }, cart := (s.ppu.write s.cart ppuAddr v).2 }

/-- R100 to R105 (decisions D24, D37; R103's map of mirroring to tables is the spec's general knowledge, log entry 16):
which cell a PPU bus address selects. The pattern tables are CHR by their own address, the nametables the cell of the
2 KiB storage that R103 gives by the cartridge's mirroring, and the palette the entry R105 gives; so 0x3000-0x3EFF
repeats the nametables, the palette repeats every 32 bytes, and 0x3F10, 0x3F14, 0x3F18 and 0x3F1C are the entries 0x10
below. A write reads back at every address of its cell and leaves every other address; a write of the pattern tables
when CHR is ROM changes nothing. -/
def Obligations.PpuBus : Prop :=
  ∀ (p : Ppu) (cart : Cartridge) (a : PpuAddr) (v : Byte),
    let ntCell (b : PpuAddr) : Nat :=
      let o := (b.toNat - 0x2000) % 0x1000
      let tables := match cart.mirroring with
        | .horizontal => [0, 0, 1, 1]
        | .vertical => [0, 1, 0, 1]
      0x400 * tables.getD (o / 0x400) 0 + o % 0x400
    let palCell (b : PpuAddr) : Nat :=
      let i := b.toNat % 0x20
      if i ∈ [0x10, 0x14, 0x18, 0x1C] then i - 0x10 else i
    let sameCell (b c : PpuAddr) : Prop :=
      if b.toNat < 0x2000 then b = c
      else if b.toNat < 0x3F00 then 0x2000 ≤ c.toNat ∧ c.toNat < 0x3F00 ∧ ntCell b = ntCell c
      else 0x3F00 ≤ c.toNat ∧ palCell b = palCell c
    (∀ b : PpuAddr, b.toNat < 0x2000 → p.read cart b = Cells.read cart.chr b.toNat) ∧
    (∀ b : PpuAddr, 0x2000 ≤ b.toNat → b.toNat < 0x3F00 → p.read cart b = Cells.read p.nt (ntCell b)) ∧
    (∀ b : PpuAddr, 0x3F00 ≤ b.toNat → p.read cart b = Cells.read p.pal (palCell b)) ∧
    (a.toNat < 0x2000 → cart.chrIsRam = false → p.write cart a v = (p, cart)) ∧
    (0x2000 ≤ a.toNat ∨ cart.chrIsRam = true → Cells.wf p.nt = true → Cells.wf p.pal = true →
      Cells.wf cart.chr = true → ∀ b : PpuAddr, sameCell a b → (p.write cart a v).1.read (p.write cart a v).2 b = v) ∧
    (∀ b : PpuAddr, ¬sameCell a b → (p.write cart a v).1.read (p.write cart a v).2 b = p.read cart b) ∧
    (p.write cart a v).1 = { p with nt := (p.write cart a v).1.nt, pal := (p.write cart a v).1.pal } ∧
    (p.write cart a v).2 = { cart with chr := (p.write cart a v).2.chr } ∧
    (0x3000 ≤ a.toNat → a.toNat < 0x3F00 → p.read cart a = p.read cart (a - 0x1000)) ∧
    (0x3F00 ≤ a.toNat → a.toNat < 0x3FE0 → p.read cart a = p.read cart (a + 0x20)) ∧
    (a ∈ [0x3F10, 0x3F14, 0x3F18, 0x3F1C] → p.read cart a = p.read cart (a - 0x10)) ∧
    (cart.mirroring = .horizontal → 0x2000 ≤ a.toNat → a.toNat < 0x3000 → a.toNat / 0x400 % 2 = 0 →
      p.read cart a = p.read cart (a + 0x400)) ∧
    (cart.mirroring = .vertical → 0x2000 ≤ a.toNat → a.toNat < 0x2800 →
      p.read cart a = p.read cart (a + 0x800))

/-! ### The PPU's tick -/

/-- R341 (decisions D17, D18), R364: a PPU tick moves to the next of the 89342 dots of a frame, and the frame counter
counts the wraps. -/
def Obligations.DotAdvance : Prop :=
  ∀ (cart : Cartridge) (p : Ppu), p.cycle ≤ 340 → p.scanline ≤ 261 →
    dotIndex (p.tick cart) = (dotIndex p + 1) % dotsPerFrame ∧
      (p.tick cart).frame = (if dotIndex p = dotsPerFrame - 1 then p.frame + 1 else p.frame) ∧
      (p.tick cart).cycle ≤ 340 ∧ (p.tick cart).scanline ≤ 261

/-- R356, R357 (decision D19): the tick that processes dot (241, 1) sets vblank, the one that processes dot (261, 1)
clears vblank and the sprite-0 hit and leaves sprite overflow; no other tick changes vblank, and no other clears the
hit, which only a visible dot can set. -/
def Obligations.VblankFlags : Prop :=
  ∀ (cart : Cartridge) (p : Ppu),
    let q := p.tick cart
    (q.scanline = 241 → q.cycle = 1 → q.vblank = true ∧
      q.nmiDelay = if p.nmiEnable = true ∧ p.nmiDelay ≤ 1 then 15 else p.nmiDelay - 1) ∧
    (q.scanline = 261 → q.cycle = 1 → q.vblank = false ∧ q.sprite0Hit = false) ∧
    (¬(q.scanline = 241 ∧ q.cycle = 1) → ¬(q.scanline = 261 ∧ q.cycle = 1) →
      q.vblank = p.vblank) ∧
    (¬(q.scanline = 261 ∧ q.cycle = 1) → p.sprite0Hit = true → q.sprite0Hit = true) ∧
    (239 < q.scanline ∨ q.cycle = 0 ∨ 256 < q.cycle → p.sprite0Hit = false → q.sprite0Hit = false) ∧
    (¬(q.scanline = 241 ∧ q.cycle = 1) → q.nmiDelay = p.nmiDelay - 1) ∧
    q.spriteOverflow = p.spriteOverflow

/-- R341, R358 (decision D19): a PPU tick queues an NMI exactly when the delay counter reaches 0 on it with vblank and
NMI enable still set; otherwise the queue stays, and the rest of the CPU, RAM, the cartridge and the controllers always
stay. -/
def Obligations.NmiPulse : Prop :=
  ∀ s : State,
    ppuTick s =
      { s with
        ppu := s.ppu.tick s.cart
        cpu := { s.cpu with
          pending := if s.ppu.nmiDelay = 1 ∧ s.ppu.vblank = true ∧ s.ppu.nmiEnable = true then some .nmi
            else s.cpu.pending } }

/-- R43, R50, R51, R112: a PPU tick changes no register the CPU has written but V, and no memory but the framebuffer.
R342, R343: with rendering off it leaves V, the pipeline and the latches too; and a dot that is not on a visible line, or
is not one of dots 1 to 256, leaves the framebuffer. -/
def Obligations.TickFrame : Prop :=
  ∀ (cart : Cartridge) (p : Ppu),
    let q := p.tick cart
    q = { p with
      v := q.v, ntByte := q.ntByte, atBits := q.atBits, ptLow := q.ptLow, ptHigh := q.ptHigh, pipe := q.pipe
      sprite0Hit := q.sprite0Hit, vblank := q.vblank, cycle := q.cycle, scanline := q.scanline, frame := q.frame
      nmiDelay := q.nmiDelay, framebuffer := q.framebuffer } ∧
    (p.showBg = false → p.showSpr = false → q.v = p.v ∧ q.pipe = p.pipe ∧ q.ntByte = p.ntByte ∧ q.atBits = p.atBits ∧
      q.ptLow = p.ptLow ∧ q.ptHigh = p.ptHigh) ∧
    (239 < q.scanline ∨ q.cycle = 0 ∨ 256 < q.cycle → q.framebuffer = p.framebuffer)

/-- R345, R359 (decisions D20, D22, D23, D29): the tick of dot (y, x + 1) on a visible line writes, at (y, x) alone, the
low 6 bits of the palette byte of the background value: the nibble of the pipeline that fine X selects, or 0 when the
background is off or hidden in the left column. The sprite-0 hit is set on that dot exactly when both layers show, the
value is opaque, x is not 255, and sprite 0 has an opaque pixel there. -/
def Obligations.PixelOutput : Prop :=
  ∀ (cart : Cartridge) (p : Ppu) (x y : Nat), Cells.wf p.framebuffer = true → x < 256 → y < 240 → p.scanline = y →
    p.cycle = x →
    let q := p.tick cart
    let bg : BitVec 4 :=
      if p.showBg = false ∨ (x < 8 ∧ p.showLeftBg = false) then 0 else p.pipe.extractLsb' (60 - 4 * p.fineX.toNat) 4
    let attr := Cells.read p.oam 2
    let height := if p.sprSize16 then 16 else 8
    let tile := (Cells.read p.oam 1).toNat
    let opaqueAt (row col : Nat) : Prop :=
      let row := if attr.getLsbD 7 then height - 1 - row else row
      let col := if attr.getLsbD 6 then 7 - col else col
      let addr := if p.sprSize16 then tile % 2 * 0x1000 + (tile / 2 * 2 + row / 8) * 16 + row % 8
        else (if p.sprTable then 0x1000 else 0) + tile * 16 + row
      (p.read cart (BitVec.ofNat 14 addr)).getLsbD (7 - col) = true ∨
        (p.read cart (BitVec.ofNat 14 (addr + 8))).getLsbD (7 - col) = true
    (∀ x' y' : Nat, x' < 256 →
      Cells.read q.framebuffer (y' * 256 + x') =
        if x' = x ∧ y' = y then (p.read cart (0x3F00 + bg.setWidth 14)).setWidth 6
        else Cells.read p.framebuffer (y' * 256 + x')) ∧
    (q.sprite0Hit = true ↔
      p.sprite0Hit = true ∨
        (p.showBg = true ∧ p.showSpr = true ∧ bg.extractLsb' 0 2 ≠ 0 ∧ x ≠ 255 ∧
          (x < 8 → p.showLeftBg = true ∧ p.showLeftSpr = true) ∧
          ∃ row col : Nat, y = (Cells.read p.oam 0).toNat + 1 + row ∧ x = (Cells.read p.oam 3).toNat + col ∧
            row < height ∧ col < 8 ∧ opaqueAt row col))

/-- R347, R348, R349, R350: on a fetch dot of a render line with rendering on, micro-steps 1, 3, 5 and 7 fill the four
latches from the nametable byte, the attribute bits and the two pattern bytes that V selects. -/
def Obligations.TileFetch : Prop :=
  ∀ (cart : Cartridge) (p : Ppu), p.showBg = true ∨ p.showSpr = true →
    let q := p.tick cart
    let attrByte := p.read cart (0b10#2 ++ p.v.extractLsb' 10 2 ++ 0b1111#4 ++ p.v.extractLsb' 7 3 ++ p.v.extractLsb' 2 3)
    let shift := 4 * (p.v.getLsbD 6).toNat + 2 * (p.v.getLsbD 1).toNat
    q.scanline ≤ 239 ∨ q.scanline = 261 → (1 ≤ q.cycle ∧ q.cycle ≤ 256) ∨ (321 ≤ q.cycle ∧ q.cycle ≤ 336) →
      (q.cycle % 8 = 1 → q.ntByte = p.read cart (0b10#2 ++ p.v.extractLsb' 0 12)) ∧
      (q.cycle % 8 = 3 → q.atBits = 0#4 ++ attrByte.extractLsb' shift 2 ++ 0#2) ∧
      (q.cycle % 8 = 5 → q.ptLow =
        p.read cart (0#1 ++ BitVec.ofBool p.bgTable ++ p.ntByte ++ 0#1 ++ p.v.extractLsb' 12 3)) ∧
      (q.cycle % 8 = 7 → q.ptHigh =
        p.read cart (0#1 ++ BitVec.ofBool p.bgTable ++ p.ntByte ++ 1#1 ++ p.v.extractLsb' 12 3))

/-- R346, R351, R343, R355 (decisions D20, D21, D27): on a fetch dot the pipeline shifts by a pixel, and micro-step 0 adds
the tile's eight values, the leftmost in the highest nibble of bits 31:0; dots 280 to 304 of the pre-render line copy fine
Y, coarse Y and the vertical nametable bit from T; on every other dot, but those of R352, R353 and R354, V stays. -/
def Obligations.RenderDots : Prop :=
  ∀ (cart : Cartridge) (p : Ppu), p.showBg = true ∨ p.showSpr = true → p.atBits &&& 0xF3 = 0 →
    let q := p.tick cart
    let line := q.scanline ≤ 239 ∨ q.scanline = 261
    let fetchDot := (1 ≤ q.cycle ∧ q.cycle ≤ 256) ∨ (321 ≤ q.cycle ∧ q.cycle ≤ 336)
    (line → fetchDot → q.cycle % 8 ≠ 0 → q.pipe = p.pipe <<< 4) ∧
    (line → fetchDot → q.cycle % 8 = 0 → ∃ row : BitVec 32, q.pipe = (p.pipe <<< 4) ||| row.setWidth 64 ∧
      ∀ j : Nat, j < 8 → row.extractLsb' (4 * j) 4 =
        p.atBits.extractLsb' 2 2 ++ BitVec.ofBool (p.ptHigh.getLsbD j) ++ BitVec.ofBool (p.ptLow.getLsbD j)) ∧
    (¬(line ∧ fetchDot) → q.pipe = p.pipe ∧ q.ntByte = p.ntByte ∧ q.atBits = p.atBits ∧ q.ptLow = p.ptLow ∧
      q.ptHigh = p.ptHigh) ∧
    (q.scanline = 261 → 280 ≤ q.cycle → q.cycle ≤ 304 →
      q.v = p.t.extractLsb' 11 4 ++ p.v.extractLsb' 10 1 ++ p.t.extractLsb' 5 5 ++ p.v.extractLsb' 0 5) ∧
    (¬line ∨ (¬(fetchDot ∧ q.cycle % 8 = 0) ∧ q.cycle ≠ 257 ∧ ¬(q.scanline = 261 ∧ 280 ≤ q.cycle ∧ q.cycle ≤ 304)) →
      q.v = p.v)

/-- R352, R353, R354: the scroll updates, on the dots that do them, with rendering on. Coarse X wraps from 31 and toggles
the horizontal nametable bit on every eighth fetch dot; at dot 256, after that, fine Y counts, then coarse Y, from 29 to 0
with the vertical nametable bit toggled and from 31 to 0 without; dot 257 copies coarse X and the horizontal nametable bit
from T. -/
def Obligations.ScrollUpdates : Prop :=
  ∀ (cart : Cartridge) (p : Ppu), p.showBg = true ∨ p.showSpr = true →
    let q := p.tick cart
    let nextX (v : BitVec 15) : BitVec 15 :=
      if v.extractLsb' 0 5 = 31 then v.extractLsb' 11 4 ++ ~~~v.extractLsb' 10 1 ++ v.extractLsb' 5 5 ++ 0#5
      else v.extractLsb' 5 10 ++ (v.extractLsb' 0 5 + 1)
    let nextY (v : BitVec 15) : BitVec 15 :=
      if v.extractLsb' 12 3 ≠ 7 then (v.extractLsb' 12 3 + 1) ++ v.extractLsb' 0 12
      else if v.extractLsb' 5 5 = 29 then 0#3 ++ ~~~v.extractLsb' 11 1 ++ v.extractLsb' 10 1 ++ 0#5 ++ v.extractLsb' 0 5
      else 0#3 ++ v.extractLsb' 10 2 ++ (v.extractLsb' 5 5 + 1) ++ v.extractLsb' 0 5
    q.scanline ≤ 239 ∨ q.scanline = 261 →
      ((1 ≤ q.cycle ∧ q.cycle < 256) ∨ (321 ≤ q.cycle ∧ q.cycle ≤ 336) → q.cycle % 8 = 0 → q.v = nextX p.v) ∧
      (q.cycle = 256 → q.v = nextY (nextX p.v)) ∧
      (q.cycle = 257 → q.v = p.v.extractLsb' 11 4 ++ p.t.extractLsb' 10 1 ++ p.v.extractLsb' 5 5 ++ p.t.extractLsb' 0 5)
end

