-- ==== Sys2Proof/Laws/Memory.lean ====
section
/-! SUPPORT. The laws of a storage: read after write, and that every operation keeps the canonical form, under which
equal contents are equal lists. -/

namespace Sys2Proof.Machine

variable {n : Nat}

@[simp] theorem Cells.read_nil (a : Nat) : Cells.read ([] : List (Nat × BitVec n)) a = unlisted := rfl

@[simp] theorem Cells.wfFrom_nil (lo : Nat) : Cells.wfFrom lo ([] : List (Nat × BitVec n)) = true := rfl

theorem Cells.wfFrom_cons {lo k : Nat} {v : BitVec n} {rest : List (Nat × BitVec n)} :
    Cells.wfFrom lo ((k, v) :: rest) = true ↔ lo ≤ k ∧ v ≠ unlisted ∧ Cells.wfFrom (k + 1) rest = true := by
  simp [Cells.wfFrom, and_assoc]

theorem Cells.wfFrom_mono {m : List (Nat × BitVec n)} {lo lo' : Nat} (hle : lo' ≤ lo)
    (h : Cells.wfFrom lo m = true) : Cells.wfFrom lo' m = true := by
  cases m with
  | nil => rfl
  | cons c rest =>
    obtain ⟨k, v⟩ := c
    rw [Cells.wfFrom_cons] at h ⊢
    exact ⟨by omega, h.2⟩

/-- A cell below every listed one is unlisted. -/
theorem Cells.read_of_lt {m : List (Nat × BitVec n)} {lo a : Nat} (h : Cells.wfFrom lo m = true) (ha : a < lo) :
    Cells.read m a = unlisted := by
  induction m generalizing lo with
  | nil => rfl
  | cons c rest ih =>
    obtain ⟨k, v⟩ := c
    rw [Cells.wfFrom_cons] at h
    have hk : k ≠ a := by omega
    simp only [Cells.read, hk, if_false]
    exact ih h.2.2 (by omega)

theorem Cells.read_cons_self (m : List (Nat × BitVec n)) {lo a : Nat} (v : BitVec n) (h : Cells.wfFrom lo m = true)
    (ha : a < lo) : Cells.read (Cells.cons a v m) a = v := by
  unfold Cells.cons
  split
  · rename_i hv
    rw [Cells.read_of_lt h ha, hv]
  · simp [Cells.read]

theorem Cells.read_cons_ne (m : List (Nat × BitVec n)) {a b : Nat} (v : BitVec n) (hab : a ≠ b) :
    Cells.read (Cells.cons a v m) b = Cells.read m b := by
  unfold Cells.cons
  split
  · rfl
  · simp [Cells.read, hab]

/-- A write keeps the canonical form. -/
theorem Cells.wfFrom_write {m : List (Nat × BitVec n)} {lo a : Nat} (v : BitVec n) (h : Cells.wfFrom lo m = true)
    (ha : lo ≤ a) : Cells.wfFrom lo (Cells.write m a v) = true := by
  have hcons : ∀ {lo : Nat} {rest : List (Nat × BitVec n)}, Cells.wfFrom (a + 1) rest = true → lo ≤ a →
      Cells.wfFrom lo (Cells.cons a v rest) = true := by
    intro lo rest hr hle
    unfold Cells.cons
    split
    · exact Cells.wfFrom_mono (by omega) hr
    · rename_i hv
      exact Cells.wfFrom_cons.2 ⟨hle, hv, hr⟩
  induction m generalizing lo with
  | nil => exact hcons rfl ha
  | cons c rest ih =>
    obtain ⟨k, u⟩ := c
    obtain ⟨hk, hu, hr⟩ := Cells.wfFrom_cons.1 h
    unfold Cells.write
    split
    · exact hcons (Cells.wfFrom_cons.2 ⟨by omega, hu, hr⟩) ha
    · split
      · rename_i heq
        exact hcons (heq ▸ hr) ha
      · exact Cells.wfFrom_cons.2 ⟨hk, hu, ih hr (by omega)⟩

/-- A write keeps the canonical form. -/
theorem Cells.wf_write {m : List (Nat × BitVec n)} (a : Nat) (v : BitVec n) (h : Cells.wf m = true) :
    Cells.wf (Cells.write m a v) = true := Cells.wfFrom_write v h (Nat.zero_le a)

/-- A write keeps the canonical form of a byte storage. -/
theorem Memory.wf_write {m : Memory} (a : Nat) (v : Byte) (h : Memory.wf m = true) :
    Memory.wf (Cells.write m a v) = true := Cells.wf_write a v h

theorem Cells.below_cons {size k : Nat} {v : BitVec n} {rest : List (Nat × BitVec n)} :
    Cells.below size ((k, v) :: rest) = true ↔ k < size ∧ Cells.below size rest = true := by
  unfold Cells.below
  rw [List.all_cons, Bool.and_eq_true, decide_eq_true_eq]

/-- A write inside the storage stays inside it. -/
theorem Cells.below_write {m : List (Nat × BitVec n)} {size a : Nat} (v : BitVec n)
    (h : Cells.below size m = true) (ha : a < size) : Cells.below size (Cells.write m a v) = true := by
  have hcons : ∀ {rest : List (Nat × BitVec n)}, Cells.below size rest = true →
      Cells.below size (Cells.cons a v rest) = true := by
    intro rest hr
    unfold Cells.cons
    split
    · exact hr
    · exact Cells.below_cons.2 ⟨ha, hr⟩
  induction m with
  | nil => exact hcons rfl
  | cons c rest ih =>
    obtain ⟨k, u⟩ := c
    obtain ⟨hk, hr⟩ := Cells.below_cons.1 h
    unfold Cells.write
    split
    · exact hcons h
    · split
      · exact hcons hr
      · exact Cells.below_cons.2 ⟨hk, ih hr⟩

/-- The cell written holds the value written. -/
theorem Cells.read_write_self {m : List (Nat × BitVec n)} {lo : Nat} (a : Nat) (v : BitVec n)
    (h : Cells.wfFrom lo m = true) : Cells.read (Cells.write m a v) a = v := by
  induction m generalizing lo with
  | nil => exact Cells.read_cons_self [] v (Cells.wfFrom_nil (a + 1)) (by omega)
  | cons c rest ih =>
    obtain ⟨k, u⟩ := c
    obtain ⟨hk, hu, hr⟩ := Cells.wfFrom_cons.1 h
    unfold Cells.write
    split
    · rename_i hlt
      exact Cells.read_cons_self _ v (Cells.wfFrom_cons.2 ⟨Nat.le_refl k, hu, hr⟩) hlt
    · split
      · rename_i heq
        exact Cells.read_cons_self _ v (heq ▸ hr) (by omega)
      · rename_i hne
        have hne' : k ≠ a := fun e => hne e.symm
        simp only [Cells.read, hne', if_false]
        exact ih hr

/-- Every other cell is as before. -/
theorem Cells.read_write_ne (m : List (Nat × BitVec n)) {a b : Nat} (v : BitVec n) (hab : a ≠ b) :
    Cells.read (Cells.write m a v) b = Cells.read m b := by
  induction m with
  | nil => exact Cells.read_cons_ne [] v hab
  | cons c rest ih =>
    obtain ⟨k, u⟩ := c
    unfold Cells.write
    split
    · exact Cells.read_cons_ne _ v hab
    · split
      · rename_i heq
        rw [Cells.read_cons_ne _ v hab]
        have : k ≠ b := heq ▸ hab
        simp [Cells.read, this]
      · by_cases hkb : k = b
        · simp [Cells.read, hkb]
        · simp [Cells.read, hkb, ih]

/-- Two storages in canonical form with equal contents are equal. -/
theorem Cells.ext_of_wfFrom {m m' : List (Nat × BitVec n)} {lo lo' : Nat} (h : Cells.wfFrom lo m = true)
    (h' : Cells.wfFrom lo' m' = true) (hr : ∀ a, Cells.read m a = Cells.read m' a) : m = m' := by
  induction m generalizing lo lo' m' with
  | nil =>
    cases m' with
    | nil => rfl
    | cons c rest =>
      obtain ⟨k, v⟩ := c
      have := hr k
      simp only [Cells.read, if_true] at this
      exact absurd this.symm (Cells.wfFrom_cons.1 h').2.1
  | cons c rest ih =>
    obtain ⟨k, v⟩ := c
    obtain ⟨_, hv, hrest⟩ := Cells.wfFrom_cons.1 h
    cases m' with
    | nil =>
      have := hr k
      simp only [Cells.read, if_true] at this
      exact absurd this hv
    | cons c' rest' =>
      obtain ⟨k', v'⟩ := c'
      obtain ⟨_, hv', hrest'⟩ := Cells.wfFrom_cons.1 h'
      have hk : k = k' := by
        rcases Nat.lt_trichotomy k k' with hlt | heq | hgt
        · have hk := hr k
          have hne : k' ≠ k := by omega
          simp only [Cells.read, if_true, hne, if_false] at hk
          exact absurd (hk.trans (Cells.read_of_lt hrest' (by omega))) hv
        · exact heq
        · have hk := hr k'
          have hne : k ≠ k' := by omega
          simp only [Cells.read, if_true, hne, if_false] at hk
          exact absurd (hk.symm.trans (Cells.read_of_lt hrest (by omega))) hv'
      subst hk
      have hvv : v = v' := by simpa [Cells.read] using hr k
      subst hvv
      have : rest = rest' := ih hrest hrest' fun a => by
        by_cases ha : k = a
        · subst ha
          rw [Cells.read_of_lt hrest (by omega), Cells.read_of_lt hrest' (by omega)]
        · simpa [Cells.read, ha] using hr a
      rw [this]

/-- A storage built from bytes is in canonical form. -/
theorem Memory.wfFrom_ofBytesFrom (bytes : List Byte) (start : Nat) :
    Cells.wfFrom start (Memory.ofBytesFrom start bytes) = true := by
  induction bytes generalizing start with
  | nil => rfl
  | cons b rest ih =>
    unfold Memory.ofBytesFrom Cells.cons
    split
    · exact Cells.wfFrom_mono (by omega) (ih (start + 1))
    · rename_i hb
      exact Cells.wfFrom_cons.2 ⟨Nat.le_refl start, hb, ih (start + 1)⟩

/-- A storage built from bytes is in canonical form. -/
theorem Memory.wf_ofBytes (bytes : List Byte) : Memory.wf (Memory.ofBytes bytes) = true :=
  Memory.wfFrom_ofBytesFrom bytes 0

/-- A storage built from bytes holds them. -/
theorem Memory.read_ofBytesFrom (bytes : List Byte) (start k : Nat) :
    Cells.read (Memory.ofBytesFrom start bytes) (start + k) = bytes.getD k 0 := by
  induction bytes generalizing start k with
  | nil => rfl
  | cons b rest ih =>
    unfold Memory.ofBytesFrom
    cases k with
    | zero => exact Cells.read_cons_self _ b (Memory.wfFrom_ofBytesFrom rest (start + 1)) (by omega)
    | succ k =>
      rw [Cells.read_cons_ne _ b (by omega), show start + (k + 1) = (start + 1) + k by omega, ih]
      rfl

/-- A storage built from bytes holds them from cell 0 on. -/
theorem Memory.read_ofBytes (bytes : List Byte) (k : Nat) : Cells.read (Memory.ofBytes bytes) k = bytes.getD k 0 := by
  have h := Memory.read_ofBytesFrom bytes 0 k
  rwa [Nat.zero_add] at h

/-- A storage built from bytes is within its size. -/
theorem Memory.below_ofBytesFrom (bytes : List Byte) {start size : Nat} (h : start + bytes.length ≤ size) :
    Cells.below size (Memory.ofBytesFrom start bytes) = true := by
  induction bytes generalizing start with
  | nil => rfl
  | cons b rest ih =>
    simp only [List.length_cons] at h
    unfold Memory.ofBytesFrom Cells.cons
    split
    · exact ih (by omega)
    · exact Cells.below_cons.2 ⟨by omega, ih (by omega)⟩

end Sys2Proof.Machine
end

