-- ==== Sys2Proof/Laws/State.lean ====
section
/-! SUPPORT. One lemma for each field of each named update of State, so that no later proof unfolds a record update. -/

namespace Sys2Proof.Machine

variable (s : State)

@[simp] theorem State.setA_a (v : Byte) : (s.setA v).cpu.a = v := rfl
@[simp] theorem State.setA_x (v : Byte) : (s.setA v).cpu.x = s.cpu.x := rfl
@[simp] theorem State.setA_y (v : Byte) : (s.setA v).cpu.y = s.cpu.y := rfl
@[simp] theorem State.setA_sp (v : Byte) : (s.setA v).cpu.sp = s.cpu.sp := rfl
@[simp] theorem State.setA_pc (v : Byte) : (s.setA v).cpu.pc = s.cpu.pc := rfl
@[simp] theorem State.setA_p (v : Byte) : (s.setA v).cpu.p = s.cpu.p := rfl
@[simp] theorem State.setA_cycles (v : Byte) : (s.setA v).cpu.cycles = s.cpu.cycles := rfl
@[simp] theorem State.setA_pending (v : Byte) : (s.setA v).cpu.pending = s.cpu.pending := rfl
@[simp] theorem State.setA_remaining (v : Byte) : (s.setA v).cpu.remaining = s.cpu.remaining := rfl
@[simp] theorem State.setA_ram (v : Byte) : (s.setA v).ram = s.ram := rfl
@[simp] theorem State.setA_ppu (v : Byte) : (s.setA v).ppu = s.ppu := rfl
@[simp] theorem State.setA_cart (v : Byte) : (s.setA v).cart = s.cart := rfl
@[simp] theorem State.setA_ctrl (v : Byte) : (s.setA v).ctrl = s.ctrl := rfl
@[simp] theorem State.setA_pad1 (v : Byte) : (s.setA v).pad1 = s.pad1 := rfl
@[simp] theorem State.setA_pad2 (v : Byte) : (s.setA v).pad2 = s.pad2 := rfl
@[simp] theorem State.setA_accessMode (v : Byte) : (s.setA v).accessMode = s.accessMode := rfl
@[simp] theorem State.setA_inputs (v : Byte) : (s.setA v).inputs = s.inputs := rfl
@[simp] theorem State.setA_fault (v : Byte) : (s.setA v).fault = s.fault := rfl

@[simp] theorem State.setX_a (v : Byte) : (s.setX v).cpu.a = s.cpu.a := rfl
@[simp] theorem State.setX_x (v : Byte) : (s.setX v).cpu.x = v := rfl
@[simp] theorem State.setX_y (v : Byte) : (s.setX v).cpu.y = s.cpu.y := rfl
@[simp] theorem State.setX_sp (v : Byte) : (s.setX v).cpu.sp = s.cpu.sp := rfl
@[simp] theorem State.setX_pc (v : Byte) : (s.setX v).cpu.pc = s.cpu.pc := rfl
@[simp] theorem State.setX_p (v : Byte) : (s.setX v).cpu.p = s.cpu.p := rfl
@[simp] theorem State.setX_cycles (v : Byte) : (s.setX v).cpu.cycles = s.cpu.cycles := rfl
@[simp] theorem State.setX_pending (v : Byte) : (s.setX v).cpu.pending = s.cpu.pending := rfl
@[simp] theorem State.setX_remaining (v : Byte) : (s.setX v).cpu.remaining = s.cpu.remaining := rfl
@[simp] theorem State.setX_ram (v : Byte) : (s.setX v).ram = s.ram := rfl
@[simp] theorem State.setX_ppu (v : Byte) : (s.setX v).ppu = s.ppu := rfl
@[simp] theorem State.setX_cart (v : Byte) : (s.setX v).cart = s.cart := rfl
@[simp] theorem State.setX_ctrl (v : Byte) : (s.setX v).ctrl = s.ctrl := rfl
@[simp] theorem State.setX_pad1 (v : Byte) : (s.setX v).pad1 = s.pad1 := rfl
@[simp] theorem State.setX_pad2 (v : Byte) : (s.setX v).pad2 = s.pad2 := rfl
@[simp] theorem State.setX_accessMode (v : Byte) : (s.setX v).accessMode = s.accessMode := rfl
@[simp] theorem State.setX_inputs (v : Byte) : (s.setX v).inputs = s.inputs := rfl
@[simp] theorem State.setX_fault (v : Byte) : (s.setX v).fault = s.fault := rfl

@[simp] theorem State.setY_a (v : Byte) : (s.setY v).cpu.a = s.cpu.a := rfl
@[simp] theorem State.setY_x (v : Byte) : (s.setY v).cpu.x = s.cpu.x := rfl
@[simp] theorem State.setY_y (v : Byte) : (s.setY v).cpu.y = v := rfl
@[simp] theorem State.setY_sp (v : Byte) : (s.setY v).cpu.sp = s.cpu.sp := rfl
@[simp] theorem State.setY_pc (v : Byte) : (s.setY v).cpu.pc = s.cpu.pc := rfl
@[simp] theorem State.setY_p (v : Byte) : (s.setY v).cpu.p = s.cpu.p := rfl
@[simp] theorem State.setY_cycles (v : Byte) : (s.setY v).cpu.cycles = s.cpu.cycles := rfl
@[simp] theorem State.setY_pending (v : Byte) : (s.setY v).cpu.pending = s.cpu.pending := rfl
@[simp] theorem State.setY_remaining (v : Byte) : (s.setY v).cpu.remaining = s.cpu.remaining := rfl
@[simp] theorem State.setY_ram (v : Byte) : (s.setY v).ram = s.ram := rfl
@[simp] theorem State.setY_ppu (v : Byte) : (s.setY v).ppu = s.ppu := rfl
@[simp] theorem State.setY_cart (v : Byte) : (s.setY v).cart = s.cart := rfl
@[simp] theorem State.setY_ctrl (v : Byte) : (s.setY v).ctrl = s.ctrl := rfl
@[simp] theorem State.setY_pad1 (v : Byte) : (s.setY v).pad1 = s.pad1 := rfl
@[simp] theorem State.setY_pad2 (v : Byte) : (s.setY v).pad2 = s.pad2 := rfl
@[simp] theorem State.setY_accessMode (v : Byte) : (s.setY v).accessMode = s.accessMode := rfl
@[simp] theorem State.setY_inputs (v : Byte) : (s.setY v).inputs = s.inputs := rfl
@[simp] theorem State.setY_fault (v : Byte) : (s.setY v).fault = s.fault := rfl

@[simp] theorem State.setSp_a (v : Byte) : (s.setSp v).cpu.a = s.cpu.a := rfl
@[simp] theorem State.setSp_x (v : Byte) : (s.setSp v).cpu.x = s.cpu.x := rfl
@[simp] theorem State.setSp_y (v : Byte) : (s.setSp v).cpu.y = s.cpu.y := rfl
@[simp] theorem State.setSp_sp (v : Byte) : (s.setSp v).cpu.sp = v := rfl
@[simp] theorem State.setSp_pc (v : Byte) : (s.setSp v).cpu.pc = s.cpu.pc := rfl
@[simp] theorem State.setSp_p (v : Byte) : (s.setSp v).cpu.p = s.cpu.p := rfl
@[simp] theorem State.setSp_cycles (v : Byte) : (s.setSp v).cpu.cycles = s.cpu.cycles := rfl
@[simp] theorem State.setSp_pending (v : Byte) : (s.setSp v).cpu.pending = s.cpu.pending := rfl
@[simp] theorem State.setSp_remaining (v : Byte) : (s.setSp v).cpu.remaining = s.cpu.remaining := rfl
@[simp] theorem State.setSp_ram (v : Byte) : (s.setSp v).ram = s.ram := rfl
@[simp] theorem State.setSp_ppu (v : Byte) : (s.setSp v).ppu = s.ppu := rfl
@[simp] theorem State.setSp_cart (v : Byte) : (s.setSp v).cart = s.cart := rfl
@[simp] theorem State.setSp_ctrl (v : Byte) : (s.setSp v).ctrl = s.ctrl := rfl
@[simp] theorem State.setSp_pad1 (v : Byte) : (s.setSp v).pad1 = s.pad1 := rfl
@[simp] theorem State.setSp_pad2 (v : Byte) : (s.setSp v).pad2 = s.pad2 := rfl
@[simp] theorem State.setSp_accessMode (v : Byte) : (s.setSp v).accessMode = s.accessMode := rfl
@[simp] theorem State.setSp_inputs (v : Byte) : (s.setSp v).inputs = s.inputs := rfl
@[simp] theorem State.setSp_fault (v : Byte) : (s.setSp v).fault = s.fault := rfl

@[simp] theorem State.setPc_a (v : Addr) : (s.setPc v).cpu.a = s.cpu.a := rfl
@[simp] theorem State.setPc_x (v : Addr) : (s.setPc v).cpu.x = s.cpu.x := rfl
@[simp] theorem State.setPc_y (v : Addr) : (s.setPc v).cpu.y = s.cpu.y := rfl
@[simp] theorem State.setPc_sp (v : Addr) : (s.setPc v).cpu.sp = s.cpu.sp := rfl
@[simp] theorem State.setPc_pc (v : Addr) : (s.setPc v).cpu.pc = v := rfl
@[simp] theorem State.setPc_p (v : Addr) : (s.setPc v).cpu.p = s.cpu.p := rfl
@[simp] theorem State.setPc_cycles (v : Addr) : (s.setPc v).cpu.cycles = s.cpu.cycles := rfl
@[simp] theorem State.setPc_pending (v : Addr) : (s.setPc v).cpu.pending = s.cpu.pending := rfl
@[simp] theorem State.setPc_remaining (v : Addr) : (s.setPc v).cpu.remaining = s.cpu.remaining := rfl
@[simp] theorem State.setPc_ram (v : Addr) : (s.setPc v).ram = s.ram := rfl
@[simp] theorem State.setPc_ppu (v : Addr) : (s.setPc v).ppu = s.ppu := rfl
@[simp] theorem State.setPc_cart (v : Addr) : (s.setPc v).cart = s.cart := rfl
@[simp] theorem State.setPc_ctrl (v : Addr) : (s.setPc v).ctrl = s.ctrl := rfl
@[simp] theorem State.setPc_pad1 (v : Addr) : (s.setPc v).pad1 = s.pad1 := rfl
@[simp] theorem State.setPc_pad2 (v : Addr) : (s.setPc v).pad2 = s.pad2 := rfl
@[simp] theorem State.setPc_accessMode (v : Addr) : (s.setPc v).accessMode = s.accessMode := rfl
@[simp] theorem State.setPc_inputs (v : Addr) : (s.setPc v).inputs = s.inputs := rfl
@[simp] theorem State.setPc_fault (v : Addr) : (s.setPc v).fault = s.fault := rfl

@[simp] theorem State.setP_a (p : Status) : (s.setP p).cpu.a = s.cpu.a := rfl
@[simp] theorem State.setP_x (p : Status) : (s.setP p).cpu.x = s.cpu.x := rfl
@[simp] theorem State.setP_y (p : Status) : (s.setP p).cpu.y = s.cpu.y := rfl
@[simp] theorem State.setP_sp (p : Status) : (s.setP p).cpu.sp = s.cpu.sp := rfl
@[simp] theorem State.setP_pc (p : Status) : (s.setP p).cpu.pc = s.cpu.pc := rfl
@[simp] theorem State.setP_p (p : Status) : (s.setP p).cpu.p = p := rfl
@[simp] theorem State.setP_cycles (p : Status) : (s.setP p).cpu.cycles = s.cpu.cycles := rfl
@[simp] theorem State.setP_pending (p : Status) : (s.setP p).cpu.pending = s.cpu.pending := rfl
@[simp] theorem State.setP_remaining (p : Status) : (s.setP p).cpu.remaining = s.cpu.remaining := rfl
@[simp] theorem State.setP_ram (p : Status) : (s.setP p).ram = s.ram := rfl
@[simp] theorem State.setP_ppu (p : Status) : (s.setP p).ppu = s.ppu := rfl
@[simp] theorem State.setP_cart (p : Status) : (s.setP p).cart = s.cart := rfl
@[simp] theorem State.setP_ctrl (p : Status) : (s.setP p).ctrl = s.ctrl := rfl
@[simp] theorem State.setP_pad1 (p : Status) : (s.setP p).pad1 = s.pad1 := rfl
@[simp] theorem State.setP_pad2 (p : Status) : (s.setP p).pad2 = s.pad2 := rfl
@[simp] theorem State.setP_accessMode (p : Status) : (s.setP p).accessMode = s.accessMode := rfl
@[simp] theorem State.setP_inputs (p : Status) : (s.setP p).inputs = s.inputs := rfl
@[simp] theorem State.setP_fault (p : Status) : (s.setP p).fault = s.fault := rfl

@[simp] theorem State.setPending_a (k : Option Interrupt) : (s.setPending k).cpu.a = s.cpu.a := rfl
@[simp] theorem State.setPending_x (k : Option Interrupt) : (s.setPending k).cpu.x = s.cpu.x := rfl
@[simp] theorem State.setPending_y (k : Option Interrupt) : (s.setPending k).cpu.y = s.cpu.y := rfl
@[simp] theorem State.setPending_sp (k : Option Interrupt) : (s.setPending k).cpu.sp = s.cpu.sp := rfl
@[simp] theorem State.setPending_pc (k : Option Interrupt) : (s.setPending k).cpu.pc = s.cpu.pc := rfl
@[simp] theorem State.setPending_p (k : Option Interrupt) : (s.setPending k).cpu.p = s.cpu.p := rfl
@[simp] theorem State.setPending_cycles (k : Option Interrupt) : (s.setPending k).cpu.cycles = s.cpu.cycles := rfl
@[simp] theorem State.setPending_pending (k : Option Interrupt) : (s.setPending k).cpu.pending = k := rfl
@[simp] theorem State.setPending_remaining (k : Option Interrupt) : (s.setPending k).cpu.remaining = s.cpu.remaining := rfl
@[simp] theorem State.setPending_ram (k : Option Interrupt) : (s.setPending k).ram = s.ram := rfl
@[simp] theorem State.setPending_ppu (k : Option Interrupt) : (s.setPending k).ppu = s.ppu := rfl
@[simp] theorem State.setPending_cart (k : Option Interrupt) : (s.setPending k).cart = s.cart := rfl
@[simp] theorem State.setPending_ctrl (k : Option Interrupt) : (s.setPending k).ctrl = s.ctrl := rfl
@[simp] theorem State.setPending_pad1 (k : Option Interrupt) : (s.setPending k).pad1 = s.pad1 := rfl
@[simp] theorem State.setPending_pad2 (k : Option Interrupt) : (s.setPending k).pad2 = s.pad2 := rfl
@[simp] theorem State.setPending_accessMode (k : Option Interrupt) : (s.setPending k).accessMode = s.accessMode := rfl
@[simp] theorem State.setPending_inputs (k : Option Interrupt) : (s.setPending k).inputs = s.inputs := rfl
@[simp] theorem State.setPending_fault (k : Option Interrupt) : (s.setPending k).fault = s.fault := rfl

@[simp] theorem State.setRemaining_a (n : Nat) : (s.setRemaining n).cpu.a = s.cpu.a := rfl
@[simp] theorem State.setRemaining_x (n : Nat) : (s.setRemaining n).cpu.x = s.cpu.x := rfl
@[simp] theorem State.setRemaining_y (n : Nat) : (s.setRemaining n).cpu.y = s.cpu.y := rfl
@[simp] theorem State.setRemaining_sp (n : Nat) : (s.setRemaining n).cpu.sp = s.cpu.sp := rfl
@[simp] theorem State.setRemaining_pc (n : Nat) : (s.setRemaining n).cpu.pc = s.cpu.pc := rfl
@[simp] theorem State.setRemaining_p (n : Nat) : (s.setRemaining n).cpu.p = s.cpu.p := rfl
@[simp] theorem State.setRemaining_cycles (n : Nat) : (s.setRemaining n).cpu.cycles = s.cpu.cycles := rfl
@[simp] theorem State.setRemaining_pending (n : Nat) : (s.setRemaining n).cpu.pending = s.cpu.pending := rfl
@[simp] theorem State.setRemaining_remaining (n : Nat) : (s.setRemaining n).cpu.remaining = n := rfl
@[simp] theorem State.setRemaining_ram (n : Nat) : (s.setRemaining n).ram = s.ram := rfl
@[simp] theorem State.setRemaining_ppu (n : Nat) : (s.setRemaining n).ppu = s.ppu := rfl
@[simp] theorem State.setRemaining_cart (n : Nat) : (s.setRemaining n).cart = s.cart := rfl
@[simp] theorem State.setRemaining_ctrl (n : Nat) : (s.setRemaining n).ctrl = s.ctrl := rfl
@[simp] theorem State.setRemaining_pad1 (n : Nat) : (s.setRemaining n).pad1 = s.pad1 := rfl
@[simp] theorem State.setRemaining_pad2 (n : Nat) : (s.setRemaining n).pad2 = s.pad2 := rfl
@[simp] theorem State.setRemaining_accessMode (n : Nat) : (s.setRemaining n).accessMode = s.accessMode := rfl
@[simp] theorem State.setRemaining_inputs (n : Nat) : (s.setRemaining n).inputs = s.inputs := rfl
@[simp] theorem State.setRemaining_fault (n : Nat) : (s.setRemaining n).fault = s.fault := rfl

@[simp] theorem State.charge_a (n : Nat) : (s.charge n).cpu.a = s.cpu.a := rfl
@[simp] theorem State.charge_x (n : Nat) : (s.charge n).cpu.x = s.cpu.x := rfl
@[simp] theorem State.charge_y (n : Nat) : (s.charge n).cpu.y = s.cpu.y := rfl
@[simp] theorem State.charge_sp (n : Nat) : (s.charge n).cpu.sp = s.cpu.sp := rfl
@[simp] theorem State.charge_pc (n : Nat) : (s.charge n).cpu.pc = s.cpu.pc := rfl
@[simp] theorem State.charge_p (n : Nat) : (s.charge n).cpu.p = s.cpu.p := rfl
@[simp] theorem State.charge_cycles (n : Nat) : (s.charge n).cpu.cycles = s.cpu.cycles + BitVec.ofNat 64 n := rfl
@[simp] theorem State.charge_pending (n : Nat) : (s.charge n).cpu.pending = s.cpu.pending := rfl
@[simp] theorem State.charge_remaining (n : Nat) : (s.charge n).cpu.remaining = s.cpu.remaining := rfl
@[simp] theorem State.charge_ram (n : Nat) : (s.charge n).ram = s.ram := rfl
@[simp] theorem State.charge_ppu (n : Nat) : (s.charge n).ppu = s.ppu := rfl
@[simp] theorem State.charge_cart (n : Nat) : (s.charge n).cart = s.cart := rfl
@[simp] theorem State.charge_ctrl (n : Nat) : (s.charge n).ctrl = s.ctrl := rfl
@[simp] theorem State.charge_pad1 (n : Nat) : (s.charge n).pad1 = s.pad1 := rfl
@[simp] theorem State.charge_pad2 (n : Nat) : (s.charge n).pad2 = s.pad2 := rfl
@[simp] theorem State.charge_accessMode (n : Nat) : (s.charge n).accessMode = s.accessMode := rfl
@[simp] theorem State.charge_inputs (n : Nat) : (s.charge n).inputs = s.inputs := rfl
@[simp] theorem State.charge_fault (n : Nat) : (s.charge n).fault = s.fault := rfl

@[simp] theorem State.advancePc_a (n : Nat) : (s.advancePc n).cpu.a = s.cpu.a := rfl
@[simp] theorem State.advancePc_x (n : Nat) : (s.advancePc n).cpu.x = s.cpu.x := rfl
@[simp] theorem State.advancePc_y (n : Nat) : (s.advancePc n).cpu.y = s.cpu.y := rfl
@[simp] theorem State.advancePc_sp (n : Nat) : (s.advancePc n).cpu.sp = s.cpu.sp := rfl
@[simp] theorem State.advancePc_pc (n : Nat) : (s.advancePc n).cpu.pc = s.cpu.pc + BitVec.ofNat 16 n := rfl
@[simp] theorem State.advancePc_p (n : Nat) : (s.advancePc n).cpu.p = s.cpu.p := rfl
@[simp] theorem State.advancePc_cycles (n : Nat) : (s.advancePc n).cpu.cycles = s.cpu.cycles := rfl
@[simp] theorem State.advancePc_pending (n : Nat) : (s.advancePc n).cpu.pending = s.cpu.pending := rfl
@[simp] theorem State.advancePc_remaining (n : Nat) : (s.advancePc n).cpu.remaining = s.cpu.remaining := rfl
@[simp] theorem State.advancePc_ram (n : Nat) : (s.advancePc n).ram = s.ram := rfl
@[simp] theorem State.advancePc_ppu (n : Nat) : (s.advancePc n).ppu = s.ppu := rfl
@[simp] theorem State.advancePc_cart (n : Nat) : (s.advancePc n).cart = s.cart := rfl
@[simp] theorem State.advancePc_ctrl (n : Nat) : (s.advancePc n).ctrl = s.ctrl := rfl
@[simp] theorem State.advancePc_pad1 (n : Nat) : (s.advancePc n).pad1 = s.pad1 := rfl
@[simp] theorem State.advancePc_pad2 (n : Nat) : (s.advancePc n).pad2 = s.pad2 := rfl
@[simp] theorem State.advancePc_accessMode (n : Nat) : (s.advancePc n).accessMode = s.accessMode := rfl
@[simp] theorem State.advancePc_inputs (n : Nat) : (s.advancePc n).inputs = s.inputs := rfl
@[simp] theorem State.advancePc_fault (n : Nat) : (s.advancePc n).fault = s.fault := rfl

@[simp] theorem State.setRam_cpu (m : Memory) : (s.setRam m).cpu = s.cpu := rfl
@[simp] theorem State.setRam_ram (m : Memory) : (s.setRam m).ram = m := rfl
@[simp] theorem State.setRam_ppu (m : Memory) : (s.setRam m).ppu = s.ppu := rfl
@[simp] theorem State.setRam_cart (m : Memory) : (s.setRam m).cart = s.cart := rfl
@[simp] theorem State.setRam_ctrl (m : Memory) : (s.setRam m).ctrl = s.ctrl := rfl
@[simp] theorem State.setRam_pad1 (m : Memory) : (s.setRam m).pad1 = s.pad1 := rfl
@[simp] theorem State.setRam_pad2 (m : Memory) : (s.setRam m).pad2 = s.pad2 := rfl
@[simp] theorem State.setRam_accessMode (m : Memory) : (s.setRam m).accessMode = s.accessMode := rfl
@[simp] theorem State.setRam_inputs (m : Memory) : (s.setRam m).inputs = s.inputs := rfl
@[simp] theorem State.setRam_fault (m : Memory) : (s.setRam m).fault = s.fault := rfl

@[simp] theorem State.setPpu_cpu (p : Ppu) : (s.setPpu p).cpu = s.cpu := rfl
@[simp] theorem State.setPpu_ram (p : Ppu) : (s.setPpu p).ram = s.ram := rfl
@[simp] theorem State.setPpu_ppu (p : Ppu) : (s.setPpu p).ppu = p := rfl
@[simp] theorem State.setPpu_cart (p : Ppu) : (s.setPpu p).cart = s.cart := rfl
@[simp] theorem State.setPpu_ctrl (p : Ppu) : (s.setPpu p).ctrl = s.ctrl := rfl
@[simp] theorem State.setPpu_pad1 (p : Ppu) : (s.setPpu p).pad1 = s.pad1 := rfl
@[simp] theorem State.setPpu_pad2 (p : Ppu) : (s.setPpu p).pad2 = s.pad2 := rfl
@[simp] theorem State.setPpu_accessMode (p : Ppu) : (s.setPpu p).accessMode = s.accessMode := rfl
@[simp] theorem State.setPpu_inputs (p : Ppu) : (s.setPpu p).inputs = s.inputs := rfl
@[simp] theorem State.setPpu_fault (p : Ppu) : (s.setPpu p).fault = s.fault := rfl

@[simp] theorem State.setCart_cpu (c : Cartridge) : (s.setCart c).cpu = s.cpu := rfl
@[simp] theorem State.setCart_ram (c : Cartridge) : (s.setCart c).ram = s.ram := rfl
@[simp] theorem State.setCart_ppu (c : Cartridge) : (s.setCart c).ppu = s.ppu := rfl
@[simp] theorem State.setCart_cart (c : Cartridge) : (s.setCart c).cart = c := rfl
@[simp] theorem State.setCart_ctrl (c : Cartridge) : (s.setCart c).ctrl = s.ctrl := rfl
@[simp] theorem State.setCart_pad1 (c : Cartridge) : (s.setCart c).pad1 = s.pad1 := rfl
@[simp] theorem State.setCart_pad2 (c : Cartridge) : (s.setCart c).pad2 = s.pad2 := rfl
@[simp] theorem State.setCart_accessMode (c : Cartridge) : (s.setCart c).accessMode = s.accessMode := rfl
@[simp] theorem State.setCart_inputs (c : Cartridge) : (s.setCart c).inputs = s.inputs := rfl
@[simp] theorem State.setCart_fault (c : Cartridge) : (s.setCart c).fault = s.fault := rfl

@[simp] theorem State.setCtrl_cpu (c : Controllers) : (s.setCtrl c).cpu = s.cpu := rfl
@[simp] theorem State.setCtrl_ram (c : Controllers) : (s.setCtrl c).ram = s.ram := rfl
@[simp] theorem State.setCtrl_ppu (c : Controllers) : (s.setCtrl c).ppu = s.ppu := rfl
@[simp] theorem State.setCtrl_cart (c : Controllers) : (s.setCtrl c).cart = s.cart := rfl
@[simp] theorem State.setCtrl_ctrl (c : Controllers) : (s.setCtrl c).ctrl = c := rfl
@[simp] theorem State.setCtrl_pad1 (c : Controllers) : (s.setCtrl c).pad1 = s.pad1 := rfl
@[simp] theorem State.setCtrl_pad2 (c : Controllers) : (s.setCtrl c).pad2 = s.pad2 := rfl
@[simp] theorem State.setCtrl_accessMode (c : Controllers) : (s.setCtrl c).accessMode = s.accessMode := rfl
@[simp] theorem State.setCtrl_inputs (c : Controllers) : (s.setCtrl c).inputs = s.inputs := rfl
@[simp] theorem State.setCtrl_fault (c : Controllers) : (s.setCtrl c).fault = s.fault := rfl

@[simp] theorem State.setOam_cpu (i : Nat) (v : Byte) : (s.setOam i v).cpu = s.cpu := rfl
@[simp] theorem State.setOam_ram (i : Nat) (v : Byte) : (s.setOam i v).ram = s.ram := rfl
@[simp] theorem State.setOam_ppu (i : Nat) (v : Byte) : (s.setOam i v).ppu = { s.ppu with oam := Cells.write s.ppu.oam i v } := rfl
@[simp] theorem State.setOam_cart (i : Nat) (v : Byte) : (s.setOam i v).cart = s.cart := rfl
@[simp] theorem State.setOam_ctrl (i : Nat) (v : Byte) : (s.setOam i v).ctrl = s.ctrl := rfl
@[simp] theorem State.setOam_pad1 (i : Nat) (v : Byte) : (s.setOam i v).pad1 = s.pad1 := rfl
@[simp] theorem State.setOam_pad2 (i : Nat) (v : Byte) : (s.setOam i v).pad2 = s.pad2 := rfl
@[simp] theorem State.setOam_accessMode (i : Nat) (v : Byte) : (s.setOam i v).accessMode = s.accessMode := rfl
@[simp] theorem State.setOam_inputs (i : Nat) (v : Byte) : (s.setOam i v).inputs = s.inputs := rfl
@[simp] theorem State.setOam_fault (i : Nat) (v : Byte) : (s.setOam i v).fault = s.fault := rfl

@[simp] theorem State.latch_cpu : (s.latch).cpu = s.cpu := rfl
@[simp] theorem State.latch_ram : (s.latch).ram = s.ram := rfl
@[simp] theorem State.latch_ppu : (s.latch).ppu = s.ppu := rfl
@[simp] theorem State.latch_cart : (s.latch).cart = s.cart := rfl
@[simp] theorem State.latch_ctrl : (s.latch).ctrl = { s.ctrl with buttons1 := s.pad1, buttons2 := s.pad2 } := rfl
@[simp] theorem State.latch_pad1 : (s.latch).pad1 = s.pad1 := rfl
@[simp] theorem State.latch_pad2 : (s.latch).pad2 = s.pad2 := rfl
@[simp] theorem State.latch_accessMode : (s.latch).accessMode = s.accessMode := rfl
@[simp] theorem State.latch_inputs : (s.latch).inputs = s.inputs := rfl
@[simp] theorem State.latch_fault : (s.latch).fault = s.fault := rfl

/-- The state after the shared part of the execute step. -/
theorem State.retire_eq (e : Entry) (size : Nat) (crossed : Bool) :
    s.retire e size crossed = (s.advancePc size).charge (e.cycles + if crossed then e.penalty else 0) := rfl

/-- The countdown a boundary leaves. -/
theorem State.schedule_eq (c0 : BitVec 64) : s.schedule c0 = s.setRemaining (s.cpu.cycles - c0).toNat := rfl

end Sys2Proof.Machine
end

