-- ==== Sys2Proof/Laws/Bus.lean ====
section
/-! SUPPORT. What the shared operations over the bus and the stack can do, said once each. -/

namespace Sys2Proof.Machine

/-! ### The decoder -/

theorem target_of_le_1FFF {a : Addr} (h : a.toNat ≤ 0x1FFF) : target a = .ram (a.toNat % 0x800) := by
  simp [target, h]

theorem target_of_ge_8000 {a : Addr} (h : 0x8000 ≤ a.toNat) : target a = .prg (a.toNat - 0x8000) := by
  have h1 : ¬a.toNat ≤ 0x1FFF := by omega
  have h2 : ¬a.toNat ≤ 0x3FFF := by omega
  have h3 : ¬a.toNat ≤ 0x4013 := by omega
  have h4 : ¬a.toNat = 0x4014 := by omega
  have h5 : ¬a.toNat = 0x4015 := by omega
  have h6 : ¬a.toNat = 0x4016 := by omega
  have h7 : ¬a.toNat = 0x4017 := by omega
  have h8 : ¬a.toNat ≤ 0x401F := by omega
  have h9 : ¬a.toNat ≤ 0x5FFF := by omega
  have h10 : ¬a.toNat ≤ 0x7FFF := by omega
  simp only [target, h1, h2, h3, h4, h5, h6, h7, h8, h9, h10, if_false]

theorem toNat_leWord (lo hi : Byte) : (leWord lo hi).toNat = hi.toNat * 256 + lo.toNat := by
  have := lo.isLt
  simp only [leWord, BitVec.toNat_append, Nat.shiftLeft_eq]
  rw [← Nat.shiftLeft_eq, ← Nat.shiftLeft_add_eq_or_of_lt this, Nat.shiftLeft_eq]

theorem leWord_bytes (w : Addr) : leWord (loByte w) (hiByte w) = w := by
  apply BitVec.eq_of_toNat_eq
  have := w.isLt
  rw [toNat_leWord]
  simp only [loByte, hiByte, BitVec.truncate_eq_setWidth, BitVec.toNat_setWidth, BitVec.toNat_ushiftRight,
    Nat.shiftRight_eq_div_pow]
  omega

theorem loByte_leWord (lo hi : Byte) : loByte (leWord lo hi) = lo := by
  apply BitVec.eq_of_toNat_eq
  have := lo.isLt
  have := hi.isLt
  simp only [loByte, BitVec.truncate_eq_setWidth, BitVec.toNat_setWidth, toNat_leWord]
  omega

theorem hiByte_leWord (lo hi : Byte) : hiByte (leWord lo hi) = hi := by
  apply BitVec.eq_of_toNat_eq
  have := lo.isLt
  have := hi.isLt
  simp only [hiByte, BitVec.truncate_eq_setWidth, BitVec.toNat_setWidth, BitVec.toNat_ushiftRight, toNat_leWord,
    Nat.shiftRight_eq_div_pow]
  omega

theorem target_stackAddr (sp : Byte) : target (stackAddr sp) = .ram (0x100 + sp.toNat) := by
  have hlt := sp.isLt
  have h : (stackAddr sp).toNat = 0x100 + sp.toNat := by rw [stackAddr, toNat_leWord]; simp
  rw [target_of_le_1FFF (by omega), h]
  congr 1
  omega

theorem target_zeroPage (o : Byte) : target (zeroPage o) = .ram o.toNat := by
  have hlt := o.isLt
  have h : (zeroPage o).toNat = o.toNat := by simp only [zeroPage, BitVec.toNat_setWidth]; omega
  rw [target_of_le_1FFF (by omega), h]
  congr 1
  omega

theorem target_of_wram {a : Addr} (h : 0x6000 ≤ a.toNat) (h' : a.toNat ≤ 0x7FFF) :
    target a = .wram (a.toNat - 0x6000) := by
  have h1 : ¬a.toNat ≤ 0x1FFF := by omega
  have h2 : ¬a.toNat ≤ 0x3FFF := by omega
  have h3 : ¬a.toNat ≤ 0x4013 := by omega
  have h4 : ¬a.toNat = 0x4014 := by omega
  have h5 : ¬a.toNat = 0x4015 := by omega
  have h6 : ¬a.toNat = 0x4016 := by omega
  have h7 : ¬a.toNat = 0x4017 := by omega
  have h8 : ¬a.toNat ≤ 0x401F := by omega
  have h9 : ¬a.toNat ≤ 0x5FFF := by omega
  simp only [target, h1, h2, h3, h4, h5, h6, h7, h8, h9, h', if_false, if_true]

/-- The addresses of each target, so that the decoder can be read backwards (R81). -/
theorem target_inv (a : Addr) :
    match target a with
    | .ram i => a.toNat ≤ 0x1FFF ∧ i = a.toNat % 0x800
    | .ppuPort r => 0x2000 ≤ a.toNat ∧ a.toNat ≤ 0x3FFF ∧ a.toNat % 8 = r.toNat
    | .apu => 0x4000 ≤ a.toNat ∧ a.toNat ≤ 0x4013
    | .oamDma => a.toNat = 0x4014
    | .apuStatus => a.toNat = 0x4015
    | .ctrl1 => a.toNat = 0x4016
    | .ctrl2 => a.toNat = 0x4017
    | .test => 0x4018 ≤ a.toNat ∧ a.toNat ≤ 0x401F
    | .unmapped => 0x4020 ≤ a.toNat ∧ a.toNat ≤ 0x5FFF
    | .wram i => 0x6000 ≤ a.toNat ∧ a.toNat ≤ 0x7FFF ∧ i = a.toNat - 0x6000
    | .prg o => 0x8000 ≤ a.toNat ∧ o = a.toNat - 0x8000 := by
  unfold target
  dsimp only
  by_cases h1 : a.toNat ≤ 0x1FFF
  · rw [if_pos h1]
    exact ⟨h1, rfl⟩
  by_cases h2 : a.toNat ≤ 0x3FFF
  · rw [if_neg h1, if_pos h2]
    exact ⟨by omega, h2, BitVec.toNat_setWidth 3 a ▸ rfl⟩
  by_cases h3 : a.toNat ≤ 0x4013
  · rw [if_neg h1, if_neg h2, if_pos h3]
    exact ⟨by omega, h3⟩
  by_cases h4 : a.toNat = 0x4014
  · rw [if_neg h1, if_neg h2, if_neg h3, if_pos h4]
    exact h4
  by_cases h5 : a.toNat = 0x4015
  · rw [if_neg h1, if_neg h2, if_neg h3, if_neg h4, if_pos h5]
    exact h5
  by_cases h6 : a.toNat = 0x4016
  · rw [if_neg h1, if_neg h2, if_neg h3, if_neg h4, if_neg h5, if_pos h6]
    exact h6
  by_cases h7 : a.toNat = 0x4017
  · rw [if_neg h1, if_neg h2, if_neg h3, if_neg h4, if_neg h5, if_neg h6, if_pos h7]
    exact h7
  by_cases h8 : a.toNat ≤ 0x401F
  · rw [if_neg h1, if_neg h2, if_neg h3, if_neg h4, if_neg h5, if_neg h6, if_neg h7, if_pos h8]
    exact ⟨by omega, h8⟩
  by_cases h9 : a.toNat ≤ 0x5FFF
  · rw [if_neg h1, if_neg h2, if_neg h3, if_neg h4, if_neg h5, if_neg h6, if_neg h7, if_neg h8, if_pos h9]
    exact ⟨by omega, h9⟩
  by_cases h10 : a.toNat ≤ 0x7FFF
  · rw [if_neg h1, if_neg h2, if_neg h3, if_neg h4, if_neg h5, if_neg h6, if_neg h7, if_neg h8, if_neg h9, if_pos h10]
    exact ⟨by omega, h10, rfl⟩
  rw [if_neg h1, if_neg h2, if_neg h3, if_neg h4, if_neg h5, if_neg h6, if_neg h7, if_neg h8, if_neg h9, if_neg h10]
  exact ⟨by omega, rfl⟩

/-- The device window 0x2000-0x5FFF selects no plain memory. -/
theorem plainMemory_device {a : Addr} (h : 0x2000 ≤ a.toNat) (h' : a.toNat ≤ 0x5FFF) : plainMemory a = false := by
  have := target_inv a
  unfold plainMemory
  split <;> simp_all <;> omega

/-- The four regions of the decoder. -/
theorem target_cases (a : Addr) :
    (a.toNat ≤ 0x1FFF ∧ target a = .ram (a.toNat % 0x800)) ∨
      (0x2000 ≤ a.toNat ∧ a.toNat ≤ 0x5FFF ∧ plainMemory a = false) ∨
      (0x6000 ≤ a.toNat ∧ a.toNat ≤ 0x7FFF ∧ target a = .wram (a.toNat - 0x6000)) ∨
      (0x8000 ≤ a.toNat ∧ target a = .prg (a.toNat - 0x8000)) := by
  by_cases h1 : a.toNat ≤ 0x1FFF
  · exact .inl ⟨h1, target_of_le_1FFF h1⟩
  · by_cases h2 : a.toNat ≤ 0x5FFF
    · exact .inr (.inl ⟨by omega, h2, plainMemory_device (by omega) h2⟩)
    · by_cases h3 : a.toNat ≤ 0x7FFF
      · exact .inr (.inr (.inl ⟨by omega, h3, target_of_wram (by omega) h3⟩))
      · exact .inr (.inr (.inr ⟨by omega, target_of_ge_8000 (by omega)⟩))

/-- A RAM index of the decoder is inside RAM. -/
theorem target_ram_lt {a : Addr} {i : Nat} (h : target a = .ram i) : i < 0x800 := by
  have := target_inv a
  rw [h] at this
  simp only at this
  omega

/-- A work RAM index of the decoder is inside work RAM. -/
theorem target_wram_lt {a : Addr} {i : Nat} (h : target a = .wram i) : i < 0x2000 := by
  have := target_inv a
  rw [h] at this
  simp only at this
  omega

/-! ### Reads -/

theorem read8_of_ram {a : Addr} {i : Nat} (h : target a = .ram i) (s : State) :
    read8 a s = .ok (Cells.read s.ram i, s) := by simp only [read8, h]

theorem read8_of_prg {a : Addr} {o : Nat} (h : target a = .prg o) (s : State) :
    read8 a s = .ok (s.cart.prgByte o, s) := by simp only [read8, h]

/-- A read of plain memory gives the byte there and changes nothing (R83, R92, R93). -/
theorem read8_of_peek {a : Addr} {s : State} {v : Byte} (h : s.peek a = some v) : read8 a s = .ok (v, s) := by
  unfold State.peek at h
  unfold read8
  split at h <;> simp_all

/-- What a bus read that completes can do, and where: it changes at most the PPU's status flags, toggle, buffer and V,
and the controllers. -/
theorem read8_ok {a : Addr} {s t : State} {v : Byte} (h : read8 a s = .ok (v, t)) :
    t = s ∨ (target a = .ppuPort 2 ∧ t = s.setPpu s.ppu.afterStatusRead) ∨
      (target a = .ppuPort 7 ∧ t = s.setPpu (s.ppu.afterDataRead s.cart)) ∨
      (target a = .ctrl1 ∧ t = (ctrlRead1 s).2) ∨ (target a = .ctrl2 ∧ t = (ctrlRead2 s).2) := by
  have prog : ∀ {r : FaultReason}, progErrRead r s = .ok (v, t) → t = s := by
    intro r h
    unfold progErrRead at h
    split at h
    · cases h
    · injection h with h; injection h with _ h; exact h.symm
  unfold read8 at h
  split at h
  · injection h with h; injection h with _ h; exact .inl h.symm
  · rename_i r ht
    unfold ppuRegRead at h
    split at h
    · rename_i hr
      injection h with h; injection h with _ h
      exact .inr (.inl ⟨by rw [ht, show r = 2 from BitVec.eq_of_toNat_eq hr], h.symm⟩)
    · injection h with h; injection h with _ h; exact .inl h.symm
    · rename_i hr
      injection h with h; injection h with _ h
      exact .inr (.inr (.inl ⟨by rw [ht, show r = 7 from BitVec.eq_of_toNat_eq hr], h.symm⟩))
    · exact .inl (prog h)
  · cases h
  · exact .inl (prog h)
  · injection h with h; injection h with _ h; exact .inl h.symm
  · rename_i ht; injection h with h; exact .inr (.inr (.inr (.inl ⟨ht, by rw [h]⟩)))
  · rename_i ht; injection h with h; exact .inr (.inr (.inr (.inr ⟨ht, by rw [h]⟩)))
  · injection h with h; injection h with _ h; exact .inl h.symm
  · exact .inl (prog h)
  · injection h with h; injection h with _ h; exact .inl h.symm
  · injection h with h; injection h with _ h; exact .inl h.symm

/-- A read of the controllers changes the controllers alone. -/
theorem ctrlRead1_snd (s : State) : ∃ c, (ctrlRead1 s).2 = s.setCtrl c := by
  unfold ctrlRead1
  split
  · exact ⟨_, rfl⟩
  · exact ⟨_, rfl⟩

theorem ctrlRead2_snd (s : State) : ∃ c, (ctrlRead2 s).2 = s.setCtrl c := by
  unfold ctrlRead2
  split
  · exact ⟨_, rfl⟩
  · exact ⟨_, rfl⟩

/-- A bus read that completes changes only the PPU and the controllers. -/
theorem read8_ok_parts {a : Addr} {s t : State} {v : Byte} (h : read8 a s = .ok (v, t)) :
    ∃ p c, t = (s.setPpu p).setCtrl c := by
  rcases read8_ok h with rfl | ⟨_, rfl⟩ | ⟨_, rfl⟩ | ⟨_, rfl⟩ | ⟨_, rfl⟩
  · exact ⟨t.ppu, t.ctrl, rfl⟩
  · exact ⟨s.ppu.afterStatusRead, s.ctrl, rfl⟩
  · exact ⟨s.ppu.afterDataRead s.cart, s.ctrl, rfl⟩
  · obtain ⟨c, hc⟩ := ctrlRead1_snd s
    exact ⟨s.ppu, c, hc⟩
  · obtain ⟨c, hc⟩ := ctrlRead2_snd s
    exact ⟨s.ppu, c, hc⟩

/-- The result of an access with the CPU of the states it carries replaced. -/
def withCpu {α : Type} (c : Cpu) : Except Fault (α × State) → Except Fault (α × State)
  | .ok (v, t) => .ok (v, { t with cpu := c })
  | .error f => .error (f.mapKept fun k => { k with cpu := c })

theorem ctrlRead1_cpu (c : Cpu) (s : State) :
    ctrlRead1 { s with cpu := c } = ((ctrlRead1 s).1, { (ctrlRead1 s).2 with cpu := c }) := by
  unfold ctrlRead1
  split <;> rfl

theorem ctrlRead2_cpu (c : Cpu) (s : State) :
    ctrlRead2 { s with cpu := c } = ((ctrlRead2 s).1, { (ctrlRead2 s).2 with cpu := c }) := by
  unfold ctrlRead2
  split <;> rfl

theorem progErrRead_cpu (r : FaultReason) (c : Cpu) (s : State) :
    progErrRead r { s with cpu := c } = withCpu c (progErrRead r s) := by
  obtain ⟨_, _, _, _, _, _, _, mode, _, _⟩ := s
  cases mode <;> rfl

/-- A bus read does not look at the CPU. -/
theorem read8_cpu (a : Addr) (c : Cpu) (s : State) : read8 a { s with cpu := c } = withCpu c (read8 a s) := by
  unfold read8
  cases target a with
  | ppuPort r =>
    simp only [ppuRegRead]
    split
    · rfl
    · rfl
    · rfl
    · exact progErrRead_cpu _ c s
  | oamDma => exact progErrRead_cpu _ c s
  | unmapped => exact progErrRead_cpu _ c s
  | ctrl1 => simp only [ctrlRead1_cpu]; rfl
  | ctrl2 => simp only [ctrlRead2_cpu]; rfl
  | _ => rfl

/-! ### The stack -/

/-- R98: a push writes the slot and moves SP down; it never faults (R309). -/
theorem push_eq (v : Byte) (s : State) :
    push v s = .ok ((s.setRam (Cells.write s.ram (0x100 + s.cpu.sp.toNat) v)).setSp (s.cpu.sp - 1)) := by
  simp only [push, write8, target_stackAddr]
  rfl

/-- R98: a pop moves SP up and reads the slot; it never faults (R309). -/
theorem pop_eq (s : State) :
    pop s = .ok (Cells.read s.ram (0x100 + (s.cpu.sp + 1).toNat), s.setSp (s.cpu.sp + 1)) := by
  rw [pop, read8_of_ram (target_stackAddr _)]
  rfl

/-- R99: the high byte in slot SP, the low byte in the slot below. -/
theorem push16_eq (w : Addr) (s : State) :
    push16 w s = .ok ((s.setRam (Cells.write (Cells.write s.ram (0x100 + s.cpu.sp.toNat) (hiByte w))
      (0x100 + (s.cpu.sp - 1).toNat) (loByte w))).setSp (s.cpu.sp - 1 - 1)) := by
  simp only [push16, push_eq]
  rfl

/-- R99: the low byte from slot SP + 1, the high byte from slot SP + 2. -/
theorem pop16_eq (s : State) :
    pop16 s = .ok (leWord (Cells.read s.ram (0x100 + (s.cpu.sp + 1).toNat))
      (Cells.read s.ram (0x100 + (s.cpu.sp + 1 + 1).toNat)), s.setSp (s.cpu.sp + 1 + 1)) := by
  simp only [pop16, pop_eq]
  rfl

/-- R117: a vector is read from PRG ROM, with no effect. -/
theorem read16_prg (a : Addr) (s : State) (h : 0x8000 ≤ a.toNat) (h' : a.toNat < 0xFFFF) :
    read16 a s = .ok (leWord (s.cart.prgByte (a.toNat - 0x8000)) (s.cart.prgByte (a.toNat + 1 - 0x8000)), s) := by
  have h1 : (a + 1).toNat = a.toNat + 1 := by
    rw [BitVec.toNat_add]
    change (a.toNat + 1) % 65536 = _
    omega
  simp only [read16, read8_of_prg (target_of_ge_8000 h)]
  rw [read8_of_prg (target_of_ge_8000 (by omega)), h1]

/-- R96: a zero-page pointer's second byte lies in page 0 too. -/
theorem nextInPage_zeroPage : ∀ o : Byte, nextInPage (zeroPage o) = zeroPage (o + 1) := by
  decide +kernel

/-- R96 with a zero-page pointer. -/
theorem read16PageWrap_zeroPage (o : Byte) (s : State) :
    read16PageWrap (zeroPage o) s = .ok (leWord (Cells.read s.ram o.toNat) (Cells.read s.ram (o + 1).toNat), s) := by
  simp only [read16PageWrap, nextInPage_zeroPage, read8_of_ram (target_zeroPage _)]

/-- R274, R405: taking an interrupt, in full. -/
theorem enterInterrupt_eq (ret : Addr) (brk : Bool) (vector : Addr) (s : State) (h : 0x8000 ≤ vector.toNat)
    (h' : vector.toNat < 0xFFFF) :
    enterInterrupt ret brk vector s = .ok
      { s with
        ram := Cells.write (Cells.write (Cells.write s.ram (0x100 + s.cpu.sp.toNat) (hiByte ret))
          (0x100 + (s.cpu.sp - 1).toNat) (loByte ret)) (0x100 + (s.cpu.sp - 1 - 1).toNat) (s.cpu.p.image brk)
        cpu :=
          { s.cpu with
            sp := s.cpu.sp - 1 - 1 - 1
            p := { s.cpu.p with i := true }
            pc := leWord (s.cart.prgByte (vector.toNat - 0x8000)) (s.cart.prgByte (vector.toNat + 1 - 0x8000)) } } := by
  simp only [enterInterrupt, push16_eq, push_eq, read16_prg _ _ h h']
  rfl

/-- R273: the return from an interrupt, in full. -/
theorem leaveInterrupt_eq (s : State) :
    leaveInterrupt s = .ok
      { s with
        cpu :=
          { s.cpu with
            sp := s.cpu.sp + 1 + 1 + 1
            p := Status.ofByte (Cells.read s.ram (0x100 + (s.cpu.sp + 1).toNat))
            pc := leWord (Cells.read s.ram (0x100 + (s.cpu.sp + 1 + 1).toNat))
              (Cells.read s.ram (0x100 + (s.cpu.sp + 1 + 1 + 1).toNat)) } } := by
  simp only [leaveInterrupt, pop_eq, pop16_eq]
  rfl

/-! ### Plain memory -/

theorem peek_of_ram {a : Addr} {i : Nat} (h : target a = .ram i) (s : State) : s.peek a = some (Cells.read s.ram i) := by
  simp only [State.peek, h]

/-- What plain memory holds depends on RAM and the cartridge alone. -/
theorem peek_congr {s t : State} (hr : t.ram = s.ram) (hc : t.cart = s.cart) (b : Addr) : t.peek b = s.peek b := by
  simp only [State.peek, hr, hc]

/-- R83: a write of RAM reaches the addresses that select its byte, and no other. -/
theorem peek_write_ram_self {a : Addr} {i : Nat} (h : target a = .ram i) (v : Byte) {s : State}
    (hwf : Cells.wf s.ram = true) : (s.setRam (Cells.write s.ram i v)).peek a = some v := by
  rw [peek_of_ram h]
  exact congrArg some (Cells.read_write_self (lo := 0) _ _ hwf)

theorem peek_write_ram_ne {a b : Addr} {i : Nat} (h : target a = .ram i) (v : Byte) (s : State)
    (hb : target b ≠ target a) : (s.setRam (Cells.write s.ram i v)).peek b = s.peek b := by
  rw [h] at hb
  unfold State.peek
  split
  · rename_i j hj
    have : i ≠ j := fun e => hb (by rw [hj, e])
    exact congrArg some (Cells.read_write_ne _ _ this)
  all_goals rfl

/-- Two stack slots are different bytes. -/
theorem target_slot_ne (sp k : Byte) (hk : k ≠ 0) : target (stackAddr (sp - k)) ≠ target (stackAddr sp) := by
  rw [target_stackAddr, target_stackAddr]
  intro h
  injection h with h
  apply hk
  have := sp.isLt
  have := k.isLt
  apply BitVec.eq_of_toNat_eq
  rw [BitVec.toNat_sub] at h
  simp only [BitVec.ofNat_eq_ofNat, BitVec.toNat_ofNat]
  omega

/-- R98: what a push leaves: the slot holds the byte, SP is one lower, and nothing else has changed. -/
theorem push_spec (v : Byte) (s : State) (hwf : Cells.wf s.ram = true) :
    ∃ t, push v s = .ok t ∧ t = { s with ram := t.ram, cpu := { s.cpu with sp := s.cpu.sp - 1 } } ∧
      Cells.wf t.ram = true ∧ t.peek (stackAddr s.cpu.sp) = some v ∧
      ∀ b, target b ≠ target (stackAddr s.cpu.sp) → t.peek b = s.peek b :=
  ⟨_, push_eq v s, rfl, Cells.wf_write _ _ hwf,
    (peek_congr rfl rfl _).trans (peek_write_ram_self (target_stackAddr _) v hwf),
    fun b hb => (peek_congr rfl rfl b).trans (peek_write_ram_ne (target_stackAddr _) v s hb)⟩

/-- R99: what a two-byte push leaves. -/
theorem push16_spec (w : Addr) (s : State) (hwf : Cells.wf s.ram = true) :
    ∃ t, push16 w s = .ok t ∧ t = { s with ram := t.ram, cpu := { s.cpu with sp := s.cpu.sp - 2 } } ∧
      Cells.wf t.ram = true ∧ t.peek (stackAddr s.cpu.sp) = some (hiByte w) ∧
      t.peek (stackAddr (s.cpu.sp - 1)) = some (loByte w) ∧
      ∀ b, target b ≠ target (stackAddr s.cpu.sp) → target b ≠ target (stackAddr (s.cpu.sp - 1)) →
        t.peek b = s.peek b := by
  obtain ⟨u, hu, eu, wu, pu, fu⟩ := push_spec (hiByte w) s hwf
  obtain ⟨t, ht, et, wt, pt, ft⟩ := push_spec (loByte w) u wu
  have hsp : u.cpu.sp = s.cpu.sp - 1 := by rw [eu]
  rw [hsp] at pt ft
  refine ⟨t, ?_, ?_, wt, ?_, pt, fun b h1 h2 => (ft b h2).trans (fu b h1)⟩
  · simp only [push16, hu, ht]
  · rw [et, hsp, eu]
    have : s.cpu.sp - 1 - 1 = s.cpu.sp - 2 := by rw [BitVec.sub_sub]; rfl
    simp only [this]
  · rw [ft _ (target_slot_ne _ 1 (by decide)).symm, pu]

/-- R274, R405: what taking an interrupt leaves. -/
theorem enterInterrupt_spec (ret : Addr) (brk : Bool) (vector : Addr) (s : State) (h : 0x8000 ≤ vector.toNat)
    (h' : vector.toNat < 0xFFFF) (hwf : Cells.wf s.ram = true) :
    ∃ t, enterInterrupt ret brk vector s = .ok t ∧
      t =
        { s with
          ram := t.ram
          cpu :=
            { s.cpu with
              sp := s.cpu.sp - 3
              p := { s.cpu.p with i := true }
              pc := leWord (s.cart.prgByte (vector.toNat - 0x8000)) (s.cart.prgByte (vector.toNat + 1 - 0x8000)) } } ∧
      t.peek (stackAddr s.cpu.sp) = some (hiByte ret) ∧
      t.peek (stackAddr (s.cpu.sp - 1)) = some (loByte ret) ∧
      t.peek (stackAddr (s.cpu.sp - 2)) = some (s.cpu.p.image brk) ∧
      ∀ b, target b ≠ target (stackAddr s.cpu.sp) → target b ≠ target (stackAddr (s.cpu.sp - 1)) →
        target b ≠ target (stackAddr (s.cpu.sp - 2)) → t.peek b = s.peek b := by
  obtain ⟨u, hu, eu, wu, pu1, pu2, fu⟩ := push16_spec ret s hwf
  obtain ⟨t, ht, et, wt, pt, ft⟩ := push_spec (s.cpu.p.image brk) u wu
  have hsp : u.cpu.sp = s.cpu.sp - 2 := by rw [eu]
  have hp : u.cpu.p = s.cpu.p := by rw [eu]
  rw [hsp] at pt ft
  have s12 : target (stackAddr (s.cpu.sp - 1)) ≠ target (stackAddr (s.cpu.sp - 2)) := by
    have := target_slot_ne (s.cpu.sp - 1) 1 (by decide)
    rw [BitVec.sub_sub] at this
    exact this.symm
  have h3 : s.cpu.sp - 2 - 1 = s.cpu.sp - 3 := by rw [BitVec.sub_sub]; rfl
  have et' : t = { s with ram := t.ram, cpu := { s.cpu with sp := s.cpu.sp - 3 } } := by
    refine et.trans ?_
    rw [hsp, h3, eu]
  have hcart : t.cart = s.cart := by rw [et']
  have hcpu : t.cpu = { s.cpu with sp := s.cpu.sp - 3 } := by rw [et']
  refine ⟨(t.setP { t.cpu.p with i := true }).setPc
      (leWord (t.cart.prgByte (vector.toNat - 0x8000)) (t.cart.prgByte (vector.toNat + 1 - 0x8000))), ?_, ?_,
    (peek_congr (s := t) rfl rfl _).trans ?_, (peek_congr (s := t) rfl rfl _).trans ?_, (peek_congr (s := t) rfl rfl _).trans pt,
    fun b h1 h2 h3 => (peek_congr (s := t) rfl rfl b).trans ((ft b h3).trans (fu b h1 h2))⟩
  · simp only [enterInterrupt, hu, hp, ht, read16_prg _ _ h h', State.setP_cart]
  · simp only [State.setPc, State.setP, hcart, hcpu]
    rw [et']
  · rw [ft _ (target_slot_ne _ 2 (by decide)).symm, pu1]
  · rw [ft _ s12, pu2]

/-- R98: a pop reads the slot above SP. -/
theorem pop_of_peek {s : State} {v : Byte} (h : s.peek (stackAddr (s.cpu.sp + 1)) = some v) :
    pop s = .ok (v, s.setSp (s.cpu.sp + 1)) :=
  read8_of_peek (s := s.setSp (s.cpu.sp + 1)) h

/-- R99: a two-byte pop reads the two slots above SP, the low byte first. -/
theorem pop16_of_peek {s : State} {lo hi : Byte} (h1 : s.peek (stackAddr (s.cpu.sp + 1)) = some lo)
    (h2 : s.peek (stackAddr (s.cpu.sp + 2)) = some hi) : pop16 s = .ok (leWord lo hi, s.setSp (s.cpu.sp + 2)) := by
  have e : s.cpu.sp + 1 + 1 = s.cpu.sp + 2 := by rw [BitVec.add_assoc]; rfl
  have h2' : (s.setSp (s.cpu.sp + 1)).peek (stackAddr ((s.setSp (s.cpu.sp + 1)).cpu.sp + 1)) = some hi := by
    rw [State.setSp_sp, e]
    exact h2
  rw [pop16, pop_of_peek h1]
  simp only [pop_of_peek h2', State.setSp_sp, e]
  rfl

/-- R273: the return from an interrupt reads the three slots above SP. -/
theorem leaveInterrupt_of_peek {s : State} {m lo hi : Byte} (h0 : s.peek (stackAddr (s.cpu.sp + 1)) = some m)
    (h1 : s.peek (stackAddr (s.cpu.sp + 2)) = some lo) (h2 : s.peek (stackAddr (s.cpu.sp + 3)) = some hi) :
    leaveInterrupt s =
      .ok { s with cpu := { s.cpu with sp := s.cpu.sp + 3, p := Status.ofByte m, pc := leWord lo hi } } := by
  have e1 : s.cpu.sp + 1 + 1 = s.cpu.sp + 2 := by rw [BitVec.add_assoc]; rfl
  have e2 : s.cpu.sp + 1 + 2 = s.cpu.sp + 3 := by rw [BitVec.add_assoc]; rfl
  have h1' : ((s.setSp (s.cpu.sp + 1)).setP (Status.ofByte m)).peek (stackAddr (s.cpu.sp + 1 + 1)) = some lo := by
    rw [e1]
    exact h1
  have h2' : ((s.setSp (s.cpu.sp + 1)).setP (Status.ofByte m)).peek (stackAddr (s.cpu.sp + 1 + 2)) = some hi := by
    rw [e2]
    exact h2
  simp only [leaveInterrupt, pop_of_peek h0, pop16_of_peek h1' h2', State.setP_sp, State.setSp_sp, e2]
  rfl

/-! ### Writes -/

/-- The copy of an OAM DMA reads through the bus and writes OAM (R338). -/
theorem dmaCopy_keeps {P : State → Prop} (hr : ∀ {s t : State} {a : Addr} {v : Byte}, P s → read8 a s = .ok (v, t) → P t)
    (ho : ∀ {s : State} (i : Nat) (v : Byte), i < 256 → P s → P (s.setOam i v)) {page : Byte} {n : Nat} {s t : State}
    (hs : P s) (h : dmaCopy page n s = .ok t) : P t := by
  induction n generalizing s with
  | zero => injection h with h; exact h ▸ hs
  | succ n ih =>
    unfold dmaCopy at h
    split at h
    · cases h
    · rename_i v s' hread
      exact ih (ho _ _ (by omega) (hr hs hread)) h

/-- What a bus write that completes can do. -/
theorem write8_ok {a : Addr} {s t : State} {v : Byte} (h : write8 a v s = .ok t) :
    t = s ∨ (∃ i, target a = .ram i ∧ t = s.setRam (Cells.write s.ram i v)) ∨
      (∃ i, target a = .wram i ∧ t = s.setCart { s.cart with wram := Cells.write s.cart.wram i v }) ∨
      (∃ r, target a = .ppuPort r ∧ ppuRegWrite r a v s = .ok t) ∨
      (target a = .ctrl1 ∧ t = ctrlWrite v s) ∨ (target a = .oamDma ∧ oamDma v s = .ok t) := by
  have prog : ∀ {r : FaultReason}, progErrWrite r s = .ok t → t = s := by
    intro r h
    unfold progErrWrite at h
    split at h
    · cases h
    · injection h with h; exact h.symm
  unfold write8 at h
  split at h
  · rename_i i hi; injection h with h; exact .inr (.inl ⟨i, hi, h.symm⟩)
  · rename_i r hr; exact .inr (.inr (.inr (.inl ⟨r, hr, h⟩)))
  · injection h with h; exact .inl h.symm
  · rename_i hd; exact .inr (.inr (.inr (.inr (.inr ⟨hd, h⟩))))
  · injection h with h; exact .inl h.symm
  · rename_i hc; injection h with h; exact .inr (.inr (.inr (.inr (.inl ⟨hc, h.symm⟩))))
  · injection h with h; exact .inl h.symm
  · injection h with h; exact .inl h.symm
  · exact .inl (prog h)
  · rename_i i hi; injection h with h; exact .inr (.inr (.inl ⟨i, hi, h.symm⟩))
  · injection h with h; exact .inl h.symm

/-- What a write of a PPU port that completes can do. -/
theorem ppuRegWrite_ok {r : BitVec 3} {a : Addr} {s t : State} {v : Byte} (h : ppuRegWrite r a v s = .ok t) :
    t = s ∨ t = s.setPpu (s.ppu.writeCtrl v) ∨ t = s.setPpu (s.ppu.writeMask v) ∨
      t = s.setPpu (s.ppu.writeOamAddr v) ∨ t = s.setPpu (s.ppu.writeOamData v) ∨
      t = s.setPpu (s.ppu.writeScroll v) ∨ t = s.setPpu (s.ppu.writeAddr v) ∨
      t = (s.setPpu (s.ppu.writeData s.cart v).1).setCart (s.ppu.writeData s.cart v).2 := by
  unfold ppuRegWrite at h
  split at h
  · injection h with h; exact .inr (.inl h.symm)
  · injection h with h; exact .inr (.inr (.inl h.symm))
  · unfold progErrWrite at h
    split at h
    · cases h
    · injection h with h; exact .inl h.symm
  · injection h with h; exact .inr (.inr (.inr (.inl h.symm)))
  · injection h with h; exact .inr (.inr (.inr (.inr (.inl h.symm))))
  · injection h with h; exact .inr (.inr (.inr (.inr (.inr (.inl h.symm)))))
  · injection h with h; exact .inr (.inr (.inr (.inr (.inr (.inr (.inl h.symm))))))
  · injection h with h; exact .inr (.inr (.inr (.inr (.inr (.inr (.inr h.symm))))))

/-- A write of the controller port changes the controllers alone. -/
theorem ctrlWrite_eq (v : Byte) (s : State) : ∃ c, ctrlWrite v s = s.setCtrl c := by
  unfold ctrlWrite
  dsimp only
  repeat' split
  all_goals exact ⟨_, rfl⟩

/-- A DMA that completes: the copy, then the stall (R338, R339). -/
theorem oamDma_ok {page : Byte} {s t : State} (h : oamDma page s = .ok t) :
    ∃ u, dmaCopy page 256 s = .ok u ∧ t = u.charge (dmaStall u) := by
  unfold oamDma at h
  split at h
  · cases h
  · rename_i u hu
    injection h with h
    exact ⟨u, hu, h.symm⟩

/-- A DMA copy changes the PPU and the controllers alone. -/
theorem dmaCopy_parts {page : Byte} {n : Nat} {s t : State} (h : dmaCopy page n s = .ok t) :
    t = { s with ppu := t.ppu, ctrl := t.ctrl } := by
  refine dmaCopy_keeps (P := fun u => u = { s with ppu := u.ppu, ctrl := u.ctrl }) ?_ ?_ rfl h
  · intro u w a v hu hr
    obtain ⟨p, c, rfl⟩ := read8_ok_parts hr
    rw [hu]
    rfl
  · intro u i v _ hu
    rw [hu]
    rfl

/-- What a bus write that completes leaves alone: the registers but for the cycles of a DMA, the inputs, every byte of
plain memory but the one it selects, the PPU unless it selects a port or the DMA, and the controllers unless it selects
their port or the DMA. -/
theorem write8_frame {a : Addr} {v : Byte} {s t : State} (h : write8 a v s = .ok t) :
    t = { s with cpu := t.cpu, ram := t.ram, ppu := t.ppu, cart := t.cart, ctrl := t.ctrl } ∧
      t.cpu = { s.cpu with cycles := t.cpu.cycles } ∧ (∀ b, target b ≠ target a → t.peek b = s.peek b) ∧
      (target a ≠ .oamDma → t.cpu = s.cpu) ∧
      ((∀ r, target a ≠ .ppuPort r) → target a ≠ .oamDma → t.ppu = s.ppu) ∧
      (target a ≠ .ctrl1 → target a ≠ .oamDma → t.ctrl = s.ctrl) := by
  rcases write8_ok h with rfl | ⟨i, hi, rfl⟩ | ⟨i, hi, rfl⟩ | ⟨r, hr, hw⟩ | ⟨hc, rfl⟩ | ⟨hd, hw⟩
  · exact ⟨rfl, rfl, fun _ _ => rfl, fun _ => rfl, fun _ _ => rfl, fun _ _ => rfl⟩
  · exact ⟨rfl, rfl, fun b hb => peek_write_ram_ne hi v s hb, fun _ => rfl, fun _ _ => rfl, fun _ _ => rfl⟩
  · refine ⟨rfl, rfl, fun b hb => ?_, fun _ => rfl, fun _ _ => rfl, fun _ _ => rfl⟩
    rw [hi] at hb
    unfold State.peek
    split
    · rfl
    · rename_i j hj
      have : i ≠ j := fun e => hb (by rw [hj, e])
      exact congrArg some (Cells.read_write_ne _ _ this)
    · rfl
    · rfl
  · have hcart : ∀ b, (s.setCart (s.ppu.writeData s.cart v).2).peek b = s.peek b := by
      intro b
      have : (s.ppu.writeData s.cart v).2.wram = s.cart.wram ∧ (s.ppu.writeData s.cart v).2.prg = s.cart.prg ∧
          (s.ppu.writeData s.cart v).2.prgSize = s.cart.prgSize := by
        unfold Ppu.writeData Ppu.write
        dsimp only
        repeat' split
        all_goals exact ⟨rfl, rfl, rfl⟩
      simp only [State.peek, State.setCart, Cartridge.prgByte, this.1, this.2.1, this.2.2]
    rcases ppuRegWrite_ok hw with rfl | rfl | rfl | rfl | rfl | rfl | rfl | rfl
    · exact ⟨rfl, rfl, fun _ _ => rfl, fun _ => rfl, fun _ _ => rfl, fun _ _ => rfl⟩
    · exact ⟨rfl, rfl, fun _ _ => rfl, fun _ => rfl, fun h _ => absurd hr (h r), fun _ _ => rfl⟩
    · exact ⟨rfl, rfl, fun _ _ => rfl, fun _ => rfl, fun h _ => absurd hr (h r), fun _ _ => rfl⟩
    · exact ⟨rfl, rfl, fun _ _ => rfl, fun _ => rfl, fun h _ => absurd hr (h r), fun _ _ => rfl⟩
    · exact ⟨rfl, rfl, fun _ _ => rfl, fun _ => rfl, fun h _ => absurd hr (h r), fun _ _ => rfl⟩
    · exact ⟨rfl, rfl, fun _ _ => rfl, fun _ => rfl, fun h _ => absurd hr (h r), fun _ _ => rfl⟩
    · exact ⟨rfl, rfl, fun _ _ => rfl, fun _ => rfl, fun h _ => absurd hr (h r), fun _ _ => rfl⟩
    · exact ⟨rfl, rfl, fun b _ => hcart b, fun _ => rfl, fun h _ => absurd hr (h r), fun _ _ => rfl⟩
  · obtain ⟨c, e⟩ := ctrlWrite_eq v s
    rw [e]
    exact ⟨rfl, rfl, fun _ _ => rfl, fun _ => rfl, fun _ _ => rfl, fun h => absurd hc h⟩
  · obtain ⟨u, hu, rfl⟩ := oamDma_ok hw
    have e := dmaCopy_parts hu
    refine ⟨?_, ?_, fun b _ => ?_, fun h => absurd hd h, fun _ h => absurd hd h, fun _ h => absurd hd h⟩
    · rw [e]; rfl
    · rw [e]; rfl
    · refine peek_congr ?_ ?_ b
      · rw [e]; rfl
      · rw [e]; rfl

end Sys2Proof.Machine
end

