-- ==== Sys2Proof/Laws/Decode.lean ====
section
/-! SUPPORT. Facts about the opcode map that hold whatever the bytes after the opcode are: where an instruction stands
in the map, and what the opcode byte alone fixes of it (R130). -/

namespace Sys2Proof

/-- R147: the map has sixteen rows of sixteen columns. -/
theorem opcodeMap_length (b1 : Byte) (w : Addr) : (opcodeMap b1 w).length = 16 := rfl

theorem opcodeMap_columns (b1 : Byte) (w : Addr) : ∀ row ∈ opcodeMap b1 w, row.length = 16 := by
  intro row h
  have : (opcodeMap b1 w).map List.length = List.replicate 16 16 := rfl
  have h' := List.mem_map_of_mem (f := List.length) h
  rw [this] at h'
  exact (List.mem_replicate.mp h').2

/-- R147: the instruction of an opcode byte stands in the map; `decode3`'s default is never reached. -/
theorem decode3_mem (b0 b1 b2 : Byte) : ∃ row ∈ opcodeMap b1 (leWord b1 b2), decode3 b0 b1 b2 ∈ row := by
  have hb := b0.isLt
  have m1 : (opcodeMap b1 (leWord b1 b2)).getD (b0.toNat / 16) [] ∈ opcodeMap b1 (leWord b1 b2) := by
    rw [List.getD_eq_getElem _ _ (by rw [opcodeMap_length]; omega)]
    exact List.getElem_mem _
  refine ⟨_, m1, ?_⟩
  have hl := opcodeMap_columns b1 (leWord b1 b2) _ m1
  unfold decode3
  generalize (opcodeMap b1 (leWord b1 b2)).getD (b0.toNat / 16) [] = row at hl ⊢
  rw [List.getD_eq_getElem row _ (by omega)]
  exact List.getElem_mem _

/-- What two maps agree on in every place, the instructions of one opcode byte agree on. -/
theorem decode3_congr {α : Type} (f : Instr → α) {b1 b2 c1 c2 : Byte}
    (h : (opcodeMap b1 (leWord b1 b2)).map (List.map f) = (opcodeMap c1 (leWord c1 c2)).map (List.map f)) (b0 : Byte) :
    f (decode3 b0 b1 b2) = f (decode3 b0 c1 c2) := by
  have row : ∀ (l l' : List Instr) (n : Nat) (d : Instr), l.map f = l'.map f → f (l.getD n d) = f (l'.getD n d) := by
    intro l
    induction l with
    | nil =>
      intro l' n d e
      cases l' with
      | nil => rfl
      | cons _ _ => cases e
    | cons x l ih =>
      intro l' n d e
      cases l' with
      | nil => cases e
      | cons y l' =>
        injection e with e1 e2
        cases n with
        | zero => exact e1
        | succ n => exact ih l' n d e2
  have rows : ∀ (l l' : List (List Instr)) (n : Nat), l.map (List.map f) = l'.map (List.map f) →
      (l.getD n []).map f = (l'.getD n []).map f := by
    intro l
    induction l with
    | nil =>
      intro l' n e
      cases l' with
      | nil => rfl
      | cons _ _ => cases e
    | cons x l ih =>
      intro l' n e
      cases l' with
      | nil => cases e
      | cons y l' =>
        injection e with e1 e2
        cases n with
        | zero => exact e1
        | succ n => exact ih l' n e2
  exact row _ _ _ _ (rows _ _ _ h)

/-- R130: the opcode byte fixes which bytes are read. -/
theorem decode3_fetch (b0 b1 b2 : Byte) : (decode3 b0 b1 b2).fetch = (decode3 b0 0 0).fetch :=
  decode3_congr (b1 := b1) (b2 := b2) (c1 := 0) (c2 := 0) Instr.fetch rfl b0

/-- R130: the opcode byte fixes the size. -/
theorem decode3_size (b0 b1 b2 : Byte) : (decode3 b0 b1 b2).size = (decode3 b0 0 0).size :=
  decode3_congr (b1 := b1) (b2 := b2) (c1 := 0) (c2 := 0) Instr.size rfl b0

/-- R132: an instruction of which no operand byte is read is fixed by its opcode byte. -/
theorem decode3_of_nothing {b0 b1 b2 : Byte} (h : (decode3 b0 0 0).fetch = .nothing) :
    decode3 b0 b1 b2 = decode3 b0 0 0 := by
  have e := decode3_congr (b1 := b1) (b2 := b2) (c1 := 0) (c2 := 0)
    (fun i => match i.fetch with | .nothing => some i | _ => none) rfl b0
  simp only [decode3_fetch b0 b1 b2, h] at e
  exact Option.some.inj e

/-- R132: one of which a single operand byte is read is fixed by two bytes. -/
theorem decode3_of_one {b0 b1 b2 : Byte} (h : (decode3 b0 0 0).fetch = .op8 ∨ (decode3 b0 0 0).fetch = .immediate) :
    decode3 b0 b1 b2 = decode3 b0 b1 0 := by
  have e := decode3_congr (b1 := b1) (b2 := b2) (c1 := b1) (c2 := 0)
    (fun i => match i.fetch with | .op8 | .immediate => some i | _ => none) rfl b0
  rcases h with h | h <;> simp only [decode3_fetch b0 b1 _, h] at e <;> exact Option.some.inj e

/-- R131: an instruction is one to three bytes. -/
theorem Instr.size_bounds (i : Instr) : 1 ≤ i.size ∧ i.size ≤ 3 := by
  cases i with
  | lda m | ldx m | ldy m | sta m | stx m | sty m | adc m | sbc m | and m | ora m | eor m | cmp m | cpx m | cpy m
  | bit m | asl m | lsr m | rol m | ror m | inc m | dec m | jmp m =>
    cases m <;> exact ⟨Nat.le_of_ble_eq_true rfl, Nat.le_of_ble_eq_true rfl⟩
  | nopStar op form => cases form <;> exact ⟨Nat.le_of_ble_eq_true rfl, Nat.le_of_ble_eq_true rfl⟩
  | _ => exact ⟨Nat.le_of_ble_eq_true rfl, Nat.le_of_ble_eq_true rfl⟩

/-- R131, R132: how many bytes the ones read leave room for. -/
theorem Instr.size_of_fetch (i : Instr) :
    (i.fetch = .op8 ∨ i.fetch = .immediate → i.size = 2) ∧ (i.fetch = .op16 → i.size = 3) := by
  cases i with
  | lda m | ldx m | ldy m | sta m | stx m | sty m | adc m | sbc m | and m | ora m | eor m | cmp m | cpx m | cpy m
  | bit m | asl m | lsr m | rol m | ror m | inc m | dec m | jmp m =>
    cases m <;> simp [Instr.fetch, Operand.fetch, Instr.size, Operand.size]
  | nopStar op form => cases form <;> simp [Instr.fetch, NopForm.fetch, Instr.size, NopForm.size]
  | _ => simp [Instr.fetch, Instr.size]

/-- Every well-formed instruction has a row of the opcode table. -/
theorem Instr.entry_of_wellFormed {i : Instr} (h : i.wellFormed = true) : ∃ e, i.entry = some e := by
  cases i with
  | lda m | ldx m | ldy m | sta m | stx m | sty m | adc m | sbc m | and m | ora m | eor m | cmp m | cpx m | cpy m
  | bit m | asl m | lsr m | rol m | ror m | inc m | dec m | jmp m =>
    cases m <;> first | exact ⟨_, rfl⟩ | exact Bool.noConfusion h
  | nopStar op form => exact ⟨_, if_pos h⟩
  | und op => exact ⟨_, if_pos h⟩
  | _ => exact ⟨_, rfl⟩

/-- R147: the instruction of any three bytes is well formed. -/
theorem decode3_wellFormed (b0 b1 b2 : Byte) : (decode3 b0 b1 b2).wellFormed = true := by
  obtain ⟨row, hr, hi⟩ := decode3_mem b0 b1 b2
  have h : (opcodeMap b1 (leWord b1 b2)).map (List.map Instr.wellFormed) = List.replicate 16 (List.replicate 16 true) :=
    rfl
  have h1 := List.mem_map_of_mem (f := List.map Instr.wellFormed) hr
  rw [h] at h1
  have h2 := List.mem_map_of_mem (f := Instr.wellFormed) hi
  rw [(List.mem_replicate.mp h1).2] at h2
  exact (List.mem_replicate.mp h2).2

end Sys2Proof
end

