-- ==== Sys2Proof/Laws/Exec.lean ====
section
/-! SUPPORT. The execute step in the terms of Safety.lean: where an operand is, what it costs, and what an instruction
that reads, stores or modifies its operand answers. -/

namespace Sys2Proof.Machine

/-! ### Operands -/

/-- R140: two pages differ when the high bytes do. -/
theorem crossesPage_eq (a b : Addr) : crossesPage a b = (hiByte a != hiByte b) := by
  have key : (a &&& 0xFF00 = b &&& 0xFF00) ↔ hiByte a = hiByte b := by
    simp only [hiByte]
    constructor
    · intro h
      have h' : (a &&& 0xFF00) >>> 8 = (b &&& 0xFF00) >>> 8 := by rw [h]
      have e : ∀ x : Addr, ((x &&& 0xFF00) >>> 8).truncate 8 = (x >>> 8).truncate 8 := by
        intro x
        apply BitVec.eq_of_getLsbD_eq
        intro i hi
        have : (0xFF00#16).getLsbD (8 + i) = true := by
          have : i = 0 ∨ i = 1 ∨ i = 2 ∨ i = 3 ∨ i = 4 ∨ i = 5 ∨ i = 6 ∨ i = 7 := by omega
          rcases this with rfl | rfl | rfl | rfl | rfl | rfl | rfl | rfl <;> rfl
        simp [hi, BitVec.getLsbD_ushiftRight, BitVec.getLsbD_and]
        intro _
        simpa using this
      rw [← e a, ← e b, h']
    · intro h
      apply BitVec.eq_of_getLsbD_eq
      intro i hi
      simp only [BitVec.getLsbD_and]
      by_cases hlow : i < 8
      · have : (0xFF00#16).getLsbD i = false := by
          have : i = 0 ∨ i = 1 ∨ i = 2 ∨ i = 3 ∨ i = 4 ∨ i = 5 ∨ i = 6 ∨ i = 7 := by omega
          rcases this with rfl | rfl | rfl | rfl | rfl | rfl | rfl | rfl <;> rfl
        have this' : (0xFF00 : BitVec 16).getLsbD i = false := this
        rw [this', Bool.and_false, Bool.and_false]
      · have hh := congrArg (fun z : Byte => z.getLsbD (i - 8)) h
        simp only [BitVec.truncate_eq_setWidth, BitVec.getLsbD_setWidth, BitVec.getLsbD_ushiftRight] at hh
        have hi8 : 8 + (i - 8) = i := by omega
        have hlt : i - 8 < 8 := by omega
        simp only [hi8, hlt, decide_true, Bool.true_and] at hh
        rw [hh]
  unfold crossesPage
  rw [Bool.eq_iff_iff]
  simp only [decide_eq_true_eq, bne_iff_ne, ne_eq, key]

/-- A form that has an effective address resolves to it, with no effect. -/
theorem resolve_mem {m : Operand} {s : State} {a : Addr} (h : effAddr m s = some a) :
    resolve m s = .ok (.mem a, pageCrossed m s, s) := by
  cases m <;> simp only [effAddr, reduceCtorEq, Option.some.injEq] at h <;> subst h <;>
    simp only [resolve, pageCrossed, crossesPage_eq, read16PageWrap_zeroPage] <;> rfl

/-- The place of an operand that an instruction reads. -/
theorem resolve_acc (s : State) : resolve .acc s = .ok (.acc, false, s) := rfl

theorem resolve_imm (v : Byte) (s : State) : resolve (.imm v) s = .ok (.imm v, false, s) := rfl

/-- PC and the cost of an instruction. -/
theorem retire_eq (s : State) (e : Entry) (size : Nat) (crossed : Bool) :
    s.retire e size crossed = s.moved size (e.cycles + if crossed then e.penalty else 0) := rfl

/-- A bus read of a state whose CPU has moved on. -/
theorem read8_moved (a : Addr) (size cost : Nat) (s : State) :
    read8 a (s.moved size cost) = withCpu (s.moved size cost).cpu (read8 a s) :=
  read8_cpu a (s.moved size cost).cpu s

/-- A bus read leaves the CPU as it is. -/
theorem read8_cpu_same {a : Addr} {s t : State} {v : Byte} (h : read8 a s = .ok (v, t)) : t.cpu = s.cpu := by
  obtain ⟨p, c, rfl⟩ := read8_ok_parts h
  rfl

/-- A faulting bus read keeps the state it was made in, with the fault recorded. -/
theorem read8_error {a : Addr} {s : State} {f : Fault} (h : read8 a s = .error f) : ∃ r, f = s.stop r := by
  have prog : ∀ {r : FaultReason}, progErrRead r s = .error f → ∃ r, f = s.stop r := by
    intro r h
    unfold progErrRead at h
    split at h
    · injection h with h; exact ⟨_, h.symm⟩
    · cases h
  unfold read8 at h
  split at h
  · cases h
  · unfold ppuRegRead at h
    split at h
    · cases h
    · cases h
    · cases h
    · exact prog h
  · injection h with h; exact ⟨_, h.symm⟩
  · exact prog h
  · cases h
  · cases h
  · cases h
  · cases h
  · exact prog h
  · cases h
  · cases h

/-- R158, R160: an instruction that reads its operand, when the read completes. -/
theorem executeRead_ok {e : Entry} {m : Operand} {f : Byte → State → State} {s s' : State} {v : Byte}
    (hm : m.isRead = true ∨ ∃ o, m = .zpy o) (h : operandRead m s = .ok (v, s')) :
    executeRead (some e) m f s =
      .next (f v { s' with cpu := (s.moved m.size (e.cycles + if pageCrossed m s then e.penalty else 0)).cpu }) := by
  have mem : ∀ a, effAddr m s = some a → read8 a s = .ok (v, s') →
      executeRead (some e) m f s =
        .next (f v { s' with cpu := (s.moved m.size (e.cycles + if pageCrossed m s then e.penalty else 0)).cpu }) := by
    intro a ha hr
    simp only [executeRead, execute, resolve_mem ha, retire_eq, loadPlace, read8_moved, hr, withCpu, answer]
  cases m with
  | imm b =>
    simp only [operandRead, Except.ok.injEq, Prod.mk.injEq] at h
    obtain ⟨rfl, rfl⟩ := h
    rfl
  | acc => simp [Operand.isRead] at hm
  | ind w => simp [Operand.isRead] at hm
  | _ => exact mem _ rfl h

/-- R412: an instruction that reads its operand, when the read faults. -/
theorem executeRead_error {e : Entry} {m : Operand} {f : Byte → State → State} {s : State} {r : Fault}
    (h : operandRead m s = .error r) :
    executeRead (some e) m f s =
      .fault (r.mapKept fun k =>
        { k with cpu := (s.moved m.size (e.cycles + if pageCrossed m s then e.penalty else 0)).cpu }) := by
  have mem : ∀ a, effAddr m s = some a → read8 a s = .error r →
      executeRead (some e) m f s =
        .fault (r.mapKept fun k =>
          { k with cpu := (s.moved m.size (e.cycles + if pageCrossed m s then e.penalty else 0)).cpu }) := by
    intro a ha hr
    simp only [executeRead, execute, resolve_mem ha, retire_eq, loadPlace, read8_moved, hr, withCpu, answer]
  cases m with
  | imm b => cases h
  | acc => cases h
  | ind w => cases h
  | _ => exact mem _ rfl h

/-- R159, R160: an instruction that stores a register. -/
theorem executeStore_mem {e : Entry} {m : Operand} {reg : State → Byte} {s : State} {a : Addr}
    (ha : effAddr m s = some a) :
    executeStore (some e) m reg s =
      answer
        (write8 a (reg (s.moved m.size (e.cycles + if pageCrossed m s then e.penalty else 0)))
          (s.moved m.size (e.cycles + if pageCrossed m s then e.penalty else 0))) := by
  simp only [executeStore, execute, resolve_mem ha, retire_eq, storePlace]

/-- R240: an instruction that reads its memory operand once and writes it once, when the read completes. -/
theorem executeModify_mem {e : Entry} {m : Operand} {result : Byte → Status → Byte} {carry : Byte → Status → Status}
    {s s' : State} {a : Addr} {v : Byte} (ha : effAddr m s = some a) (hr : read8 a s = .ok (v, s')) :
    executeModify (some e) m result carry s =
      answer
        (match write8 a (result v s.cpu.p)
            ({ s' with
                cpu := (s.moved m.size (e.cycles + if pageCrossed m s then e.penalty else 0)).cpu }.setP
              (carry v s.cpu.p)) with
        | .error f => .error f
        | .ok t => .ok (t.setP (t.cpu.p.setZS (result v s.cpu.p)))) := by
  simp only [executeModify, execute, resolve_mem ha, retire_eq, loadPlace, storePlace, read8_moved, hr, withCpu]
  rfl

/-- R412: the read of a memory operand faults. -/
theorem executeModify_error {e : Entry} {m : Operand} {result : Byte → Status → Byte} {carry : Byte → Status → Status}
    {s : State} {a : Addr} {r : Fault} (ha : effAddr m s = some a) (hr : read8 a s = .error r) :
    executeModify (some e) m result carry s =
      .fault (r.mapKept fun k =>
        { k with cpu := (s.moved m.size (e.cycles + if pageCrossed m s then e.penalty else 0)).cpu }) := by
  simp only [executeModify, execute, resolve_mem ha, retire_eq, loadPlace, read8_moved, hr, withCpu, answer]

/-- An answer is never a refusal. -/
theorem answer_ne_refused (r : Except Fault State) (x : Refusal) : answer r ≠ .refused x := by
  unfold answer
  split <;> simp

/-- R157: Z and S of a byte. -/
theorem Status.setZS_eq (p : Status) (v : Byte) : p.setZS v = p.withZS v := rfl

/-- The two spellings of a moved state with its CPU replaced. -/
theorem moved_cpu (s : State) (size cost : Nat) :
    (s.moved size cost).cpu =
      { s.cpu with pc := s.cpu.pc + BitVec.ofNat 16 size, cycles := s.cpu.cycles + BitVec.ofNat 64 cost } := rfl

/-! ### The PPU's ports -/

/-- R84: the address of a port selects it, and the other way round. -/
theorem target_of_isPort {r : Nat} {a : Addr} (h : IsPort r a) : target a = .ppuPort (BitVec.ofNat 3 r) := by
  obtain ⟨h1, h2, h3⟩ := h
  have : ¬a.toNat ≤ 0x1FFF := by omega
  simp only [target, this, h2, if_false, if_true]
  congr 1
  apply BitVec.eq_of_toNat_eq
  simp only [BitVec.toNat_setWidth, BitVec.toNat_ofNat]
  omega

theorem isPort_of_target {r : BitVec 3} {a : Addr} (h : target a = .ppuPort r) : IsPort r.toNat a := by
  have := target_inv a
  rw [h] at this
  exact this

/-! ### The instructions, each by the shared operation it is -/

theorem exec_lda (m : Operand) (s : State) :
    exec (.lda m) s = executeRead (ldaEntry m) m (fun v s => (s.setA v).setP (s.cpu.p.setZS v)) s := rfl

theorem exec_ldx (m : Operand) (s : State) :
    exec (.ldx m) s = executeRead (ldxEntry m) m (fun v s => (s.setX v).setP (s.cpu.p.setZS v)) s := rfl

theorem exec_ldy (m : Operand) (s : State) :
    exec (.ldy m) s = executeRead (ldyEntry m) m (fun v s => (s.setY v).setP (s.cpu.p.setZS v)) s := rfl

theorem exec_sta (m : Operand) (s : State) :
    exec (.sta m) s = executeStore (staEntry m) m (fun s => s.cpu.a) s := rfl

theorem exec_stx (m : Operand) (s : State) :
    exec (.stx m) s = executeStore (stxEntry m) m (fun s => s.cpu.x) s := rfl

theorem exec_sty (m : Operand) (s : State) :
    exec (.sty m) s = executeStore (styEntry m) m (fun s => s.cpu.y) s := rfl

theorem exec_tax (s : State) :
    exec .tax s =
      executeImplied Instr.tax.entry 1 (fun s => .ok ((s.setX s.cpu.a).setP (s.cpu.p.setZS s.cpu.a))) s := rfl

theorem exec_tay (s : State) :
    exec .tay s =
      executeImplied Instr.tay.entry 1 (fun s => .ok ((s.setY s.cpu.a).setP (s.cpu.p.setZS s.cpu.a))) s := rfl

theorem exec_txa (s : State) :
    exec .txa s =
      executeImplied Instr.txa.entry 1 (fun s => .ok ((s.setA s.cpu.x).setP (s.cpu.p.setZS s.cpu.x))) s := rfl

theorem exec_tya (s : State) :
    exec .tya s =
      executeImplied Instr.tya.entry 1 (fun s => .ok ((s.setA s.cpu.y).setP (s.cpu.p.setZS s.cpu.y))) s := rfl

theorem exec_tsx (s : State) :
    exec .tsx s =
      executeImplied Instr.tsx.entry 1 (fun s => .ok ((s.setX s.cpu.sp).setP (s.cpu.p.setZS s.cpu.sp))) s := rfl

theorem exec_txs (s : State) :
    exec .txs s = executeImplied Instr.txs.entry 1 (fun s => .ok (s.setSp s.cpu.x)) s := rfl

theorem exec_adc (m : Operand) (s : State) :
    exec (.adc m) s = executeRead (adcEntry m) m (fun v s => s.addA v) s := rfl

theorem exec_sbc (m : Operand) (s : State) :
    exec (.sbc m) s = executeRead (sbcEntry m) m (fun v s => s.addA (v ^^^ 0xFF)) s := rfl

theorem exec_and (m : Operand) (s : State) :
    exec (.and m) s = executeRead (andEntry m) m (fun v s => s.logicA (s.cpu.a &&& v)) s := rfl

theorem exec_ora (m : Operand) (s : State) :
    exec (.ora m) s = executeRead (oraEntry m) m (fun v s => s.logicA (s.cpu.a ||| v)) s := rfl

theorem exec_eor (m : Operand) (s : State) :
    exec (.eor m) s = executeRead (eorEntry m) m (fun v s => s.logicA (s.cpu.a ^^^ v)) s := rfl

theorem exec_cmp (m : Operand) (s : State) :
    exec (.cmp m) s = executeRead (cmpEntry m) m (fun v s => s.setP (s.cpu.p.afterCompare s.cpu.a v)) s := rfl

theorem exec_cpx (m : Operand) (s : State) :
    exec (.cpx m) s = executeRead (cpxEntry m) m (fun v s => s.setP (s.cpu.p.afterCompare s.cpu.x v)) s := rfl

theorem exec_cpy (m : Operand) (s : State) :
    exec (.cpy m) s = executeRead (cpyEntry m) m (fun v s => s.setP (s.cpu.p.afterCompare s.cpu.y v)) s := rfl

theorem exec_bit (m : Operand) (s : State) :
    exec (.bit m) s = executeRead (bitEntry m) m (fun v s => s.setP (s.cpu.p.afterBit s.cpu.a v)) s := rfl

theorem exec_asl (m : Operand) (s : State) :
    exec (.asl m) s = executeModify (aslEntry m) m (fun v _ => v <<< 1) carryHigh s := rfl

theorem exec_lsr (m : Operand) (s : State) :
    exec (.lsr m) s = executeModify (lsrEntry m) m (fun v _ => v >>> 1) carryLow s := rfl

theorem exec_rol (m : Operand) (s : State) :
    exec (.rol m) s = executeModify (rolEntry m) m rotateLeft carryHigh s := rfl

theorem exec_ror (m : Operand) (s : State) :
    exec (.ror m) s = executeModify (rorEntry m) m rotateRight carryLow s := rfl

theorem exec_inc (m : Operand) (s : State) :
    exec (.inc m) s = executeModify (incEntry m) m (fun v _ => v + 1) (fun _ p => p) s := rfl

theorem exec_dec (m : Operand) (s : State) :
    exec (.dec m) s = executeModify (decEntry m) m (fun v _ => v - 1) (fun _ p => p) s := rfl

theorem exec_inx (s : State) :
    exec .inx s =
      executeImplied Instr.inx.entry 1 (fun s => .ok ((s.setX (s.cpu.x + 1)).setP (s.cpu.p.setZS (s.cpu.x + 1)))) s := rfl

theorem exec_iny (s : State) :
    exec .iny s =
      executeImplied Instr.iny.entry 1 (fun s => .ok ((s.setY (s.cpu.y + 1)).setP (s.cpu.p.setZS (s.cpu.y + 1)))) s := rfl

theorem exec_dex (s : State) :
    exec .dex s =
      executeImplied Instr.dex.entry 1 (fun s => .ok ((s.setX (s.cpu.x - 1)).setP (s.cpu.p.setZS (s.cpu.x - 1)))) s := rfl

theorem exec_dey (s : State) :
    exec .dey s =
      executeImplied Instr.dey.entry 1 (fun s => .ok ((s.setY (s.cpu.y - 1)).setP (s.cpu.p.setZS (s.cpu.y - 1)))) s := rfl

theorem exec_bcc (op8 : Byte) (s : State) :
    exec (.bcc op8) s = executeBranch (Instr.bcc op8).entry op8 (fun p => !p.c) s := rfl

theorem exec_bcs (op8 : Byte) (s : State) :
    exec (.bcs op8) s = executeBranch (Instr.bcs op8).entry op8 (fun p => p.c) s := rfl

theorem exec_beq (op8 : Byte) (s : State) :
    exec (.beq op8) s = executeBranch (Instr.beq op8).entry op8 (fun p => p.z) s := rfl

theorem exec_bne (op8 : Byte) (s : State) :
    exec (.bne op8) s = executeBranch (Instr.bne op8).entry op8 (fun p => !p.z) s := rfl

theorem exec_bmi (op8 : Byte) (s : State) :
    exec (.bmi op8) s = executeBranch (Instr.bmi op8).entry op8 (fun p => p.s) s := rfl

theorem exec_bpl (op8 : Byte) (s : State) :
    exec (.bpl op8) s = executeBranch (Instr.bpl op8).entry op8 (fun p => !p.s) s := rfl

theorem exec_bvc (op8 : Byte) (s : State) :
    exec (.bvc op8) s = executeBranch (Instr.bvc op8).entry op8 (fun p => !p.v) s := rfl

theorem exec_bvs (op8 : Byte) (s : State) :
    exec (.bvs op8) s = executeBranch (Instr.bvs op8).entry op8 (fun p => p.v) s := rfl

theorem exec_jmp (m : Operand) (s : State) :
    exec (.jmp m) s =
      execute (jmpEntry m) m (fun p s =>
        match p with
        | .mem ea => .ok (s.setPc ea)
        | .acc | .imm _ => .ok s) s := rfl

theorem exec_jsr (dest : Addr) (s : State) :
    exec (.jsr dest) s =
      executeImplied (Instr.jsr dest).entry 3 (fun s =>
        match push16 (s.cpu.pc - 1) s with
        | .error f => .error f
        | .ok s => .ok (s.setPc dest)) s := rfl

theorem exec_rts (s : State) :
    exec .rts s =
      executeImplied Instr.rts.entry 1 (fun s =>
        match pop16 s with
        | .error f => .error f
        | .ok (w, s) => .ok (s.setPc (w + 1))) s := rfl

theorem exec_rti (s : State) :
    exec .rti s = executeImplied Instr.rti.entry 1 leaveInterrupt s := rfl

theorem exec_brk (s : State) :
    exec .brk s =
      executeImplied Instr.brk.entry 2 (fun s => enterInterrupt s.cpu.pc true Config.irqVector s) s := rfl

theorem exec_pha (s : State) :
    exec .pha s = executeImplied Instr.pha.entry 1 (fun s => push s.cpu.a s) s := rfl

theorem exec_pla (s : State) :
    exec .pla s =
      executeImplied Instr.pla.entry 1 (fun s =>
        match pop s with
        | .error f => .error f
        | .ok (v, s) => .ok ((s.setA v).setP (s.cpu.p.setZS v))) s := rfl

theorem exec_php (s : State) :
    exec .php s = executeImplied Instr.php.entry 1 (fun s => push (s.cpu.p.image true) s) s := rfl

theorem exec_plp (s : State) :
    exec .plp s =
      executeImplied Instr.plp.entry 1 (fun s =>
        match pop s with
        | .error f => .error f
        | .ok (m, s) => .ok (s.setP (Status.ofByte m))) s := rfl

theorem exec_clc (s : State) :
    exec .clc s = executeImplied Instr.clc.entry 1 (fun s => .ok (s.setP { s.cpu.p with c := false })) s := rfl

theorem exec_sec (s : State) :
    exec .sec s = executeImplied Instr.sec.entry 1 (fun s => .ok (s.setP { s.cpu.p with c := true })) s := rfl

theorem exec_cli (s : State) :
    exec .cli s = executeImplied Instr.cli.entry 1 (fun s => .ok (s.setP { s.cpu.p with i := false })) s := rfl

theorem exec_sei (s : State) :
    exec .sei s = executeImplied Instr.sei.entry 1 (fun s => .ok (s.setP { s.cpu.p with i := true })) s := rfl

theorem exec_clv (s : State) :
    exec .clv s = executeImplied Instr.clv.entry 1 (fun s => .ok (s.setP { s.cpu.p with v := false })) s := rfl

theorem exec_cld (s : State) :
    exec .cld s = executeImplied Instr.cld.entry 1 (fun s => .ok (s.setP { s.cpu.p with d := false })) s := rfl

theorem exec_sed (s : State) :
    exec .sed s = executeImplied Instr.sed.entry 1 (fun s => .ok (s.setP { s.cpu.p with d := true })) s := rfl

theorem exec_nop (s : State) :
    exec .nop s = executeImplied Instr.nop.entry 1 (fun s => .ok s) s := rfl

theorem exec_nopStar (opcode : Byte) (form : NopForm) (s : State) :
    exec (.nopStar opcode form) s =
      executeImplied (Instr.nopStar opcode form).entry form.size (fun s => .ok s) s := rfl

theorem exec_und (opcode : Byte) (s : State) :
    exec (.und opcode) s = executeImplied (Instr.und opcode).entry 1 (fun s => .ok s) s := rfl

/-! ### What every operation keeps -/

/-- A property that every change a step is made of keeps. -/
structure Keeps (P : State → Prop) : Prop where
  cpu : ∀ {s : State} (c : Cpu), P s → P { s with cpu := c }
  ram : ∀ {s : State} (i : Nat) (v : Byte), i < 0x800 → P s → P (s.setRam (Cells.write s.ram i v))
  wram : ∀ {s : State} (i : Nat) (v : Byte), i < 0x2000 → P s →
    P (s.setCart { s.cart with wram := Cells.write s.cart.wram i v })
  oam : ∀ {s : State} (i : Nat) (v : Byte), i < 256 → P s → P (s.setOam i v)
  statusRead : ∀ {s : State}, P s → P (s.setPpu s.ppu.afterStatusRead)
  dataRead : ∀ {s : State}, P s → P (s.setPpu (s.ppu.afterDataRead s.cart))
  writeCtrl : ∀ {s : State} (v : Byte), P s → P (s.setPpu (s.ppu.writeCtrl v))
  writeMask : ∀ {s : State} (v : Byte), P s → P (s.setPpu (s.ppu.writeMask v))
  writeOamAddr : ∀ {s : State} (v : Byte), P s → P (s.setPpu (s.ppu.writeOamAddr v))
  writeOamData : ∀ {s : State} (v : Byte), P s → P (s.setPpu (s.ppu.writeOamData v))
  writeScroll : ∀ {s : State} (v : Byte), P s → P (s.setPpu (s.ppu.writeScroll v))
  writeAddr : ∀ {s : State} (v : Byte), P s → P (s.setPpu (s.ppu.writeAddr v))
  writeData : ∀ {s : State} (v : Byte), P s →
    P ((s.setPpu (s.ppu.writeData s.cart v).1).setCart (s.ppu.writeData s.cart v).2)
  ctrlRead1 : ∀ {s : State}, P s → P (ctrlRead1 s).2
  ctrlRead2 : ∀ {s : State}, P s → P (ctrlRead2 s).2
  ctrlWrite : ∀ {s : State} (v : Byte), P s → P (ctrlWrite v s)

namespace Keeps

variable {P : State → Prop} (K : Keeps P)
include K

theorem read8 {a : Addr} {s t : State} {v : Byte} (hs : P s) (h : Machine.read8 a s = .ok (v, t)) : P t := by
  rcases read8_ok h with rfl | ⟨_, rfl⟩ | ⟨_, rfl⟩ | ⟨_, rfl⟩ | ⟨_, rfl⟩
  · exact hs
  · exact K.statusRead hs
  · exact K.dataRead hs
  · exact K.ctrlRead1 hs
  · exact K.ctrlRead2 hs

theorem write8 {a : Addr} {s t : State} {v : Byte} (hs : P s) (h : Machine.write8 a v s = .ok t) : P t := by
  rcases write8_ok h with rfl | ⟨i, hi, rfl⟩ | ⟨i, hi, rfl⟩ | ⟨r, _, hw⟩ | ⟨_, rfl⟩ | ⟨_, hd⟩
  · exact hs
  · exact K.ram i v (target_ram_lt hi) hs
  · exact K.wram i v (target_wram_lt hi) hs
  · rcases ppuRegWrite_ok hw with rfl | rfl | rfl | rfl | rfl | rfl | rfl | rfl
    · exact hs
    · exact K.writeCtrl v hs
    · exact K.writeMask v hs
    · exact K.writeOamAddr v hs
    · exact K.writeOamData v hs
    · exact K.writeScroll v hs
    · exact K.writeAddr v hs
    · exact K.writeData v hs
  · exact K.ctrlWrite v hs
  · obtain ⟨u, hu, rfl⟩ := oamDma_ok hd
    exact K.cpu _ (dmaCopy_keeps (fun hs h => K.read8 hs h) (fun i v hi hs => K.oam i v hi hs) hs hu)

theorem push {s t : State} {v : Byte} (hs : P s) (h : Machine.push v s = .ok t) : P t := by
  rw [push_eq] at h
  injection h with h
  subst h
  refine K.cpu _ (K.ram _ v ?_ hs)
  have := s.cpu.sp.isLt
  omega

theorem push16 {s t : State} {w : Addr} (hs : P s) (h : Machine.push16 w s = .ok t) : P t := by
  unfold Machine.push16 at h
  split at h
  · cases h
  · rename_i u hu
    exact K.push (K.push hs hu) h

theorem pop {s t : State} {v : Byte} (hs : P s) (h : Machine.pop s = .ok (v, t)) : P t := by
  rw [pop_eq] at h
  injection h with h
  injection h with _ h
  subst h
  exact K.cpu _ hs

theorem pop16 {s t : State} {w : Addr} (hs : P s) (h : Machine.pop16 s = .ok (w, t)) : P t := by
  rw [pop16_eq] at h
  injection h with h
  injection h with _ h
  subst h
  exact K.cpu _ hs

theorem read16 {a : Addr} {s t : State} {w : Addr} (hs : P s) (h : Machine.read16 a s = .ok (w, t)) : P t := by
  unfold Machine.read16 at h
  split at h
  · cases h
  · rename_i hlo
    split at h
    · cases h
    · rename_i hhi
      injection h with h
      injection h with _ h
      subst h
      exact K.read8 (K.read8 hs hlo) hhi

theorem read16PageWrap {a : Addr} {s t : State} {w : Addr} (hs : P s) (h : Machine.read16PageWrap a s = .ok (w, t)) :
    P t := by
  unfold Machine.read16PageWrap at h
  split at h
  · cases h
  · rename_i hlo
    split at h
    · cases h
    · rename_i hhi
      injection h with h
      injection h with _ h
      subst h
      exact K.read8 (K.read8 hs hlo) hhi

theorem enterInterrupt {ret : Addr} {brk : Bool} {vector : Addr} {s t : State} (hs : P s)
    (h : Machine.enterInterrupt ret brk vector s = .ok t) : P t := by
  unfold Machine.enterInterrupt at h
  split at h
  · cases h
  · rename_i h1
    split at h
    · cases h
    · rename_i h2
      dsimp only at h
      split at h
      · cases h
      · rename_i h3
        injection h with h
        subst h
        exact K.cpu _ (K.read16 (K.cpu _ (K.push (K.push16 hs h1) h2)) h3)

theorem leaveInterrupt {s t : State} (hs : P s) (h : Machine.leaveInterrupt s = .ok t) : P t := by
  rw [leaveInterrupt_eq] at h
  injection h with h
  subst h
  exact K.cpu _ hs

theorem serviceInterrupt {kind : Interrupt} {s t : State} (hs : P s) (h : Machine.serviceInterrupt kind s = .ok t) :
    P t := by
  unfold Machine.serviceInterrupt at h
  split at h
  · cases h
  · rename_i h1
    injection h with h
    subst h
    exact K.cpu _ (K.cpu _ (K.enterInterrupt hs h1))

theorem resolve {m : Operand} {s t : State} {p : Place} {c : Bool} (hs : P s) (h : Machine.resolve m s = .ok (p, c, t)) :
    P t := by
  unfold Machine.resolve at h
  split at h <;> try (injection h with h; injection h with _ h; injection h with _ h; subst h; exact hs)
  all_goals
    split at h
    · cases h
    · rename_i hr
      injection h with h; injection h with _ h; injection h with _ h; subst h
      exact K.read16PageWrap hs hr

theorem loadPlace {p : Place} {s t : State} {v : Byte} (hs : P s) (h : Machine.loadPlace p s = .ok (v, t)) : P t := by
  unfold Machine.loadPlace at h
  split at h
  · injection h with h; injection h with _ h; subst h; exact hs
  · injection h with h; injection h with _ h; subst h; exact hs
  · exact K.read8 hs h

theorem storePlace {p : Place} {s t : State} {v : Byte} (hs : P s) (h : Machine.storePlace p v s = .ok t) : P t := by
  unfold Machine.storePlace at h
  split at h
  · injection h with h; subst h; exact K.cpu _ hs
  · injection h with h; subst h; exact hs
  · exact K.write8 hs h

theorem executeImplied {e : Option Entry} {size : Nat} {action : State → Except Fault State} {s t : State}
    (ha : ∀ {s t : State}, P s → action s = .ok t → P t) (hs : P s)
    (h : Machine.executeImplied e size action s = .next t) : P t := by
  unfold Machine.executeImplied at h
  split at h
  · cases h
  · unfold answer at h
    split at h
    · rename_i hr
      injection h with h
      subst h
      exact ha (K.cpu _ hs) hr
    · cases h

theorem execute {e : Option Entry} {m : Operand} {action : Place → State → Except Fault State} {s t : State}
    (ha : ∀ {p : Place} {s t : State}, P s → action p s = .ok t → P t) (hs : P s)
    (h : Machine.execute e m action s = .next t) : P t := by
  unfold Machine.execute at h
  split at h
  · cases h
  · split at h
    · cases h
    · rename_i hr
      unfold answer at h
      split at h
      · rename_i hr'
        injection h with h
        subst h
        exact ha (K.cpu _ (K.resolve hs hr)) hr'
      · cases h

theorem executeRead {e : Option Entry} {m : Operand} {f : Byte → State → State} {s t : State}
    (hf : ∀ {s : State} (v : Byte), P s → P (f v s)) (hs : P s) (h : Machine.executeRead e m f s = .next t) : P t := by
  refine K.execute (fun {p s t} hs h => ?_) hs h
  split at h
  · cases h
  · rename_i hl
    injection h with h
    subst h
    exact hf _ (K.loadPlace hs hl)

theorem executeStore {e : Option Entry} {m : Operand} {reg : State → Byte} {s t : State} (hs : P s)
    (h : Machine.executeStore e m reg s = .next t) : P t :=
  K.execute (fun hs h => K.storePlace hs h) hs h

theorem executeModify {e : Option Entry} {m : Operand} {result : Byte → Status → Byte}
    {carry : Byte → Status → Status} {s t : State} (hs : P s)
    (h : Machine.executeModify e m result carry s = .next t) : P t := by
  refine K.execute (fun {p s t} hs h => ?_) hs h
  split at h
  · cases h
  · rename_i hl
    dsimp only at h
    split at h
    · cases h
    · rename_i hw
      injection h with h
      subst h
      exact K.cpu _ (K.storePlace (K.cpu _ (K.loadPlace hs hl)) hw)

theorem executeBranch {e : Option Entry} {op8 : Byte} {cond : Status → Bool} {s t : State} (hs : P s)
    (h : Machine.executeBranch e op8 cond s = .next t) : P t := by
  refine K.executeImplied (fun {s t} hs h => ?_) hs h
  injection h with h
  subst h
  unfold takeBranch
  split
  · exact K.cpu _ (K.cpu _ hs)
  · exact hs

/-- Every instruction that completes keeps the property. -/
theorem exec {i : Instr} {s t : State} (hs : P s) (h : Machine.exec i s = .next t) : P t := by
  cases i with
  | lda a0 =>
    rw [exec_lda] at h
    exact K.executeRead (fun v hs => K.cpu _ (K.cpu _ hs)) hs h
  | ldx a0 =>
    rw [exec_ldx] at h
    exact K.executeRead (fun v hs => K.cpu _ (K.cpu _ hs)) hs h
  | ldy a0 =>
    rw [exec_ldy] at h
    exact K.executeRead (fun v hs => K.cpu _ (K.cpu _ hs)) hs h
  | sta a0 =>
    rw [exec_sta] at h
    exact K.executeStore hs h
  | stx a0 =>
    rw [exec_stx] at h
    exact K.executeStore hs h
  | sty a0 =>
    rw [exec_sty] at h
    exact K.executeStore hs h
  | tax =>
    rw [exec_tax] at h
    exact K.executeImplied (fun hs h => by injection h with h; subst h; exact K.cpu _ (K.cpu _ hs)) hs h
  | tay =>
    rw [exec_tay] at h
    exact K.executeImplied (fun hs h => by injection h with h; subst h; exact K.cpu _ (K.cpu _ hs)) hs h
  | txa =>
    rw [exec_txa] at h
    exact K.executeImplied (fun hs h => by injection h with h; subst h; exact K.cpu _ (K.cpu _ hs)) hs h
  | tya =>
    rw [exec_tya] at h
    exact K.executeImplied (fun hs h => by injection h with h; subst h; exact K.cpu _ (K.cpu _ hs)) hs h
  | tsx =>
    rw [exec_tsx] at h
    exact K.executeImplied (fun hs h => by injection h with h; subst h; exact K.cpu _ (K.cpu _ hs)) hs h
  | txs =>
    rw [exec_txs] at h
    exact K.executeImplied (fun hs h => by injection h with h; subst h; exact K.cpu _ hs) hs h
  | adc a0 =>
    rw [exec_adc] at h
    exact K.executeRead (fun v hs => K.cpu _ (K.cpu _ hs)) hs h
  | sbc a0 =>
    rw [exec_sbc] at h
    exact K.executeRead (fun v hs => K.cpu _ (K.cpu _ hs)) hs h
  | and a0 =>
    rw [exec_and] at h
    exact K.executeRead (fun v hs => K.cpu _ (K.cpu _ hs)) hs h
  | ora a0 =>
    rw [exec_ora] at h
    exact K.executeRead (fun v hs => K.cpu _ (K.cpu _ hs)) hs h
  | eor a0 =>
    rw [exec_eor] at h
    exact K.executeRead (fun v hs => K.cpu _ (K.cpu _ hs)) hs h
  | cmp a0 =>
    rw [exec_cmp] at h
    exact K.executeRead (fun v hs => K.cpu _ hs) hs h
  | cpx a0 =>
    rw [exec_cpx] at h
    exact K.executeRead (fun v hs => K.cpu _ hs) hs h
  | cpy a0 =>
    rw [exec_cpy] at h
    exact K.executeRead (fun v hs => K.cpu _ hs) hs h
  | bit a0 =>
    rw [exec_bit] at h
    exact K.executeRead (fun v hs => K.cpu _ hs) hs h
  | asl a0 =>
    rw [exec_asl] at h
    exact K.executeModify hs h
  | lsr a0 =>
    rw [exec_lsr] at h
    exact K.executeModify hs h
  | rol a0 =>
    rw [exec_rol] at h
    exact K.executeModify hs h
  | ror a0 =>
    rw [exec_ror] at h
    exact K.executeModify hs h
  | inc a0 =>
    rw [exec_inc] at h
    exact K.executeModify hs h
  | dec a0 =>
    rw [exec_dec] at h
    exact K.executeModify hs h
  | inx =>
    rw [exec_inx] at h
    exact K.executeImplied (fun hs h => by injection h with h; subst h; exact K.cpu _ (K.cpu _ hs)) hs h
  | iny =>
    rw [exec_iny] at h
    exact K.executeImplied (fun hs h => by injection h with h; subst h; exact K.cpu _ (K.cpu _ hs)) hs h
  | dex =>
    rw [exec_dex] at h
    exact K.executeImplied (fun hs h => by injection h with h; subst h; exact K.cpu _ (K.cpu _ hs)) hs h
  | dey =>
    rw [exec_dey] at h
    exact K.executeImplied (fun hs h => by injection h with h; subst h; exact K.cpu _ (K.cpu _ hs)) hs h
  | bcc a0 =>
    rw [exec_bcc] at h
    exact K.executeBranch hs h
  | bcs a0 =>
    rw [exec_bcs] at h
    exact K.executeBranch hs h
  | beq a0 =>
    rw [exec_beq] at h
    exact K.executeBranch hs h
  | bne a0 =>
    rw [exec_bne] at h
    exact K.executeBranch hs h
  | bmi a0 =>
    rw [exec_bmi] at h
    exact K.executeBranch hs h
  | bpl a0 =>
    rw [exec_bpl] at h
    exact K.executeBranch hs h
  | bvc a0 =>
    rw [exec_bvc] at h
    exact K.executeBranch hs h
  | bvs a0 =>
    rw [exec_bvs] at h
    exact K.executeBranch hs h
  | jmp a0 =>
    rw [exec_jmp] at h
    refine K.execute (fun {p s t} hs h => ?_) hs h
    cases p <;> (injection h with h; subst h)
    · exact hs
    · exact hs
    · exact K.cpu _ hs
  | jsr a0 =>
    rw [exec_jsr] at h
    refine K.executeImplied (fun {s t} hs h => ?_) hs h
    split at h
    · cases h
    · rename_i hp
      injection h with h
      subst h
      exact K.cpu _ (K.push16 hs hp)
  | rts =>
    rw [exec_rts] at h
    refine K.executeImplied (fun {s t} hs h => ?_) hs h
    split at h
    · cases h
    · rename_i hp
      injection h with h
      subst h
      exact K.cpu _ (K.pop16 hs hp)
  | rti =>
    rw [exec_rti] at h
    exact K.executeImplied (fun hs h => K.leaveInterrupt hs h) hs h
  | brk =>
    rw [exec_brk] at h
    exact K.executeImplied (fun hs h => K.enterInterrupt hs h) hs h
  | pha =>
    rw [exec_pha] at h
    exact K.executeImplied (fun hs h => K.push hs h) hs h
  | pla =>
    rw [exec_pla] at h
    refine K.executeImplied (fun {s t} hs h => ?_) hs h
    split at h
    · cases h
    · rename_i hp
      injection h with h
      subst h
      exact K.cpu _ (K.cpu _ (K.pop hs hp))
  | php =>
    rw [exec_php] at h
    exact K.executeImplied (fun hs h => K.push hs h) hs h
  | plp =>
    rw [exec_plp] at h
    refine K.executeImplied (fun {s t} hs h => ?_) hs h
    split at h
    · cases h
    · rename_i hp
      injection h with h
      subst h
      exact K.cpu _ (K.pop hs hp)
  | clc =>
    rw [exec_clc] at h
    exact K.executeImplied (fun hs h => by injection h with h; subst h; exact K.cpu _ hs) hs h
  | sec =>
    rw [exec_sec] at h
    exact K.executeImplied (fun hs h => by injection h with h; subst h; exact K.cpu _ hs) hs h
  | cli =>
    rw [exec_cli] at h
    exact K.executeImplied (fun hs h => by injection h with h; subst h; exact K.cpu _ hs) hs h
  | sei =>
    rw [exec_sei] at h
    exact K.executeImplied (fun hs h => by injection h with h; subst h; exact K.cpu _ hs) hs h
  | clv =>
    rw [exec_clv] at h
    exact K.executeImplied (fun hs h => by injection h with h; subst h; exact K.cpu _ hs) hs h
  | cld =>
    rw [exec_cld] at h
    exact K.executeImplied (fun hs h => by injection h with h; subst h; exact K.cpu _ hs) hs h
  | sed =>
    rw [exec_sed] at h
    exact K.executeImplied (fun hs h => by injection h with h; subst h; exact K.cpu _ hs) hs h
  | nop =>
    rw [exec_nop] at h
    exact K.executeImplied (fun hs h => by injection h with h; subst h; exact hs) hs h
  | nopStar a0 a1 =>
    rw [exec_nopStar] at h
    exact K.executeImplied (fun hs h => by injection h with h; subst h; exact hs) hs h
  | und a0 =>
    rw [exec_und] at h
    exact K.executeImplied (fun hs h => by injection h with h; subst h; exact hs) hs h

end Keeps

end Sys2Proof.Machine
end

