-- ==== Sys2Proof/Laws/Ppu.lean ====
section
/-! SUPPORT. What each stage of a PPU tick can change, said once, and what the port writes leave alone. -/

namespace Sys2Proof.Machine

/-! ### The stages of a dot -/

/-- R359: the sprite-0 test changes the hit flag alone, and never clears it. -/
theorem Ppu.sprite0Check_eq (cart : Cartridge) (x y : Nat) (bg : BitVec 4) (p : Ppu) :
    ∃ hit, Ppu.sprite0Check cart x y bg p = { p with sprite0Hit := hit } ∧ (p.sprite0Hit = true → hit = true) := by
  unfold Ppu.sprite0Check
  split
  · exact ⟨true, rfl, fun _ => rfl⟩
  · exact ⟨p.sprite0Hit, rfl, id⟩

/-- R343, R345: the pixel output changes the hit flag and one framebuffer entry. -/
theorem Ppu.pixelStage_eq (cart : Cartridge) (s c : Nat) (p : Ppu) :
    ∃ hit fb, Ppu.pixelStage cart s c p = { p with sprite0Hit := hit, framebuffer := fb } ∧
      (p.sprite0Hit = true → hit = true) ∧
      (fb = p.framebuffer ∨ ∃ i px, i < 256 * 240 ∧ fb = Cells.write p.framebuffer i px) ∧
      (239 < s ∨ c = 0 ∨ 256 < c → hit = p.sprite0Hit ∧ fb = p.framebuffer) := by
  unfold Ppu.pixelStage
  split
  · rename_i h
    obtain ⟨hit, e, hkeep⟩ := Ppu.sprite0Check_eq cart (c - 1) s (p.background (c - 1)) p
    unfold Ppu.outputPixel
    dsimp only
    rw [e]
    exact ⟨hit, _, rfl, hkeep, .inr ⟨s * 256 + (c - 1), _, by omega, rfl⟩, fun hd => by omega⟩
  · exact ⟨p.sprite0Hit, p.framebuffer, rfl, id, .inl rfl, fun _ => ⟨rfl, rfl⟩⟩

/-- R348: the attribute bits stand in bits 3:2. -/
theorem attrBits_mask (v : BitVec 15) (at8 : Byte) : attrBits v at8 &&& 0xF3 = 0 := by
  have h : ∀ b : Byte, ((b &&& 3) <<< 2) &&& 0xF3 = 0 := by decide +kernel
  exact h _

/-- R347 to R351: a micro-step changes the pipeline or one of the four latches. -/
theorem Ppu.fetchStep_eq (cart : Cartridge) (k : Nat) (p : Ppu) :
    ∃ nt ab lo hi pipe,
      Ppu.fetchStep cart k p = { p with ntByte := nt, atBits := ab, ptLow := lo, ptHigh := hi, pipe := pipe } ∧
        (p.atBits &&& 0xF3 = 0 → ab &&& 0xF3 = 0) := by
  unfold Ppu.fetchStep
  split
  · exact ⟨p.ntByte, p.atBits, p.ptLow, p.ptHigh, _, rfl, id⟩
  · exact ⟨_, p.atBits, p.ptLow, p.ptHigh, p.pipe, rfl, id⟩
  · exact ⟨p.ntByte, _, p.ptLow, p.ptHigh, p.pipe, rfl, fun _ => attrBits_mask _ _⟩
  · exact ⟨p.ntByte, p.atBits, _, p.ptHigh, p.pipe, rfl, id⟩
  · exact ⟨p.ntByte, p.atBits, p.ptLow, _, p.pipe, rfl, id⟩
  · exact ⟨p.ntByte, p.atBits, p.ptLow, p.ptHigh, p.pipe, rfl, id⟩

/-- R343: the fetch engine and the scroll updates change V, the pipeline and the latches. -/
theorem Ppu.renderStage_eq (cart : Cartridge) (s c : Nat) (p : Ppu) :
    ∃ v nt ab lo hi pipe,
      Ppu.renderStage cart s c p =
          { p with v := v, ntByte := nt, atBits := ab, ptLow := lo, ptHigh := hi, pipe := pipe } ∧
        (p.atBits &&& 0xF3 = 0 → ab &&& 0xF3 = 0) := by
  have fetch : ∃ nt ab lo hi pipe,
      Ppu.fetchStage cart c p = { p with ntByte := nt, atBits := ab, ptLow := lo, ptHigh := hi, pipe := pipe } ∧
        (p.atBits &&& 0xF3 = 0 → ab &&& 0xF3 = 0) := by
    unfold Ppu.fetchStage
    split
    · obtain ⟨nt, ab, lo, hi, pipe, e, h⟩ := Ppu.fetchStep_eq cart (c % 8) { p with pipe := p.pipe <<< 4 }
      exact ⟨nt, ab, lo, hi, pipe, e, h⟩
    · exact ⟨p.ntByte, p.atBits, p.ptLow, p.ptHigh, p.pipe, rfl, id⟩
  unfold Ppu.renderStage
  split
  · obtain ⟨nt, ab, lo, hi, pipe, e, h⟩ := fetch
    dsimp only
    rw [e]
    exact ⟨_, nt, ab, lo, hi, pipe, rfl, h⟩
  · exact ⟨p.v, p.ntByte, p.atBits, p.ptLow, p.ptHigh, p.pipe, rfl, id⟩

/-- R343, R356, R357: the vblank stage, in full. -/
theorem Ppu.vblankStage_eq (s c : Nat) (p : Ppu) :
    Ppu.vblankStage s c p =
      { p with
        vblank := if s = 241 ∧ c = 1 then true else if s = 261 ∧ c = 1 then false else p.vblank
        sprite0Hit := if s = 261 ∧ c = 1 then false else p.sprite0Hit
        nmiDelay := if s = 241 ∧ c = 1 ∧ p.nmiEnable = true ∧ p.nmiDelay = 0 then 15 else p.nmiDelay } := by
  unfold Ppu.vblankStage
  by_cases h : s = 241 ∧ c = 1
  · obtain ⟨rfl, rfl⟩ := h
    by_cases e : p.nmiEnable = true ∧ p.nmiDelay = 0 <;> simp [Ppu.vblankStart, Config.nmiDelay, e]
  · by_cases h' : s = 261 ∧ c = 1
    · obtain ⟨rfl, rfl⟩ := h'
      simp [Ppu.vblankEnd]
    · have h'' : ¬(s = 241 ∧ c = 1 ∧ p.nmiEnable = true ∧ p.nmiDelay = 0) := fun x => h ⟨x.1, x.2.1⟩
      simp only [h, h', h'', if_false]

/-- R341: the dot after (scanline, cycle). -/
theorem Ppu.advanceDot_eq (p : Ppu) :
    p.advanceDot =
      { p with
        cycle := if p.cycle + 1 = 341 then 0 else p.cycle + 1
        scanline := if p.cycle + 1 = 341 then if p.scanline + 1 = 262 then 0 else p.scanline + 1 else p.scanline
        frame := if p.cycle + 1 = 341 ∧ p.scanline + 1 = 262 then p.frame + 1 else p.frame } := by
  unfold Ppu.advanceDot
  simp only [Config.dotsPerLine, Config.linesPerFrame]
  by_cases h : p.cycle + 1 = 341
  · by_cases h' : p.scanline + 1 = 262 <;> simp [h, h']
  · simp [h]

/-- What one tick of the PPU can do: the dot counters, the flags and the NMI delay as R341, R356 to R358 say; V, the
pipeline, the latches and the framebuffer by the work of the dot; nothing else. -/
theorem Ppu.tick_eq (cart : Cartridge) (p : Ppu) :
    ∃ v nt ab lo hi pipe hit fb,
      p.tick cart =
        { p with
          v := v, ntByte := nt, atBits := ab, ptLow := lo, ptHigh := hi, pipe := pipe, framebuffer := fb
          cycle := p.advanceDot.cycle
          scanline := p.advanceDot.scanline
          frame := p.advanceDot.frame
          vblank := if p.advanceDot.scanline = 241 ∧ p.advanceDot.cycle = 1 then true
            else if p.advanceDot.scanline = 261 ∧ p.advanceDot.cycle = 1 then false else p.vblank
          sprite0Hit := if p.advanceDot.scanline = 261 ∧ p.advanceDot.cycle = 1 then false else hit
          nmiDelay := if p.advanceDot.scanline = 241 ∧ p.advanceDot.cycle = 1 ∧ p.nmiEnable = true ∧
            p.nmiDelay - 1 = 0 then 15 else p.nmiDelay - 1 } ∧
      (p.atBits &&& 0xF3 = 0 → ab &&& 0xF3 = 0) ∧ (p.sprite0Hit = true → hit = true) ∧
      (fb = p.framebuffer ∨ ∃ i px, i < 256 * 240 ∧ fb = Cells.write p.framebuffer i px) ∧
      (239 < p.advanceDot.scanline ∨ p.advanceDot.cycle = 0 ∨ 256 < p.advanceDot.cycle →
        hit = p.sprite0Hit ∧ fb = p.framebuffer) := by
  obtain ⟨hit, fb, e1, h1, h2, h4⟩ :=
    Ppu.pixelStage_eq cart p.advanceDot.scanline p.advanceDot.cycle p.countNmi.advanceDot
  obtain ⟨v, nt, ab, lo, hi, pipe, e2, h3⟩ :=
    Ppu.renderStage_eq cart p.advanceDot.scanline p.advanceDot.cycle
      { p.countNmi.advanceDot with sprite0Hit := hit, framebuffer := fb }
  have hs : p.countNmi.advanceDot.scanline = p.advanceDot.scanline := by simp only [Ppu.advanceDot_eq]; rfl
  have hc : p.countNmi.advanceDot.cycle = p.advanceDot.cycle := by simp only [Ppu.advanceDot_eq]; rfl
  have hf : p.countNmi.advanceDot.frame = p.advanceDot.frame := by simp only [Ppu.advanceDot_eq]; rfl
  have hk : p.countNmi.advanceDot =
      { p with
        cycle := p.advanceDot.cycle
        scanline := p.advanceDot.scanline
        frame := p.advanceDot.frame
        nmiDelay := p.nmiDelay - 1 } := by
    rw [Ppu.advanceDot_eq p.countNmi, Ppu.advanceDot_eq p]
    rfl
  refine ⟨v, nt, ab, lo, hi, pipe, hit, fb, ?_, ?_, ?_, ?_, ?_⟩
  · show Ppu.dotWork cart p.countNmi.advanceDot.scanline p.countNmi.advanceDot.cycle p.countNmi.advanceDot = _
    rw [hs, hc]
    unfold Ppu.dotWork
    rw [e1, e2, Ppu.vblankStage_eq, hk]
  · rw [hk] at h3
    exact h3
  · rw [hk] at h1
    exact h1
  · rw [hk] at h2
    exact h2
  · rw [hk] at h4
    exact h4

/-! ### The register ports -/

/-- R321, R322: the NMI check of a PPUCTRL write changes the delay counter alone. -/
theorem Ppu.nmiEnableCheck_eq (old : Bool) (p : Ppu) :
    Ppu.nmiEnableCheck old p =
      { p with
        nmiDelay := if old = false ∧ p.nmiEnable = true ∧ p.vblank = true ∧ p.nmiDelay = 0 then 15 else p.nmiDelay } := by
  unfold Ppu.nmiEnableCheck
  split <;> rfl

/-- R103: a nametable index is inside the nametable storage. -/
theorem ntIndex_lt (mirroring : Mirroring) (a : PpuAddr) : ntIndex mirroring a < 0x800 := by
  unfold ntIndex
  cases mirroring <;> simp only <;> omega

/-- R105: a palette index is inside the palette storage. -/
theorem palIndex_lt (a : PpuAddr) : palIndex a < 0x20 := by
  unfold palIndex
  simp only
  split <;> omega

/-- R100, R102: what a write of the PPU address space can do. -/
theorem Ppu.write_cases (p : Ppu) (cart : Cartridge) (a : PpuAddr) (v : Byte) :
    p.write cart a v = (p, cart) ∨
      (a.toNat < 0x2000 ∧ cart.chrIsRam = true ∧
        p.write cart a v = (p, { cart with chr := Cells.write cart.chr a.toNat v })) ∨
      (∃ i, i < 0x800 ∧ p.write cart a v = ({ p with nt := Cells.write p.nt i v }, cart)) ∨
      (∃ i, i < 0x20 ∧ p.write cart a v = ({ p with pal := Cells.write p.pal i v }, cart)) := by
  unfold Ppu.write
  split
  · rename_i h
    by_cases hr : cart.chrIsRam = true
    · exact .inr (.inl ⟨h, hr, by simp [hr]⟩)
    · exact .inl (by simp [hr])
  · split
    · exact .inr (.inr (.inl ⟨_, ntIndex_lt _ _, rfl⟩))
    · exact .inr (.inr (.inr ⟨_, palIndex_lt _, rfl⟩))

end Sys2Proof.Machine
end

