-- ==== Sys2Proof/Laws/Step.lean ====
section
/-! SUPPORT. What a step can do: the cases of a master tick, and what every step keeps. -/

namespace Sys2Proof.Machine

/-! ### The cases of a step -/

/-- R412: a faulted machine takes no step. -/
theorem step_of_fault {s : State} {r : FaultReason} (h : s.fault = some r) : step s = .fault (.access r s) := by
  simp only [step, stepMachine, h]

theorem step_of_running {s : State} (h : s.fault = none) : step s = masterTick (applyInputs s) := by
  simp only [step, stepMachine, h]

/-- R455: a step that completes is the inputs, the CPU tick and three PPU ticks. -/
theorem step_next {s t : State} (h : step s = .next t) :
    s.fault = none ∧ ∃ u, cpuTick (applyInputs s) = .next u ∧ t = ppuTick (ppuTick (ppuTick u)) := by
  unfold step stepMachine at h
  split at h
  · cases h
  · rename_i hf
    unfold masterTick at h
    split at h
    · rename_i u hu
      injection h with h
      exact ⟨hf, u, hu, h.symm⟩
    · cases h
    · cases h

/-- R454: the CPU tick between two boundaries. -/
theorem cpuTick_count {s : State} (h : 2 ≤ s.cpu.remaining) : cpuTick s = .next (s.setRemaining (s.cpu.remaining - 1)) := by
  have : ¬s.cpu.remaining - 1 = 0 := by omega
  simp only [cpuTick, State.setRemaining, this, if_false]

/-- R454: the CPU tick of a boundary. -/
theorem cpuTick_boundary {s : State} (h : s.cpu.remaining ≤ 1) :
    cpuTick s =
      match boundary (s.setRemaining 0) with
      | .next t => .next (t.schedule s.cpu.cycles)
      | .fault f => .fault f
      | .refused r => .refused r := by
  have h0 : s.cpu.remaining - 1 = 0 := by omega
  rw [cpuTick, h0]
  rfl

/-- R454: the cases of a CPU tick that completes. -/
theorem cpuTick_next {s t : State} (h : cpuTick s = .next t) :
    (2 ≤ s.cpu.remaining ∧ t = s.setRemaining (s.cpu.remaining - 1)) ∨
      (s.cpu.remaining ≤ 1 ∧ ∃ u, boundary (s.setRemaining 0) = .next u ∧ t = u.schedule s.cpu.cycles) := by
  by_cases hr : 2 ≤ s.cpu.remaining
  · rw [cpuTick_count hr] at h
    injection h with h
    exact .inl ⟨hr, h.symm⟩
  · rw [cpuTick_boundary (by omega)] at h
    split at h
    · rename_i u hu
      injection h with h
      exact .inr ⟨by omega, u, hu, h.symm⟩
    · cases h
    · cases h

/-- R404: the cases of a boundary that completes. -/
theorem boundary_next {s t : State} (h : boundary s = .next t) :
    (∃ k, s.cpu.pending = some k ∧ serviceInterrupt k s = .ok t) ∨
      (s.cpu.pending = none ∧ ∃ i u, fetch s = .ok (i, u) ∧ exec i u = .next t) := by
  unfold boundary at h
  split at h
  · rename_i k hk
    unfold answer at h
    split at h
    · rename_i hs
      injection h with h
      subst h
      exact .inl ⟨k, hk, hs⟩
    · cases h
  · rename_i hn
    unfold runInstruction at h
    split at h
    · cases h
    · rename_i i u hf
      exact .inr ⟨hn, i, u, hf, h⟩

/-- R160: a completed fetch has read the opcode, and the instruction is the one the opcode and the bytes after it stand
for. -/
theorem fetch_ok {s t : State} {i : Instr} (h : fetch s = .ok (i, t)) : ∃ b0 b1 b2, i = decode3 b0 b1 b2 := by
  unfold fetch at h
  split at h
  · cases h
  · dsimp only at h
    split at h
    · injection h with h; injection h with h _; exact ⟨_, _, _, h.symm⟩
    all_goals
      split at h
      · cases h
      · injection h with h; injection h with h _; exact ⟨_, _, _, h.symm⟩

/-- R160: when the bytes the CPU reads at PC lie in plain memory and decode to `i`, the fetch gives `i` and changes
nothing. -/
theorem fetch_of_peek {s : State} {i : Instr} {bytes : List Byte} (hd : decode bytes = .ok (i, []))
    (hp : ∀ k : Nat, k < bytesRead i → s.peek (s.cpu.pc + BitVec.ofNat 16 k) = bytes[k]?) :
    fetch s = .ok (i, s) := by
  cases bytes with
  | nil => cases hd
  | cons b0 rest =>
    unfold decode at hd
    dsimp only at hd
    split at hd
    · cases hd
    rename_i hlen
    injection hd with hd
    injection hd with hi _
    have hfetch := decode3_fetch b0 (rest.getD 0 0) (rest.getD 1 0)
    rw [hi] at hlen hfetch
    have hsize := Instr.size_of_fetch i
    have byte : ∀ k, k < bytesRead i → k < i.size →
        read8 (s.cpu.pc + BitVec.ofNat 16 k) s = .ok ((b0 :: rest).getD k 0, s) := by
      intro k h1 h2
      apply read8_of_peek
      rw [hp k h1]
      have : k < (b0 :: rest).length := by
        rw [List.length_cons]
        omega
      rw [List.getElem?_eq_getElem this, List.getD_eq_getElem _ _ this]
    have h0 : read8 s.cpu.pc s = .ok (b0, s) := by
      have := byte 0 (by unfold bytesRead; split <;> omega) (Instr.size_bounds i).1
      rwa [show s.cpu.pc + BitVec.ofNat 16 0 = s.cpu.pc from BitVec.add_zero _] at this
    unfold fetch
    rw [h0]
    dsimp only
    cases hf : (decode3 b0 0 0).fetch with
    | nothing =>
      dsimp only
      rw [← decode3_of_nothing hf, hi]
    | immediate =>
      rw [hf] at hfetch
      have h1 := byte 1 (by unfold bytesRead; rw [hfetch]; decide) (by rw [hsize.1 (.inr hfetch)]; decide)
      dsimp only [readImmediate]
      rw [show s.cpu.pc + 1 = s.cpu.pc + BitVec.ofNat 16 1 from rfl, h1]
      dsimp only
      rw [← decode3_of_one (b2 := rest.getD 1 0) (.inr hf)]
      exact congrArg (fun x => Except.ok (x, s)) hi
    | op8 =>
      rw [hf] at hfetch
      have h1 := byte 1 (by unfold bytesRead; rw [hfetch]; decide) (by rw [hsize.1 (.inl hfetch)]; decide)
      dsimp only
      rw [show s.cpu.pc + 1 = s.cpu.pc + BitVec.ofNat 16 1 from rfl, h1]
      dsimp only
      rw [← decode3_of_one (b2 := rest.getD 1 0) (.inl hf)]
      exact congrArg (fun x => Except.ok (x, s)) hi
    | op16 =>
      rw [hf] at hfetch
      have h1 := byte 1 (by unfold bytesRead; rw [hfetch]; decide) (by rw [hsize.2 hfetch]; decide)
      have h2 := byte 2 (by unfold bytesRead; rw [hfetch]; decide) (by rw [hsize.2 hfetch]; decide)
      dsimp only [read16]
      rw [show s.cpu.pc + 1 = s.cpu.pc + BitVec.ofNat 16 1 from rfl, h1]
      dsimp only
      rw [show s.cpu.pc + BitVec.ofNat 16 1 + 1 = s.cpu.pc + BitVec.ofNat 16 2 by rw [BitVec.add_assoc]; rfl, h2]
      dsimp only
      rw [loByte_leWord, hiByte_leWord]
      exact congrArg (fun x => Except.ok (x, s)) hi

/-! ### What every step keeps -/

namespace Keeps

variable {P : State → Prop} (K : Keeps P)
include K

theorem fetch {s t : State} {i : Instr} (hs : P s) (h : Machine.fetch s = .ok (i, t)) : P t := by
  unfold Machine.fetch at h
  split at h
  · cases h
  · rename_i h0
    have h1 := K.read8 hs h0
    dsimp only at h
    split at h
    · injection h with h; injection h with _ h; subst h; exact h1
    · split at h
      · cases h
      · rename_i hr
        injection h with h; injection h with _ h; subst h
        unfold readImmediate at hr
        split at hr
        · rename_i hr'
          injection hr with hr
          subst hr
          exact K.read8 h1 hr'
        · cases hr
    · split at h
      · cases h
      · rename_i hr
        injection h with h; injection h with _ h; subst h
        exact K.read8 h1 hr
    · split at h
      · cases h
      · rename_i hr
        injection h with h; injection h with _ h; subst h
        exact K.read16 h1 hr

theorem boundary {s t : State} (hs : P s) (h : Machine.boundary s = .next t) : P t := by
  rcases boundary_next h with ⟨k, _, hk⟩ | ⟨_, i, u, hf, he⟩
  · exact K.serviceInterrupt hs hk
  · exact K.exec (K.fetch hs hf) he

theorem cpuTick {s t : State} (hs : P s) (h : Machine.cpuTick s = .next t) : P t := by
  rcases cpuTick_next h with ⟨_, rfl⟩ | ⟨_, u, hu, rfl⟩
  · exact K.cpu _ hs
  · exact K.cpu _ (K.boundary (K.cpu _ hs) hu)

end Keeps

/-- A property that a step keeps: what Keeps asks, the PPU tick and the host's operations. -/
structure StepKeeps (P : State → Prop) : Prop extends Keeps P where
  tick : ∀ {s : State}, P s → P (s.setPpu (s.ppu.tick s.cart))
  inputs : ∀ {s : State} (ops : List (List HostOp)), P s → P { s with inputs := ops }
  powerUp : ∀ {s : State}, P s → P (powerUp s)
  pads : ∀ {s : State} (p q : Buttons), P s → P (setPads p q s)

namespace StepKeeps

variable {P : State → Prop} (K : StepKeeps P)
include K

theorem requestNmi {s : State} (hs : P s) : P (Machine.requestNmi s) := K.cpu _ hs

theorem ppuTick {s : State} (hs : P s) : P (Machine.ppuTick s) := by
  unfold Machine.ppuTick
  dsimp only
  split
  · exact K.requestNmi (K.tick hs)
  · exact K.tick hs

theorem hostOp {s : State} (op : HostOp) (hs : P s) : P (op.apply s) := by
  cases op with
  | powerUp => exact K.powerUp hs
  | reset => exact K.cpu _ (K.cpu _ (K.cpu _ hs))
  | setPads p q => exact K.pads p q hs
  | requestNmi => exact K.requestNmi hs
  | requestIrq =>
    show P (Machine.requestIrq s)
    unfold Machine.requestIrq
    split
    · exact hs
    · split
      · exact K.cpu _ hs
      · exact hs

theorem applyInputs {s : State} (hs : P s) : P (Machine.applyInputs s) := by
  unfold Machine.applyInputs
  split
  · exact hs
  · rename_i ops rest _
    have h : ∀ (l : List HostOp) (u : State), P u → P (l.foldl (fun s op => op.apply s) u) := by
      intro l
      induction l with
      | nil => exact fun u hu => hu
      | cons op l ih => exact fun u hu => ih _ (K.hostOp op hu)
    exact h ops _ (K.inputs rest hs)

/-- Every step that completes keeps the property. -/
theorem step {s t : State} (hs : P s) (h : Machine.step s = .next t) : P t := by
  obtain ⟨_, u, hu, rfl⟩ := step_next h
  exact K.ppuTick (K.ppuTick (K.ppuTick (K.toKeeps.cpuTick (K.applyInputs hs) hu)))

end StepKeeps

/-! ### The clock -/

/-- R341: a PPU tick leaves everything but the PPU and the interrupt queue. -/
theorem ppuTick_eq (s : State) :
    ppuTick s =
      { s with
        ppu := s.ppu.tick s.cart
        cpu := { s.cpu with pending := if s.ppu.postsNmi then some .nmi else s.cpu.pending } } := by
  unfold ppuTick requestNmi
  dsimp only
  split <;> simp_all [State.setPpu, State.setPending]

/-- A master tick's three PPU ticks leave the CPU but for the interrupt queue. -/
theorem ppuTicks_cpu (s : State) :
    ∃ k, (ppuTick (ppuTick (ppuTick s))).cpu = { s.cpu with pending := k } := by
  simp only [ppuTick_eq]
  exact ⟨_, rfl⟩

/-! ### Power-up -/

/-- R450, R95: the reset vector read through the bus. -/
theorem read16_resetVector (s : State) : read16 Config.resetVector s = .ok (s.resetTarget, s) :=
  read16_prg Config.resetVector s (by decide) (by decide)

/-- `State.reset` is the blank cartridge powered up. -/
theorem powerUp_reset : powerUp State.reset = State.reset := by decide

end Sys2Proof.Machine
end

