-- ==== Sys2Proof/Laws/Fault.lean ====
section
/-! SUPPORT. Where a fault comes from: every fault of a step is the fault of one bus read or write of a state that the
step has reached, with the CPU registers of the kept state set by the step. -/

namespace Sys2Proof.Machine

/-- R98: a push never faults. -/
theorem push_ne_error {s : State} {v : Byte} {f : Fault} : push v s ≠ .error f := by
  rw [push_eq]
  simp

/-- A property `F` of faults that every bus access made from a state of `P` gives, and that a change of the kept CPU
registers keeps. -/
structure FaultsIn (P : State → Prop) (F : Fault → Prop) : Prop extends StepKeeps P where
  readFault : ∀ {a : Addr} {s : State} {f : Fault}, P s → read8 a s = .error f → F f
  writeFault : ∀ {a : Addr} {v : Byte} {s : State} {f : Fault}, P s → write8 a v s = .error f → F f
  kept : ∀ {f : Fault} (g : State → Cpu), F f → F (f.mapKept fun k => { k with cpu := g k })

namespace FaultsIn

variable {P : State → Prop} {F : Fault → Prop} (K : FaultsIn P F)
include K

theorem read16_fault {a : Addr} {s : State} {f : Fault} (hs : P s) (h : Machine.read16 a s = .error f) : F f := by
  unfold Machine.read16 at h
  split at h
  · rename_i hr
    injection h with h
    subst h
    exact K.readFault hs hr
  · rename_i hlo
    split at h
    · rename_i hr
      injection h with h
      subst h
      exact K.readFault (K.read8 hs hlo) hr
    · cases h

theorem read16PageWrap_fault {a : Addr} {s : State} {f : Fault} (hs : P s)
    (h : Machine.read16PageWrap a s = .error f) : F f := by
  unfold Machine.read16PageWrap at h
  split at h
  · rename_i hr
    injection h with h
    subst h
    exact K.readFault hs hr
  · rename_i hlo
    split at h
    · rename_i hr
      injection h with h
      subst h
      exact K.readFault (K.read8 hs hlo) hr
    · cases h

theorem enterInterrupt_fault {ret : Addr} {brk : Bool} {vector : Addr} {s : State} {f : Fault} (hs : P s)
    (h : Machine.enterInterrupt ret brk vector s = .error f) : F f := by
  unfold Machine.enterInterrupt at h
  rw [push16_eq] at h
  dsimp only at h
  rw [push_eq] at h
  dsimp only at h
  split at h
  · rename_i hr
    injection h with h
    subst h
    refine K.read16_fault ?_ hr
    have h1 : Machine.push16 ret s = .ok _ := push16_eq ret s
    exact K.cpu _ (K.push (K.push16 hs h1) (push_eq _ _))
  · cases h

theorem resolve_fault {m : Operand} {s : State} {f : Fault} (hs : P s) (h : Machine.resolve m s = .error f) : F f := by
  unfold Machine.resolve at h
  split at h <;> try cases h
  all_goals
    split at h
    · rename_i hr
      injection h with h
      subst h
      exact K.read16PageWrap_fault hs hr
    · cases h

theorem loadPlace_fault {p : Place} {s : State} {f : Fault} (hs : P s) (h : Machine.loadPlace p s = .error f) :
    F f := by
  unfold Machine.loadPlace at h
  split at h
  · cases h
  · cases h
  · exact K.readFault hs h

theorem storePlace_fault {p : Place} {v : Byte} {s : State} {f : Fault} (hs : P s)
    (h : Machine.storePlace p v s = .error f) : F f := by
  unfold Machine.storePlace at h
  split at h
  · cases h
  · cases h
  · exact K.writeFault hs h

theorem executeImplied_fault {e : Option Entry} {size : Nat} {action : State → Except Fault State} {s : State}
    {f : Fault} (ha : ∀ {s : State} {f : Fault}, P s → action s = .error f → F f) (hs : P s)
    (h : Machine.executeImplied e size action s = .fault f) : F f := by
  unfold Machine.executeImplied at h
  split at h
  · cases h
  · unfold answer at h
    split at h
    · cases h
    · rename_i hr
      injection h with h
      subst h
      exact ha (K.cpu _ hs) hr

theorem execute_fault {e : Option Entry} {m : Operand} {action : Place → State → Except Fault State} {s : State}
    {f : Fault} (ha : ∀ {p : Place} {s : State} {f : Fault}, P s → action p s = .error f → F f) (hs : P s)
    (h : Machine.execute e m action s = .fault f) : F f := by
  unfold Machine.execute at h
  split at h
  · cases h
  · split at h
    · rename_i hr
      injection h with h
      subst h
      exact K.resolve_fault hs hr
    · rename_i hr
      unfold answer at h
      split at h
      · cases h
      · rename_i hr'
        injection h with h
        subst h
        exact ha (K.cpu _ (K.resolve hs hr)) hr'

theorem executeRead_fault {e : Option Entry} {m : Operand} {g : Byte → State → State} {s : State} {f : Fault}
    (hs : P s) (h : Machine.executeRead e m g s = .fault f) : F f := by
  refine K.execute_fault (fun {p s f} hs h => ?_) hs h
  split at h
  · rename_i hl
    injection h with h
    subst h
    exact K.loadPlace_fault hs hl
  · cases h

theorem executeStore_fault {e : Option Entry} {m : Operand} {reg : State → Byte} {s : State} {f : Fault} (hs : P s)
    (h : Machine.executeStore e m reg s = .fault f) : F f :=
  K.execute_fault (fun hs h => K.storePlace_fault hs h) hs h

theorem executeModify_fault {e : Option Entry} {m : Operand} {result : Byte → Status → Byte}
    {carry : Byte → Status → Status} {s : State} {f : Fault} (hs : P s)
    (h : Machine.executeModify e m result carry s = .fault f) : F f := by
  refine K.execute_fault (fun {p s f} hs h => ?_) hs h
  split at h
  · rename_i hl
    injection h with h
    subst h
    exact K.loadPlace_fault hs hl
  · rename_i hl
    dsimp only at h
    split at h
    · rename_i hw
      injection h with h
      subst h
      exact K.storePlace_fault (K.cpu _ (K.loadPlace hs hl)) hw
    · cases h

theorem executeBranch_fault {e : Option Entry} {op8 : Byte} {cond : Status → Bool} {s : State} {f : Fault} (hs : P s)
    (h : Machine.executeBranch e op8 cond s = .fault f) : F f :=
  K.executeImplied_fault (fun _ h => by cases h) hs h

/-- The faults of an instruction. -/
theorem exec_fault {i : Instr} {s : State} {f : Fault} (hs : P s) (h : Machine.exec i s = .fault f) : F f := by
  cases i with
  | lda a0 =>
    rw [exec_lda] at h
    exact K.executeRead_fault hs h
  | ldx a0 =>
    rw [exec_ldx] at h
    exact K.executeRead_fault hs h
  | ldy a0 =>
    rw [exec_ldy] at h
    exact K.executeRead_fault hs h
  | sta a0 =>
    rw [exec_sta] at h
    exact K.executeStore_fault hs h
  | stx a0 =>
    rw [exec_stx] at h
    exact K.executeStore_fault hs h
  | sty a0 =>
    rw [exec_sty] at h
    exact K.executeStore_fault hs h
  | tax =>
    rw [exec_tax] at h
    exact K.executeImplied_fault (fun _ h => by cases h) hs h
  | tay =>
    rw [exec_tay] at h
    exact K.executeImplied_fault (fun _ h => by cases h) hs h
  | txa =>
    rw [exec_txa] at h
    exact K.executeImplied_fault (fun _ h => by cases h) hs h
  | tya =>
    rw [exec_tya] at h
    exact K.executeImplied_fault (fun _ h => by cases h) hs h
  | tsx =>
    rw [exec_tsx] at h
    exact K.executeImplied_fault (fun _ h => by cases h) hs h
  | txs =>
    rw [exec_txs] at h
    exact K.executeImplied_fault (fun _ h => by cases h) hs h
  | adc a0 =>
    rw [exec_adc] at h
    exact K.executeRead_fault hs h
  | sbc a0 =>
    rw [exec_sbc] at h
    exact K.executeRead_fault hs h
  | and a0 =>
    rw [exec_and] at h
    exact K.executeRead_fault hs h
  | ora a0 =>
    rw [exec_ora] at h
    exact K.executeRead_fault hs h
  | eor a0 =>
    rw [exec_eor] at h
    exact K.executeRead_fault hs h
  | cmp a0 =>
    rw [exec_cmp] at h
    exact K.executeRead_fault hs h
  | cpx a0 =>
    rw [exec_cpx] at h
    exact K.executeRead_fault hs h
  | cpy a0 =>
    rw [exec_cpy] at h
    exact K.executeRead_fault hs h
  | bit a0 =>
    rw [exec_bit] at h
    exact K.executeRead_fault hs h
  | asl a0 =>
    rw [exec_asl] at h
    exact K.executeModify_fault hs h
  | lsr a0 =>
    rw [exec_lsr] at h
    exact K.executeModify_fault hs h
  | rol a0 =>
    rw [exec_rol] at h
    exact K.executeModify_fault hs h
  | ror a0 =>
    rw [exec_ror] at h
    exact K.executeModify_fault hs h
  | inc a0 =>
    rw [exec_inc] at h
    exact K.executeModify_fault hs h
  | dec a0 =>
    rw [exec_dec] at h
    exact K.executeModify_fault hs h
  | inx =>
    rw [exec_inx] at h
    exact K.executeImplied_fault (fun _ h => by cases h) hs h
  | iny =>
    rw [exec_iny] at h
    exact K.executeImplied_fault (fun _ h => by cases h) hs h
  | dex =>
    rw [exec_dex] at h
    exact K.executeImplied_fault (fun _ h => by cases h) hs h
  | dey =>
    rw [exec_dey] at h
    exact K.executeImplied_fault (fun _ h => by cases h) hs h
  | bcc a0 =>
    rw [exec_bcc] at h
    exact K.executeBranch_fault hs h
  | bcs a0 =>
    rw [exec_bcs] at h
    exact K.executeBranch_fault hs h
  | beq a0 =>
    rw [exec_beq] at h
    exact K.executeBranch_fault hs h
  | bne a0 =>
    rw [exec_bne] at h
    exact K.executeBranch_fault hs h
  | bmi a0 =>
    rw [exec_bmi] at h
    exact K.executeBranch_fault hs h
  | bpl a0 =>
    rw [exec_bpl] at h
    exact K.executeBranch_fault hs h
  | bvc a0 =>
    rw [exec_bvc] at h
    exact K.executeBranch_fault hs h
  | bvs a0 =>
    rw [exec_bvs] at h
    exact K.executeBranch_fault hs h
  | jmp a0 =>
    rw [exec_jmp] at h
    exact K.execute_fault (fun {p s f} hs h => by cases p <;> cases h) hs h
  | jsr a0 =>
    rw [exec_jsr] at h
    refine K.executeImplied_fault (fun hs h => ?_) hs h
    rw [push16_eq] at h
    cases h
  | rts =>
    rw [exec_rts] at h
    refine K.executeImplied_fault (fun hs h => ?_) hs h
    rw [pop16_eq] at h
    cases h
  | rti =>
    rw [exec_rti] at h
    refine K.executeImplied_fault (fun hs h => ?_) hs h
    rw [leaveInterrupt_eq] at h
    cases h
  | brk =>
    rw [exec_brk] at h
    exact K.executeImplied_fault (fun hs h => K.enterInterrupt_fault hs h) hs h
  | pha =>
    rw [exec_pha] at h
    exact K.executeImplied_fault (fun _ h => absurd h push_ne_error) hs h
  | pla =>
    rw [exec_pla] at h
    refine K.executeImplied_fault (fun hs h => ?_) hs h
    rw [pop_eq] at h
    cases h
  | php =>
    rw [exec_php] at h
    exact K.executeImplied_fault (fun _ h => absurd h push_ne_error) hs h
  | plp =>
    rw [exec_plp] at h
    refine K.executeImplied_fault (fun hs h => ?_) hs h
    rw [pop_eq] at h
    cases h
  | clc =>
    rw [exec_clc] at h
    exact K.executeImplied_fault (fun _ h => by cases h) hs h
  | sec =>
    rw [exec_sec] at h
    exact K.executeImplied_fault (fun _ h => by cases h) hs h
  | cli =>
    rw [exec_cli] at h
    exact K.executeImplied_fault (fun _ h => by cases h) hs h
  | sei =>
    rw [exec_sei] at h
    exact K.executeImplied_fault (fun _ h => by cases h) hs h
  | clv =>
    rw [exec_clv] at h
    exact K.executeImplied_fault (fun _ h => by cases h) hs h
  | cld =>
    rw [exec_cld] at h
    exact K.executeImplied_fault (fun _ h => by cases h) hs h
  | sed =>
    rw [exec_sed] at h
    exact K.executeImplied_fault (fun _ h => by cases h) hs h
  | nop =>
    rw [exec_nop] at h
    exact K.executeImplied_fault (fun _ h => by cases h) hs h
  | nopStar a0 a1 =>
    rw [exec_nopStar] at h
    exact K.executeImplied_fault (fun _ h => by cases h) hs h
  | und a0 =>
    rw [exec_und] at h
    exact K.executeImplied_fault (fun _ h => by cases h) hs h

theorem serviceInterrupt_fault {kind : Interrupt} {s : State} {f : Fault} (hs : P s)
    (h : Machine.serviceInterrupt kind s = .error f) : F f := by
  unfold Machine.serviceInterrupt at h
  split at h
  · rename_i hr
    injection h with h
    subst h
    exact K.enterInterrupt_fault hs hr
  · cases h

/-- R411: the faults of fetching an instruction. -/
theorem fetch_fault {s : State} {f : Fault} (hs : P s) (h : Machine.fetch s = .error f) : F f := by
  unfold Machine.fetch at h
  split at h
  · rename_i hr
    injection h with h
    subst h
    exact K.readFault hs hr
  · rename_i h0
    have h1 := K.read8 hs h0
    dsimp only at h
    split at h
    · cases h
    · split at h
      · rename_i hr
        injection h with h
        subst h
        unfold readImmediate at hr
        split at hr
        · cases hr
        · rename_i hr'
          injection hr with hr
          subst hr
          exact K.kept _ (K.readFault h1 hr')
      · cases h
    · split at h
      · rename_i hr
        injection h with h
        subst h
        exact K.readFault h1 hr
      · cases h
    · split at h
      · rename_i hr
        injection h with h
        subst h
        exact K.read16_fault h1 hr
      · cases h

/-- The faults of a boundary. -/
theorem boundary_fault {s : State} {f : Fault} (hs : P s) (h : Machine.boundary s = .fault f) : F f := by
  unfold Machine.boundary at h
  split at h
  · unfold answer at h
    split at h
    · cases h
    · rename_i hr
      injection h with h
      subst h
      exact K.serviceInterrupt_fault hs hr
  · unfold runInstruction at h
    split at h
    · rename_i hr
      injection h with h
      subst h
      exact K.fetch_fault hs hr
    · rename_i hr
      exact K.exec_fault (K.fetch hs hr) h

/-- The faults of a step of a machine that has not faulted. -/
theorem step_fault {s : State} {f : Fault} (hs : P s) (hf : s.fault = none) (h : Machine.step s = .fault f) : F f := by
  rw [step_of_running hf] at h
  unfold masterTick at h
  split at h
  · cases h
  · rename_i hc
    injection h with h
    subst h
    unfold Machine.cpuTick at hc
    dsimp only at hc
    split at hc
    · split at hc
      · cases hc
      · rename_i hb
        injection hc with hc
        subst hc
        exact K.boundary_fault (K.cpu _ (K.applyInputs hs)) hb
      · cases hc
    · cases hc
  · cases h

end FaultsIn

end Sys2Proof.Machine
end

