-- ==== Sys2Proof/Laws/PerInstr.lean ====
section
/-! SUPPORT. One lemma for each instruction about its encoding (30_encoding.md R130, R131). -/

namespace Sys2Proof.Laws.EncodeShape

/-- A well-formed instruction has a row, its bytes are the row's opcode and its operand bytes, and there are as many of
them as the row's size says, 1 to 3. -/
def Statement (i : Instr) : Prop :=
  i.wellFormed = true →
    ∃ e, i.entry = some e ∧ encode i = e.opcode :: i.operandBytes ∧ (encode i).length = i.size ∧ i.size ≤ 3

/-- An instruction whose row exists and whose operand bytes fill its size. -/
theorem of_entry {i : Instr} {e : Entry} (h : i.entry = some e) (hl : i.operandBytes.length + 1 = i.size)
    (hs : i.size ≤ 3) :
    ∃ e, i.entry = some e ∧ encode i = e.opcode :: i.operandBytes ∧ (encode i).length = i.size ∧ i.size ≤ 3 := by
  refine ⟨e, h, ?_, ?_, hs⟩ <;> simp [encode, h, hl]

/-- The operand bytes of a `NOP*` form fill its size. -/
theorem nopForm_bytes_length (m : NopForm) : m.bytes.length + 1 = m.size := by cases m <;> rfl

theorem nopForm_size_le (m : NopForm) : m.size ≤ 3 := by cases m <;> simp [NopForm.size]

theorem lda (m : Operand) : Statement (.lda m) := by
  intro h
  cases m <;> first
    | exact Bool.noConfusion h
    | exact of_entry rfl rfl (Nat.le_of_ble_eq_true rfl)

theorem ldx (m : Operand) : Statement (.ldx m) := by
  intro h
  cases m <;> first
    | exact Bool.noConfusion h
    | exact of_entry rfl rfl (Nat.le_of_ble_eq_true rfl)

theorem ldy (m : Operand) : Statement (.ldy m) := by
  intro h
  cases m <;> first
    | exact Bool.noConfusion h
    | exact of_entry rfl rfl (Nat.le_of_ble_eq_true rfl)

theorem sta (m : Operand) : Statement (.sta m) := by
  intro h
  cases m <;> first
    | exact Bool.noConfusion h
    | exact of_entry rfl rfl (Nat.le_of_ble_eq_true rfl)

theorem stx (m : Operand) : Statement (.stx m) := by
  intro h
  cases m <;> first
    | exact Bool.noConfusion h
    | exact of_entry rfl rfl (Nat.le_of_ble_eq_true rfl)

theorem sty (m : Operand) : Statement (.sty m) := by
  intro h
  cases m <;> first
    | exact Bool.noConfusion h
    | exact of_entry rfl rfl (Nat.le_of_ble_eq_true rfl)

theorem tax : Statement .tax := fun _ => of_entry rfl rfl (Nat.le_of_ble_eq_true rfl)

theorem tay : Statement .tay := fun _ => of_entry rfl rfl (Nat.le_of_ble_eq_true rfl)

theorem txa : Statement .txa := fun _ => of_entry rfl rfl (Nat.le_of_ble_eq_true rfl)

theorem tya : Statement .tya := fun _ => of_entry rfl rfl (Nat.le_of_ble_eq_true rfl)

theorem tsx : Statement .tsx := fun _ => of_entry rfl rfl (Nat.le_of_ble_eq_true rfl)

theorem txs : Statement .txs := fun _ => of_entry rfl rfl (Nat.le_of_ble_eq_true rfl)

theorem adc (m : Operand) : Statement (.adc m) := by
  intro h
  cases m <;> first
    | exact Bool.noConfusion h
    | exact of_entry rfl rfl (Nat.le_of_ble_eq_true rfl)

theorem sbc (m : Operand) : Statement (.sbc m) := by
  intro h
  cases m <;> first
    | exact Bool.noConfusion h
    | exact of_entry rfl rfl (Nat.le_of_ble_eq_true rfl)

theorem and (m : Operand) : Statement (.and m) := by
  intro h
  cases m <;> first
    | exact Bool.noConfusion h
    | exact of_entry rfl rfl (Nat.le_of_ble_eq_true rfl)

theorem ora (m : Operand) : Statement (.ora m) := by
  intro h
  cases m <;> first
    | exact Bool.noConfusion h
    | exact of_entry rfl rfl (Nat.le_of_ble_eq_true rfl)

theorem eor (m : Operand) : Statement (.eor m) := by
  intro h
  cases m <;> first
    | exact Bool.noConfusion h
    | exact of_entry rfl rfl (Nat.le_of_ble_eq_true rfl)

theorem cmp (m : Operand) : Statement (.cmp m) := by
  intro h
  cases m <;> first
    | exact Bool.noConfusion h
    | exact of_entry rfl rfl (Nat.le_of_ble_eq_true rfl)

theorem cpx (m : Operand) : Statement (.cpx m) := by
  intro h
  cases m <;> first
    | exact Bool.noConfusion h
    | exact of_entry rfl rfl (Nat.le_of_ble_eq_true rfl)

theorem cpy (m : Operand) : Statement (.cpy m) := by
  intro h
  cases m <;> first
    | exact Bool.noConfusion h
    | exact of_entry rfl rfl (Nat.le_of_ble_eq_true rfl)

theorem bit (m : Operand) : Statement (.bit m) := by
  intro h
  cases m <;> first
    | exact Bool.noConfusion h
    | exact of_entry rfl rfl (Nat.le_of_ble_eq_true rfl)

theorem asl (m : Operand) : Statement (.asl m) := by
  intro h
  cases m <;> first
    | exact Bool.noConfusion h
    | exact of_entry rfl rfl (Nat.le_of_ble_eq_true rfl)

theorem lsr (m : Operand) : Statement (.lsr m) := by
  intro h
  cases m <;> first
    | exact Bool.noConfusion h
    | exact of_entry rfl rfl (Nat.le_of_ble_eq_true rfl)

theorem rol (m : Operand) : Statement (.rol m) := by
  intro h
  cases m <;> first
    | exact Bool.noConfusion h
    | exact of_entry rfl rfl (Nat.le_of_ble_eq_true rfl)

theorem ror (m : Operand) : Statement (.ror m) := by
  intro h
  cases m <;> first
    | exact Bool.noConfusion h
    | exact of_entry rfl rfl (Nat.le_of_ble_eq_true rfl)

theorem inc (m : Operand) : Statement (.inc m) := by
  intro h
  cases m <;> first
    | exact Bool.noConfusion h
    | exact of_entry rfl rfl (Nat.le_of_ble_eq_true rfl)

theorem dec (m : Operand) : Statement (.dec m) := by
  intro h
  cases m <;> first
    | exact Bool.noConfusion h
    | exact of_entry rfl rfl (Nat.le_of_ble_eq_true rfl)

theorem inx : Statement .inx := fun _ => of_entry rfl rfl (Nat.le_of_ble_eq_true rfl)

theorem iny : Statement .iny := fun _ => of_entry rfl rfl (Nat.le_of_ble_eq_true rfl)

theorem dex : Statement .dex := fun _ => of_entry rfl rfl (Nat.le_of_ble_eq_true rfl)

theorem dey : Statement .dey := fun _ => of_entry rfl rfl (Nat.le_of_ble_eq_true rfl)

theorem bcc (op8 : Byte) : Statement (.bcc op8) := fun _ => of_entry rfl rfl (Nat.le_of_ble_eq_true rfl)

theorem bcs (op8 : Byte) : Statement (.bcs op8) := fun _ => of_entry rfl rfl (Nat.le_of_ble_eq_true rfl)

theorem beq (op8 : Byte) : Statement (.beq op8) := fun _ => of_entry rfl rfl (Nat.le_of_ble_eq_true rfl)

theorem bne (op8 : Byte) : Statement (.bne op8) := fun _ => of_entry rfl rfl (Nat.le_of_ble_eq_true rfl)

theorem bmi (op8 : Byte) : Statement (.bmi op8) := fun _ => of_entry rfl rfl (Nat.le_of_ble_eq_true rfl)

theorem bpl (op8 : Byte) : Statement (.bpl op8) := fun _ => of_entry rfl rfl (Nat.le_of_ble_eq_true rfl)

theorem bvc (op8 : Byte) : Statement (.bvc op8) := fun _ => of_entry rfl rfl (Nat.le_of_ble_eq_true rfl)

theorem bvs (op8 : Byte) : Statement (.bvs op8) := fun _ => of_entry rfl rfl (Nat.le_of_ble_eq_true rfl)

theorem jmp (m : Operand) : Statement (.jmp m) := by
  intro h
  cases m <;> first
    | exact Bool.noConfusion h
    | exact of_entry rfl rfl (Nat.le_of_ble_eq_true rfl)

theorem jsr (target : Addr) : Statement (.jsr target) := fun _ => of_entry rfl rfl (Nat.le_of_ble_eq_true rfl)

theorem rts : Statement .rts := fun _ => of_entry rfl rfl (Nat.le_of_ble_eq_true rfl)

theorem rti : Statement .rti := fun _ => of_entry rfl rfl (Nat.le_of_ble_eq_true rfl)

theorem brk : Statement .brk := fun _ => of_entry rfl rfl (Nat.le_of_ble_eq_true rfl)

theorem pha : Statement .pha := fun _ => of_entry rfl rfl (Nat.le_of_ble_eq_true rfl)

theorem pla : Statement .pla := fun _ => of_entry rfl rfl (Nat.le_of_ble_eq_true rfl)

theorem php : Statement .php := fun _ => of_entry rfl rfl (Nat.le_of_ble_eq_true rfl)

theorem plp : Statement .plp := fun _ => of_entry rfl rfl (Nat.le_of_ble_eq_true rfl)

theorem clc : Statement .clc := fun _ => of_entry rfl rfl (Nat.le_of_ble_eq_true rfl)

theorem sec : Statement .sec := fun _ => of_entry rfl rfl (Nat.le_of_ble_eq_true rfl)

theorem cli : Statement .cli := fun _ => of_entry rfl rfl (Nat.le_of_ble_eq_true rfl)

theorem sei : Statement .sei := fun _ => of_entry rfl rfl (Nat.le_of_ble_eq_true rfl)

theorem clv : Statement .clv := fun _ => of_entry rfl rfl (Nat.le_of_ble_eq_true rfl)

theorem cld : Statement .cld := fun _ => of_entry rfl rfl (Nat.le_of_ble_eq_true rfl)

theorem sed : Statement .sed := fun _ => of_entry rfl rfl (Nat.le_of_ble_eq_true rfl)

theorem nop : Statement .nop := fun _ => of_entry rfl rfl (Nat.le_of_ble_eq_true rfl)

theorem nopStar (opcode : Byte) (form : NopForm) : Statement (.nopStar opcode form) := fun h =>
  of_entry (if_pos h) (nopForm_bytes_length form) (nopForm_size_le form)

theorem und (opcode : Byte) : Statement (.und opcode) := fun h => of_entry (if_pos h) rfl (Nat.le_of_ble_eq_true rfl)

end Sys2Proof.Laws.EncodeShape
end

