-- ==== Sys2Proof/Laws/Run.lean ====
section
/-! SUPPORT. Runs and their observation points (70_reset_and_hazards.md R469): a stop in the middle of a master tick is
on the trajectory of the steps, and the countdown bounds the ticks to the next boundary. -/

namespace Sys2Proof.Machine

/-! ### The countdown -/

theorem HostOp.apply_remaining_le (op : HostOp) (s : State) : (op.apply s).cpu.remaining ≤ s.cpu.remaining := by
  cases op with
  | powerUp => exact Nat.zero_le _
  | reset => exact Nat.le_refl _
  | setPads p q => exact Nat.le_refl _
  | requestNmi => exact Nat.le_refl _
  | requestIrq =>
    show (Machine.requestIrq s).cpu.remaining ≤ _
    unfold Machine.requestIrq
    split
    · exact Nat.le_refl _
    · split <;> exact Nat.le_refl _

/-- No host operation raises the countdown. -/
theorem applyInputs_remaining_le (s : State) : (applyInputs s).cpu.remaining ≤ s.cpu.remaining := by
  unfold applyInputs
  split
  · exact Nat.le_refl _
  · rename_i ops rest _
    have fold : ∀ (l : List HostOp) (u : State),
        (l.foldl (fun s op => op.apply s) u).cpu.remaining ≤ u.cpu.remaining := by
      intro l
      induction l with
      | nil => exact fun u => Nat.le_refl _
      | cons op l ih => exact fun u => Nat.le_trans (ih _) (op.apply_remaining_le u)
    exact fold ops { s with inputs := rest }

theorem atBoundary_iff {s : State} : atBoundary s = true ↔ (applyInputs s).cpu.remaining ≤ 1 := decide_eq_true_iff

/-- R454: a step that is no boundary counts down. -/
theorem step_remaining_lt {s t : State} (hb : atBoundary s = false) (h : step s = .next t) :
    t.cpu.remaining + 1 ≤ s.cpu.remaining := by
  obtain ⟨_, u, hu, rfl⟩ := step_next h
  obtain ⟨_, hk⟩ := ppuTicks_cpu u
  have hlt : 2 ≤ (applyInputs s).cpu.remaining := by
    have := of_decide_eq_false hb
    omega
  rcases cpuTick_next hu with ⟨_, rfl⟩ | ⟨hle, _⟩
  · have := applyInputs_remaining_le s
    rw [hk]
    show (applyInputs s).cpu.remaining - 1 + 1 ≤ _
    omega
  · omega

/-! ### Stopping and resuming -/

@[simp] theorem Run.resume_start (s : State) : (Run.start s).resume = Run.start s := rfl

/-- R469: a stopped run resumes with the three PPU ticks of its master tick. -/
theorem Run.resume_midTick (s : State) (n : Nat) :
    Run.resume { machine := s, midTick := true, ticks := n } =
      { machine := ppuTick (ppuTick (ppuTick s)), midTick := false, ticks := n + 1 } := rfl

theorem Run.midTick_resume (r : Run) : r.resume.midTick = false := by
  obtain ⟨s, m, n⟩ := r
  cases m <;> rfl

theorem cpuHalf_next {s t : State} : cpuHalf s = .next t ↔ s.fault = none ∧ cpuTick (applyInputs s) = .next t := by
  unfold cpuHalf
  cases s.fault <;> simp

/-- R455: a step is its CPU half and then three PPU ticks. -/
theorem step_eq_cpuHalf (s : State) :
    step s =
      match cpuHalf s with
      | .next t => .next (ppuTick (ppuTick (ppuTick t)))
      | .fault f => .fault f
      | .refused r => .refused r := by
  unfold step stepMachine cpuHalf
  cases s.fault <;> rfl

theorem Run.stopMidTick_next {r r' : Run} :
    r.stopMidTick = .next r' ↔
      ∃ t, cpuHalf r.machine = .next t ∧ r' = { machine := t, midTick := true, ticks := r.ticks } := by
  unfold Run.stopMidTick
  cases cpuHalf r.machine <;> simp [eq_comm]

theorem Run.tickOnce_next {r r' : Run} :
    r.tickOnce = .next r' ↔
      ∃ t, step r.machine = .next t ∧ r' = { machine := t, midTick := false, ticks := r.ticks + 1 } := by
  unfold Run.tickOnce
  cases step r.machine <;> simp [eq_comm]

/-- R469: stopping in a master tick and resuming is that master tick. -/
theorem Run.stopMidTick_resume {r r' : Run} (h : r.stopMidTick = .next r') : r.tickOnce = .next r'.resume := by
  obtain ⟨t, ht, rfl⟩ := Run.stopMidTick_next.1 h
  exact Run.tickOnce_next.2 ⟨_, by rw [step_eq_cpuHalf, ht], rfl⟩

/-! ### Runs of steps -/

theorem steps_succ_next {n : Nat} {s t : State} :
    steps (n + 1) s = .next t ↔ ∃ u, step s = .next u ∧ steps n u = .next t := by
  simp only [steps]
  cases step s <;> simp

theorem steps_add_next {m n : Nat} {s t : State} :
    steps (m + n) s = .next t ↔ ∃ u, steps m s = .next u ∧ steps n u = .next t := by
  induction m generalizing s with
  | zero => simp [steps]
  | succ m ih =>
    rw [Nat.succ_add]
    simp only [steps_succ_next, ih]
    exact ⟨fun ⟨u, h1, v, h2, h3⟩ => ⟨v, ⟨u, h1, h2⟩, h3⟩, fun ⟨v, ⟨u, h1, h2⟩, h3⟩ => ⟨u, h1, v, h2, h3⟩⟩

theorem boundariesIn_succ {n : Nat} {s t : State} (h : step s = .next t) :
    boundariesIn (n + 1) s = (atBoundary s).toNat + boundariesIn n t := by
  simp only [boundariesIn, h]

theorem boundariesIn_add {m n : Nat} {s t : State} (h : steps m s = .next t) :
    boundariesIn (m + n) s = boundariesIn m s + boundariesIn n t := by
  induction m generalizing s with
  | zero =>
    injection h with h
    subst h
    simp [boundariesIn]
  | succ m ih =>
    obtain ⟨u, hu, hm⟩ := steps_succ_next.1 h
    rw [Nat.succ_add, boundariesIn_succ hu, boundariesIn_succ hu, ih hm, Nat.add_assoc]

/-- R469: the first boundary is the next master tick, when that is one. -/
theorem Run.stopMidTick_atBoundary {r r' : Run} (hb : atBoundary r.machine = true) :
    r.stopMidTick = .next r' ↔
      ∃ (m : Nat) (u t : State), steps m r.machine = .next u ∧ boundariesIn m r.machine = 0 ∧ atBoundary u = true ∧
        cpuHalf u = .next t ∧ r' = { machine := t, midTick := true, ticks := r.ticks + m } := by
  rw [Run.stopMidTick_next]
  constructor
  · rintro ⟨t, ht, rfl⟩
    exact ⟨0, r.machine, t, rfl, rfl, hb, ht, rfl⟩
  · rintro ⟨m, u, t, hm, hc, _, ht, rfl⟩
    cases m with
    | zero =>
      injection hm with hm
      subst hm
      exact ⟨t, ht, rfl⟩
    | succ m =>
      simp only [boundariesIn, hb, Bool.toNat_true] at hc
      omega

/-- A run of steps that ends at a boundary takes a step first when it does not start at one. -/
theorem steps_to_boundary {m : Nat} {s u : State} (hb : atBoundary s = false) (hm : steps m s = .next u)
    (hu : atBoundary u = true) : ∃ k v, m = k + 1 ∧ step s = .next v ∧ steps k v = .next u := by
  cases m with
  | zero =>
    injection hm with hm
    subst hm
    rw [hb] at hu
    cases hu
  | succ k =>
    obtain ⟨v, hv, hk⟩ := steps_succ_next.1 hm
    exact ⟨k, v, rfl, hv, hk⟩

/-- R469: with the countdown as its bound, `toBoundary` stops at the first boundary and there alone. -/
theorem Run.toBoundary_next {n : Nat} {r r' : Run} (hn : r.machine.cpu.remaining ≤ n) :
    Run.toBoundary n r = .next r' ↔
      ∃ (m : Nat) (u t : State), steps m r.machine = .next u ∧ boundariesIn m r.machine = 0 ∧ atBoundary u = true ∧
        cpuHalf u = .next t ∧ r' = { machine := t, midTick := true, ticks := r.ticks + m } := by
  induction n generalizing r with
  | zero => exact Run.stopMidTick_atBoundary (atBoundary_iff.2 (by have := applyInputs_remaining_le r.machine; omega))
  | succ n ih =>
    cases hb : atBoundary r.machine with
    | true =>
      simp only [Run.toBoundary, hb, if_true]
      exact Run.stopMidTick_atBoundary hb
    | false =>
      simp only [Run.toBoundary, hb, Bool.false_eq_true, if_false, Run.tickOnce]
      cases hs : step r.machine with
      | next v =>
        have hv := step_remaining_lt hb hs
        refine (ih (r := { machine := v, midTick := false, ticks := r.ticks + 1 })
          (by show v.cpu.remaining ≤ n; omega)).trans ?_
        constructor
        · rintro ⟨m, u, t, hm, hc, hu, ht, rfl⟩
          exact ⟨m + 1, u, t, steps_succ_next.2 ⟨v, hs, hm⟩,
            by rw [boundariesIn_succ hs, hb, hc]; rfl, hu, ht, by rw [Nat.add_assoc, Nat.add_comm 1 m]⟩
        · rintro ⟨m, u, t, hm, hc, hu, ht, rfl⟩
          obtain ⟨k, v', rfl, hv', hk⟩ := steps_to_boundary hb hm hu
          rw [hs] at hv'
          injection hv' with hv'
          subst hv'
          rw [boundariesIn_succ hs, hb] at hc
          exact ⟨k, u, t, hk, by simpa using hc, hu, ht, by rw [Nat.add_assoc, Nat.add_comm 1 k]⟩
      | fault f =>
        refine iff_of_false nofun ?_
        rintro ⟨m, u, t, hm, _, hu, _⟩
        obtain ⟨k, v, _, hv, _⟩ := steps_to_boundary hb hm hu
        rw [hs] at hv
        cases hv
      | refused f =>
        refine iff_of_false nofun ?_
        rintro ⟨m, u, t, hm, _, hu, _⟩
        obtain ⟨k, v, _, hv, _⟩ := steps_to_boundary hb hm hu
        rw [hs] at hv
        cases hv

end Sys2Proof.Machine
end

