-- ==== Sys2Proof/Tests/Slice0.lean ====
section
/-! SUPPORT. The model's own tests: the checks of WellFormed; the decoder against spec/opcode_table.json; vectors of
95_test_vectors.md, at most two an instruction; and a witness for the hypotheses of each obligation. Every expected
value comes from the spec. -/

namespace Sys2Proof.Tests

-- One theorem at a time: a theorem that waits for the check of another holds a thread.
set_option Elab.async false

open Sys2Proof Sys2Proof.Machine

/-! ### WellFormed: an ill-formed term for each check -/

theorem test_illFormed_lda : Instr.wellFormed (.lda .acc) = false := by decide

theorem test_illFormed_lda_zpy : Instr.wellFormed (.lda (.zpy 0x10)) = false := by decide

theorem test_illFormed_ldx : Instr.wellFormed (.ldx (.zpx 0x10)) = false := by decide

theorem test_illFormed_ldx_absx : Instr.wellFormed (.ldx (.absx 0x1234)) = false := by decide

theorem test_illFormed_ldy : Instr.wellFormed (.ldy (.zpy 0x10)) = false := by decide

theorem test_illFormed_sta : Instr.wellFormed (.sta (.imm 0x10)) = false := by decide

theorem test_illFormed_stx : Instr.wellFormed (.stx (.zpx 0x10)) = false := by decide

theorem test_illFormed_sty : Instr.wellFormed (.sty (.zpy 0x10)) = false := by decide

theorem test_illFormed_adc : Instr.wellFormed (.adc (.ind 0x1234)) = false := by decide

theorem test_illFormed_sbc : Instr.wellFormed (.sbc .acc) = false := by decide

theorem test_illFormed_and : Instr.wellFormed (.and (.zpy 0x10)) = false := by decide

theorem test_illFormed_ora : Instr.wellFormed (.ora .acc) = false := by decide

theorem test_illFormed_eor : Instr.wellFormed (.eor (.ind 0x1234)) = false := by decide

theorem test_illFormed_cmp : Instr.wellFormed (.cmp (.zpy 0x10)) = false := by decide

theorem test_illFormed_cpx : Instr.wellFormed (.cpx (.zpx 0x10)) = false := by decide

theorem test_illFormed_cpy : Instr.wellFormed (.cpy (.absx 0x1234)) = false := by decide

theorem test_illFormed_bit : Instr.wellFormed (.bit (.imm 0x10)) = false := by decide

theorem test_illFormed_asl : Instr.wellFormed (.asl (.imm 0x10)) = false := by decide

theorem test_illFormed_lsr : Instr.wellFormed (.lsr (.absy 0x1234)) = false := by decide

theorem test_illFormed_rol : Instr.wellFormed (.rol (.indx 0x10)) = false := by decide

theorem test_illFormed_ror : Instr.wellFormed (.ror (.zpy 0x10)) = false := by decide

theorem test_illFormed_inc : Instr.wellFormed (.inc .acc) = false := by decide

theorem test_illFormed_dec : Instr.wellFormed (.dec (.absy 0x1234)) = false := by decide

theorem test_illFormed_jmp : Instr.wellFormed (.jmp (.absx 0x1234)) = false := by decide

theorem test_illFormed_nopStar_opcode : Instr.wellFormed (.nopStar 0xEA .imp) = false := by decide

theorem test_illFormed_nopStar_form : Instr.wellFormed (.nopStar 0x1A .imm) = false := by decide

theorem test_illFormed_und : Instr.wellFormed (.und 0xEA) = false := by decide

/-- An ill-formed term is refused, and has no bytes (log entry 14). -/
theorem test_illFormed_refused : exec (.lda .acc) State.reset = .refused .illFormed ∧ encode (.lda .acc) = [] :=
  ⟨rfl, rfl⟩

/-! ### The decoder -/

/-! The 256 rows of spec/opcode_table.json in order, each with the operand bytes 0x12, 0x34 where its format has operand
bytes that the CPU reads. -/

def tableRowsLow : List (List Instr) :=
  [
  [.brk, .ora (.indx 0x12), .und 0x02, .und 0x03, .nopStar 0x04 (.zp 0x12), .ora (.zp 0x12), .asl (.zp 0x12),
   .und 0x07, .php, .ora (.imm 0x12), .asl .acc, .und 0x0B, .nopStar 0x0C (.abs 0x3412), .ora (.abs 0x3412),
   .asl (.abs 0x3412), .und 0x0F],
  [.bpl 0x12, .ora (.indy 0x12), .und 0x12, .und 0x13, .nopStar 0x14 (.zpx 0x12), .ora (.zpx 0x12),
   .asl (.zpx 0x12), .und 0x17, .clc, .ora (.absy 0x3412), .nopStar 0x1A .imp, .und 0x1B,
   .nopStar 0x1C (.absx 0x3412), .ora (.absx 0x3412), .asl (.absx 0x3412), .und 0x1F],
  [.jsr 0x3412, .and (.indx 0x12), .und 0x22, .und 0x23, .bit (.zp 0x12), .and (.zp 0x12), .rol (.zp 0x12),
   .und 0x27, .plp, .and (.imm 0x12), .rol .acc, .und 0x2B, .bit (.abs 0x3412), .and (.abs 0x3412),
   .rol (.abs 0x3412), .und 0x2F],
  [.bmi 0x12, .and (.indy 0x12), .und 0x32, .und 0x33, .nopStar 0x34 (.zpx 0x12), .and (.zpx 0x12),
   .rol (.zpx 0x12), .und 0x37, .sec, .and (.absy 0x3412), .nopStar 0x3A .imp, .und 0x3B,
   .nopStar 0x3C (.absx 0x3412), .and (.absx 0x3412), .rol (.absx 0x3412), .und 0x3F],
  [.rti, .eor (.indx 0x12), .und 0x42, .und 0x43, .nopStar 0x44 (.zp 0x12), .eor (.zp 0x12), .lsr (.zp 0x12),
   .und 0x47, .pha, .eor (.imm 0x12), .lsr .acc, .und 0x4B, .jmp (.abs 0x3412), .eor (.abs 0x3412),
   .lsr (.abs 0x3412), .und 0x4F],
  [.bvc 0x12, .eor (.indy 0x12), .und 0x52, .und 0x53, .nopStar 0x54 (.zpx 0x12), .eor (.zpx 0x12),
   .lsr (.zpx 0x12), .und 0x57, .cli, .eor (.absy 0x3412), .nopStar 0x5A .imp, .und 0x5B,
   .nopStar 0x5C (.absx 0x3412), .eor (.absx 0x3412), .lsr (.absx 0x3412), .und 0x5F],
  [.rts, .adc (.indx 0x12), .und 0x62, .und 0x63, .nopStar 0x64 (.zp 0x12), .adc (.zp 0x12), .ror (.zp 0x12),
   .und 0x67, .pla, .adc (.imm 0x12), .ror .acc, .und 0x6B, .jmp (.ind 0x3412), .adc (.abs 0x3412),
   .ror (.abs 0x3412), .und 0x6F],
  [.bvs 0x12, .adc (.indy 0x12), .und 0x72, .und 0x73, .nopStar 0x74 (.zpx 0x12), .adc (.zpx 0x12),
   .ror (.zpx 0x12), .und 0x77, .sei, .adc (.absy 0x3412), .nopStar 0x7A .imp, .und 0x7B,
   .nopStar 0x7C (.absx 0x3412), .adc (.absx 0x3412), .ror (.absx 0x3412), .und 0x7F]]

def tableRowsHigh : List (List Instr) :=
  [
  [.nopStar 0x80 .imm, .sta (.indx 0x12), .nopStar 0x82 .imm, .und 0x83, .sty (.zp 0x12), .sta (.zp 0x12),
   .stx (.zp 0x12), .und 0x87, .dey, .nopStar 0x89 .imm, .txa, .und 0x8B, .sty (.abs 0x3412), .sta (.abs 0x3412),
   .stx (.abs 0x3412), .und 0x8F],
  [.bcc 0x12, .sta (.indy 0x12), .und 0x92, .und 0x93, .sty (.zpx 0x12), .sta (.zpx 0x12), .stx (.zpy 0x12),
   .und 0x97, .tya, .sta (.absy 0x3412), .txs, .und 0x9B, .und 0x9C, .sta (.absx 0x3412), .und 0x9E, .und 0x9F],
  [.ldy (.imm 0x12), .lda (.indx 0x12), .ldx (.imm 0x12), .und 0xA3, .ldy (.zp 0x12), .lda (.zp 0x12),
   .ldx (.zp 0x12), .und 0xA7, .tay, .lda (.imm 0x12), .tax, .und 0xAB, .ldy (.abs 0x3412), .lda (.abs 0x3412),
   .ldx (.abs 0x3412), .und 0xAF],
  [.bcs 0x12, .lda (.indy 0x12), .und 0xB2, .und 0xB3, .ldy (.zpx 0x12), .lda (.zpx 0x12), .ldx (.zpy 0x12),
   .und 0xB7, .clv, .lda (.absy 0x3412), .tsx, .und 0xBB, .ldy (.absx 0x3412), .lda (.absx 0x3412),
   .ldx (.absy 0x3412), .und 0xBF],
  [.cpy (.imm 0x12), .cmp (.indx 0x12), .nopStar 0xC2 .imm, .und 0xC3, .cpy (.zp 0x12), .cmp (.zp 0x12),
   .dec (.zp 0x12), .und 0xC7, .iny, .cmp (.imm 0x12), .dex, .und 0xCB, .cpy (.abs 0x3412), .cmp (.abs 0x3412),
   .dec (.abs 0x3412), .und 0xCF],
  [.bne 0x12, .cmp (.indy 0x12), .und 0xD2, .und 0xD3, .nopStar 0xD4 (.zpx 0x12), .cmp (.zpx 0x12),
   .dec (.zpx 0x12), .und 0xD7, .cld, .cmp (.absy 0x3412), .nopStar 0xDA .imp, .und 0xDB,
   .nopStar 0xDC (.absx 0x3412), .cmp (.absx 0x3412), .dec (.absx 0x3412), .und 0xDF],
  [.cpx (.imm 0x12), .sbc (.indx 0x12), .nopStar 0xE2 .imm, .und 0xE3, .cpx (.zp 0x12), .sbc (.zp 0x12),
   .inc (.zp 0x12), .und 0xE7, .inx, .sbc (.imm 0x12), .nop, .und 0xEB, .cpx (.abs 0x3412), .sbc (.abs 0x3412),
   .inc (.abs 0x3412), .und 0xEF],
  [.beq 0x12, .sbc (.indy 0x12), .und 0xF2, .und 0xF3, .nopStar 0xF4 (.zpx 0x12), .sbc (.zpx 0x12),
   .inc (.zpx 0x12), .und 0xF7, .sed, .sbc (.absy 0x3412), .nopStar 0xFA .imp, .und 0xFB,
   .nopStar 0xFC (.absx 0x3412), .sbc (.absx 0x3412), .inc (.absx 0x3412), .und 0xFF]]

def tableRows : List Instr := tableRowsLow.flatten ++ tableRowsHigh.flatten

/-- The `bytes` column of the table. -/
def tableBytesColumn : List Nat :=
  [2, 2, 1, 1, 2, 2, 2, 1, 1, 2, 1, 1, 3, 3, 3, 1, 2, 2, 1, 1, 2, 2, 2, 1, 1, 3, 1, 1, 3, 3, 3, 1] ++
  [3, 2, 1, 1, 2, 2, 2, 1, 1, 2, 1, 1, 3, 3, 3, 1, 2, 2, 1, 1, 2, 2, 2, 1, 1, 3, 1, 1, 3, 3, 3, 1] ++
  [1, 2, 1, 1, 2, 2, 2, 1, 1, 2, 1, 1, 3, 3, 3, 1, 2, 2, 1, 1, 2, 2, 2, 1, 1, 3, 1, 1, 3, 3, 3, 1] ++
  [1, 2, 1, 1, 2, 2, 2, 1, 1, 2, 1, 1, 3, 3, 3, 1, 2, 2, 1, 1, 2, 2, 2, 1, 1, 3, 1, 1, 3, 3, 3, 1] ++
  [2, 2, 2, 1, 2, 2, 2, 1, 1, 2, 1, 1, 3, 3, 3, 1, 2, 2, 1, 1, 2, 2, 2, 1, 1, 3, 1, 1, 1, 3, 1, 1] ++
  [2, 2, 2, 1, 2, 2, 2, 1, 1, 2, 1, 1, 3, 3, 3, 1, 2, 2, 1, 1, 2, 2, 2, 1, 1, 3, 1, 1, 3, 3, 3, 1] ++
  [2, 2, 2, 1, 2, 2, 2, 1, 1, 2, 1, 1, 3, 3, 3, 1, 2, 2, 1, 1, 2, 2, 2, 1, 1, 3, 1, 1, 3, 3, 3, 1] ++
  [2, 2, 2, 1, 2, 2, 2, 1, 1, 2, 1, 1, 3, 3, 3, 1, 2, 2, 1, 1, 2, 2, 2, 1, 1, 3, 1, 1, 3, 3, 3, 1]

/-- The `cycles` column of the table. -/
def tableCycles : List Nat :=
  [7, 6, 2, 2, 2, 3, 5, 2, 3, 2, 2, 2, 2, 4, 6, 2, 2, 5, 2, 2, 2, 4, 6, 2, 2, 4, 2, 2, 2, 4, 7, 2] ++
  [6, 6, 2, 2, 3, 3, 5, 2, 4, 2, 2, 2, 4, 4, 6, 2, 2, 5, 2, 2, 2, 4, 6, 2, 2, 4, 2, 2, 2, 4, 7, 2] ++
  [6, 6, 2, 2, 2, 3, 5, 2, 3, 2, 2, 2, 3, 4, 6, 2, 2, 5, 2, 2, 2, 4, 6, 2, 2, 4, 2, 2, 2, 4, 7, 2] ++
  [6, 6, 2, 2, 2, 3, 5, 2, 4, 2, 2, 2, 5, 4, 6, 2, 2, 5, 2, 2, 2, 4, 6, 2, 2, 4, 2, 2, 2, 4, 7, 2] ++
  [2, 6, 2, 2, 3, 3, 3, 2, 2, 2, 2, 2, 4, 4, 4, 2, 2, 6, 2, 2, 4, 4, 4, 2, 2, 5, 2, 2, 2, 5, 2, 2] ++
  [2, 6, 2, 2, 3, 3, 3, 2, 2, 2, 2, 2, 4, 4, 4, 2, 2, 5, 2, 2, 4, 4, 4, 2, 2, 4, 2, 2, 4, 4, 4, 2] ++
  [2, 6, 2, 2, 3, 3, 5, 2, 2, 2, 2, 2, 4, 4, 6, 2, 2, 5, 2, 2, 2, 4, 6, 2, 2, 4, 2, 2, 2, 4, 7, 2] ++
  [2, 6, 2, 2, 3, 3, 5, 2, 2, 2, 2, 2, 4, 4, 6, 2, 2, 5, 2, 2, 2, 4, 6, 2, 2, 4, 2, 2, 2, 4, 7, 2]

/-- The `page_penalty` column of the table. -/
def tablePenalties : List Nat :=
  [0, 0, 0, 0, 0, 0, 0, 0, 0, 0, 0, 0, 0, 0, 0, 0, 0, 1, 0, 0, 0, 0, 0, 0, 0, 1, 0, 0, 0, 1, 0, 0] ++
  [0, 0, 0, 0, 0, 0, 0, 0, 0, 0, 0, 0, 0, 0, 0, 0, 0, 1, 0, 0, 0, 0, 0, 0, 0, 1, 0, 0, 0, 1, 0, 0] ++
  [0, 0, 0, 0, 0, 0, 0, 0, 0, 0, 0, 0, 0, 0, 0, 0, 0, 1, 0, 0, 0, 0, 0, 0, 0, 1, 0, 0, 0, 1, 0, 0] ++
  [0, 0, 0, 0, 0, 0, 0, 0, 0, 0, 0, 0, 0, 0, 0, 0, 0, 1, 0, 0, 0, 0, 0, 0, 0, 1, 0, 0, 0, 1, 0, 0] ++
  [0, 0, 0, 0, 0, 0, 0, 0, 0, 0, 0, 0, 0, 0, 0, 0, 0, 0, 0, 0, 0, 0, 0, 0, 0, 0, 0, 0, 0, 0, 0, 0] ++
  [0, 0, 0, 0, 0, 0, 0, 0, 0, 0, 0, 0, 0, 0, 0, 0, 0, 1, 0, 0, 0, 0, 0, 0, 0, 1, 0, 0, 1, 1, 1, 0] ++
  [0, 0, 0, 0, 0, 0, 0, 0, 0, 0, 0, 0, 0, 0, 0, 0, 0, 1, 0, 0, 0, 0, 0, 0, 0, 1, 0, 0, 0, 1, 0, 0] ++
  [0, 0, 0, 0, 0, 0, 0, 0, 0, 0, 0, 0, 0, 0, 0, 0, 0, 1, 0, 0, 0, 0, 0, 0, 0, 1, 0, 0, 0, 1, 0, 0]

/-- Every opcode byte decodes to the instruction of its row. -/
theorem test_table_rows :
    (List.range 256).map (fun n => decode3 (BitVec.ofNat 8 n) 0x12 0x34) = tableRows := by decide +kernel

theorem test_table_bytes : tableRows.map Instr.size = tableBytesColumn := by decide +kernel

theorem test_table_cycles :
    tableRows.map (fun i => (i.entry.map Entry.cycles).getD 0) = tableCycles := by decide +kernel

theorem test_table_penalties :
    tableRows.map (fun i => (i.entry.map Entry.penalty).getD 9) = tablePenalties := by decide +kernel

/-- The encoder gives each row its opcode byte. -/
theorem test_table_encode :
    tableRows.map (fun i => (encode i).head?) = (List.range 256).map (fun n => some (BitVec.ofNat 8 n)) := by
  decide +kernel

/-! One word of each family, bit by bit from its "Encoding" line. -/

/-- R170: LDA immediate. -/
theorem test_decode_load : decode [0b10101001, 0b10000000] = .ok (.lda (.imm 0x80), []) := by decide

/-- R174: STX zero page,Y. -/
theorem test_decode_store : decode [0b10010110, 0b11111111] = .ok (.stx (.zpy 0xFF), []) := by decide

/-- R181: TXS. -/
theorem test_decode_transfer : decode [0b10011010] = .ok (.txs, []) := by decide

/-- R200: ADC (zp),Y. -/
theorem test_decode_arithmetic : decode [0b01110001, 0b00100000] = .ok (.adc (.indy 0x20), []) := by decide

/-- R203: ORA absolute,Y, low byte first. -/
theorem test_decode_logic : decode [0b00011001, 0b00000001, 0b00010010] = .ok (.ora (.absy 0x1201), []) := by decide

/-- R208: BIT absolute. -/
theorem test_decode_bit : decode [0b00101100, 0b00000010, 0b00100000] = .ok (.bit (.abs 0x2002), []) := by decide

/-- R233: ROR absolute,X. -/
theorem test_decode_shift : decode [0b01111110, 0b11111111, 0b00010010] = .ok (.ror (.absx 0x12FF), []) := by decide

/-- R239: DEY. -/
theorem test_decode_increment : decode [0b10001000] = .ok (.dey, []) := by decide

/-- R268: BVS. -/
theorem test_decode_branch : decode [0b01110000, 0b00010000] = .ok (.bvs 0x10, []) := by decide

/-- R270: JMP indirect, low byte first. -/
theorem test_decode_jump : decode [0b01101100, 0b11111111, 0b01100000] = .ok (.jmp (.ind 0x60FF), []) := by decide

/-- R274: BRK and its padding byte. -/
theorem test_decode_brk : decode [0b00000000, 0b11101010] = .ok (.brk, []) := by decide

/-- R293: PLP. -/
theorem test_decode_stack : decode [0b00101000] = .ok (.plp, []) := by decide

/-- R298: CLV. -/
theorem test_decode_flag : decode [0b10111000] = .ok (.clv, []) := by decide

/-- R150: a NOP* immediate byte is skipped. -/
theorem test_decode_nopStar : decode [0b10000000, 0b11111111] = .ok (.nopStar 0x80 .imm, []) := by decide

/-- R151: 0xEB. -/
theorem test_decode_und : decode [0b11101011] = .ok (.und 0xEB, []) := by decide

/-- R147: only a list that ends too early has no instruction. -/
theorem test_decode_short :
    decode [] = .error .empty ∧ decode [0xAD, 0x00] = .error (.truncated 0xAD) := by decide

/-- The opcode table's numbering: the first byte in the low bits. -/
theorem test_decodeTableWord :
    decodeTableWord 24 0x0200AD = some (.lda (.abs 0x0200)) ∧ decodeTableWord 8 0xFF4C = some (.jmp (.abs 0x0000)) := by
  decide

/-- R118 to R122: an image too short for its header, one without the magic, and the mapper check. -/
theorem test_cartridge :
    buildCartridge [0x4E, 0x45, 0x53] = .error .tooShort ∧
      buildCartridge (List.replicate 16 0x00) = .error .badMagic ∧
      buildCartridge (inesMagic ++ [0x01, 0x00, 0x10] ++ List.replicate 9 0x00) = .error .badMapper ∧
      buildCartridge (inesMagic ++ [0x03, 0x00] ++ List.replicate 10 0x00) = .error .badPrgSize ∧
      buildCartridge (inesMagic ++ [0x01, 0x02] ++ List.replicate 10 0x00) = .error .badChrSize ∧
      buildCartridge (inesMagic ++ [0x01, 0x01] ++ List.replicate 10 0x00) = .error .tooShort := by decide +kernel

/-! ### Instructions: vectors of 95_test_vectors.md -/

/-- The start state of a vector: power-up, the interrupt vectors 0xA000 and 0x9000, the instruction at `pc`. -/
def prog (pc : Addr) (bytes : List Byte) : State :=
  loadBytes bytes pc
    (((((State.reset.load 0xFFFE 0x00).load 0xFFFF 0x90).load 0xFFFA 0x00).load 0xFFFB 0xA0).setPc pc)

/-- P as the vectors write it: bit 4 is the stored B. -/
def flags (p : Byte) : Status := { Status.ofByte p with b := p.getLsbD 4 }

/-- A, X, Y, SP, P, PC and the cycles charged, after one boundary. -/
def regs (r : Host.Outcome State Fault Refusal) : List Nat :=
  match r with
  | .next s => [s.cpu.a.toNat, s.cpu.x.toNat, s.cpu.y.toNat, s.cpu.sp.toNat, s.cpu.p.reg.toNat, s.cpu.pc.toNat,
      s.cpu.cycles.toNat - 7]
  | _ => []

/-- The byte at an address after one boundary. -/
def byteAt (r : Host.Outcome State Fault Refusal) (a : Addr) : Option Byte :=
  match r with
  | .next s => s.peek a
  | _ => none

/-- Why a machine stopped, and PC and the cycles charged in the state it keeps. -/
def stopped (r : Host.Outcome State Fault Refusal) : Option (FaultReason × Nat × Nat) :=
  match r with
  | .fault (.access reason kept) => some (reason, kept.cpu.pc.toNat, kept.cpu.cycles.toNat - 7)
  | _ => none

/-- V40.5, `LDA $12FF,X`. -/
theorem test_V40_5 :
    let s := (prog 0x8000 [0xBD, 0xFF, 0x12]).load 0x1300 0x42
    let s : State := { s with cpu := { s.cpu with x := 0x01 } }
    let r := boundary s
    regs r = [0x42, 0x01, 0x00, 0xFD, 0x34, 0x8003, 5] := by decide +kernel

/-- V40.7, `LDA ($FF,X)`. -/
theorem test_V40_7 :
    let s := (((prog 0x8000 [0xA1, 0xFF]).load 0x00FF 0x34).load 0x0000 0x02).load 0x0234 0xAB
    let s : State := { s with cpu := { s.cpu with x := 0x00 } }
    let r := boundary s
    regs r = [0xAB, 0x00, 0x00, 0xFD, 0xB4, 0x8002, 6] := by decide +kernel

/-- V40.11, `LDX $FF,Y`. -/
theorem test_V40_11 :
    let s := (prog 0x8000 [0xB6, 0xFF]).load 0x0001 0x80
    let s : State := { s with cpu := { s.cpu with y := 0x02 } }
    let r := boundary s
    regs r = [0x00, 0x80, 0x02, 0xFD, 0xB4, 0x8002, 4] := by decide +kernel

/-- V40.12, `LDY $12FF,X`. -/
theorem test_V40_12 :
    let s := (prog 0x8000 [0xBC, 0xFF, 0x12]).load 0x1300 0x00
    let s : State := { s with cpu := { s.cpu with x := 0x01 } }
    let r := boundary s
    regs r = [0x00, 0x01, 0x00, 0xFD, 0x36, 0x8003, 5] := by decide +kernel

/-- V40.14, `STA $0800`. -/
theorem test_V40_14 :
    let s := prog 0x8000 [0x8D, 0x00, 0x08]
    let s : State := { s with cpu := { s.cpu with a := 0x66 } }
    let r := boundary s
    regs r = [0x66, 0x00, 0x00, 0xFD, 0x34, 0x8003, 4] ∧ byteAt r 0x0000 = some 0x66 := by decide +kernel

/-- V40.15, `STA $12FF,X`. -/
theorem test_V40_15 :
    let s := prog 0x8000 [0x9D, 0xFF, 0x12]
    let s : State := { s with cpu := { s.cpu with a := 0x77, x := 0x01 } }
    let r := boundary s
    regs r = [0x77, 0x01, 0x00, 0xFD, 0x34, 0x8003, 5] ∧ byteAt r 0x0300 = some 0x77 := by decide +kernel

/-- V40.18, `STX $FF,Y`. -/
theorem test_V40_18 :
    let s := prog 0x8000 [0x96, 0xFF]
    let s : State := { s with cpu := { s.cpu with x := 0x03, y := 0x01 } }
    let r := boundary s
    regs r = [0x00, 0x03, 0x01, 0xFD, 0x34, 0x8002, 4] ∧ byteAt r 0x0000 = some 0x03 := by decide +kernel

/-- V40.19, `STY $10`. -/
theorem test_V40_19 :
    let s := prog 0x8000 [0x84, 0x10]
    let s : State := { s with cpu := { s.cpu with y := 0x44 } }
    let r := boundary s
    regs r = [0x00, 0x00, 0x44, 0xFD, 0x34, 0x8002, 3] ∧ byteAt r 0x0010 = some 0x44 := by decide +kernel

/-- V40.20, `TAX`. -/
theorem test_V40_20 :
    let s := prog 0x8000 [0xAA]
    let s : State := { s with cpu := { s.cpu with a := 0x90 } }
    let r := boundary s
    regs r = [0x90, 0x90, 0x00, 0xFD, 0xB4, 0x8001, 2] := by decide +kernel

/-- V40.21, `TAY`. -/
theorem test_V40_21 :
    let s := prog 0x8000 [0xA8]
    let s : State := { s with cpu := { s.cpu with a := 0x00, y := 0x12 } }
    let r := boundary s
    regs r = [0x00, 0x00, 0x00, 0xFD, 0x36, 0x8001, 2] := by decide +kernel

/-- V40.22, `TXA`. -/
theorem test_V40_22 :
    let s := prog 0x8000 [0x8A]
    let s : State := { s with cpu := { s.cpu with x := 0x01 } }
    let r := boundary s
    regs r = [0x01, 0x01, 0x00, 0xFD, 0x34, 0x8001, 2] := by decide +kernel

/-- V40.23, `TYA`. -/
theorem test_V40_23 :
    let s := prog 0x8000 [0x98]
    let s : State := { s with cpu := { s.cpu with y := 0xFF } }
    let r := boundary s
    regs r = [0xFF, 0x00, 0xFF, 0xFD, 0xB4, 0x8001, 2] := by decide +kernel

/-- V40.24, `TSX`. -/
theorem test_V40_24 :
    let s := prog 0x8000 [0xBA]
    let r := boundary s
    regs r = [0x00, 0xFD, 0x00, 0xFD, 0xB4, 0x8001, 2] := by decide +kernel

/-- V40.25, `TXS`. -/
theorem test_V40_25 :
    let s := prog 0x8000 [0x9A]
    let s : State := { s with cpu := { s.cpu with x := 0x00, p := flags 0x26 } }
    let r := boundary s
    regs r = [0x00, 0x00, 0x00, 0x00, 0x26, 0x8001, 2] := by decide +kernel

/-- V41.1, `ADC #$50`. -/
theorem test_V41_1 :
    let s := prog 0x8000 [0x69, 0x50]
    let s : State := { s with cpu := { s.cpu with a := 0x50, p := flags 0x24 } }
    let r := boundary s
    regs r = [0xA0, 0x00, 0x00, 0xFD, 0xE4, 0x8002, 2] := by decide +kernel

/-- V41.4, `ADC #$FF`. -/
theorem test_V41_4 :
    let s := prog 0x8000 [0x69, 0xFF]
    let s : State := { s with cpu := { s.cpu with a := 0xFF, p := flags 0x25 } }
    let r := boundary s
    regs r = [0xFF, 0x00, 0x00, 0xFD, 0xA5, 0x8002, 2] := by decide +kernel

/-- V41.7, `SBC #$F0`. -/
theorem test_V41_7 :
    let s := prog 0x8000 [0xE9, 0xF0]
    let s : State := { s with cpu := { s.cpu with a := 0x50, p := flags 0x25 } }
    let r := boundary s
    regs r = [0x60, 0x00, 0x00, 0xFD, 0x24, 0x8002, 2] := by decide +kernel

/-- V41.10, `SBC #$01`. -/
theorem test_V41_10 :
    let s := prog 0x8000 [0xE9, 0x01]
    let s : State := { s with cpu := { s.cpu with a := 0x80, p := flags 0x25 } }
    let r := boundary s
    regs r = [0x7F, 0x00, 0x00, 0xFD, 0x65, 0x8002, 2] := by decide +kernel

/-- V41.12, `AND #$3C`. -/
theorem test_V41_12 :
    let s := prog 0x8000 [0x29, 0x3C]
    let s : State := { s with cpu := { s.cpu with a := 0xF0 } }
    let r := boundary s
    regs r = [0x30, 0x00, 0x00, 0xFD, 0x34, 0x8002, 2] := by decide +kernel

/-- V41.13, `ORA #$80`. -/
theorem test_V41_13 :
    let s := prog 0x8000 [0x09, 0x80]
    let s : State := { s with cpu := { s.cpu with a := 0x0F } }
    let r := boundary s
    regs r = [0x8F, 0x00, 0x00, 0xFD, 0xB4, 0x8002, 2] := by decide +kernel

/-- V41.14, `EOR #$FF`. -/
theorem test_V41_14 :
    let s := prog 0x8000 [0x49, 0xFF]
    let s : State := { s with cpu := { s.cpu with a := 0xFF } }
    let r := boundary s
    regs r = [0x00, 0x00, 0x00, 0xFD, 0x36, 0x8002, 2] := by decide +kernel

/-- V41.16, `CMP #$41`. -/
theorem test_V41_16 :
    let s := prog 0x8000 [0xC9, 0x41]
    let s : State := { s with cpu := { s.cpu with a := 0x40, p := flags 0x24 } }
    let r := boundary s
    regs r = [0x40, 0x00, 0x00, 0xFD, 0xA4, 0x8002, 2] := by decide +kernel

/-- V41.17, `CMP #$80`. -/
theorem test_V41_17 :
    let s := prog 0x8000 [0xC9, 0x80]
    let s : State := { s with cpu := { s.cpu with a := 0x00, p := flags 0x25 } }
    let r := boundary s
    regs r = [0x00, 0x00, 0x00, 0xFD, 0xA4, 0x8002, 2] := by decide +kernel

/-- V41.19, `CPX #$10`. -/
theorem test_V41_19 :
    let s := prog 0x8000 [0xE0, 0x10]
    let s : State := { s with cpu := { s.cpu with x := 0x05, p := flags 0x25 } }
    let r := boundary s
    regs r = [0x00, 0x05, 0x00, 0xFD, 0xA4, 0x8002, 2] := by decide +kernel

/-- V41.20, `CPY #$10`. -/
theorem test_V41_20 :
    let s := prog 0x8000 [0xC0, 0x10]
    let s : State := { s with cpu := { s.cpu with y := 0x10, p := flags 0x24 } }
    let r := boundary s
    regs r = [0x00, 0x00, 0x10, 0xFD, 0x27, 0x8002, 2] := by decide +kernel

/-- V41.21, `BIT $10`. -/
theorem test_V41_21 :
    let s := (prog 0x8000 [0x24, 0x10]).load 0x0010 0xC0
    let s : State := { s with cpu := { s.cpu with a := 0x01, p := flags 0x24 } }
    let r := boundary s
    regs r = [0x01, 0x00, 0x00, 0xFD, 0xE6, 0x8002, 3] := by decide +kernel

/-- V41.22, `BIT $10`. -/
theorem test_V41_22 :
    let s := (prog 0x8000 [0x24, 0x10]).load 0x0010 0x01
    let s : State := { s with cpu := { s.cpu with a := 0x0F, p := flags 0xE6 } }
    let r := boundary s
    regs r = [0x0F, 0x00, 0x00, 0xFD, 0x24, 0x8002, 3] := by decide +kernel

/-- V42.2, `ASL $10`. -/
theorem test_V42_2 :
    let s := (prog 0x8000 [0x06, 0x10]).load 0x0010 0x80
    let s : State := { s with cpu := { s.cpu with p := flags 0x24 } }
    let r := boundary s
    regs r = [0x00, 0x00, 0x00, 0xFD, 0x27, 0x8002, 5] ∧ byteAt r 0x0010 = some 0x00 := by decide +kernel

/-- V42.5, `ROL A`. -/
theorem test_V42_5 :
    let s := prog 0x8000 [0x2A]
    let s : State := { s with cpu := { s.cpu with a := 0x40, p := flags 0x25 } }
    let r := boundary s
    regs r = [0x81, 0x00, 0x00, 0xFD, 0xA4, 0x8001, 2] := by decide +kernel

/-- V42.6, `ROL A`. -/
theorem test_V42_6 :
    let s := prog 0x8000 [0x2A]
    let s : State := { s with cpu := { s.cpu with a := 0x80, p := flags 0x24 } }
    let r := boundary s
    regs r = [0x00, 0x00, 0x00, 0xFD, 0x27, 0x8001, 2] := by decide +kernel

/-- V42.4, `LSR $10`. -/
theorem test_V42_4 :
    let s := (prog 0x8000 [0x46, 0x10]).load 0x0010 0x01
    let s : State := { s with cpu := { s.cpu with p := flags 0xA4 } }
    let r := boundary s
    regs r = [0x00, 0x00, 0x00, 0xFD, 0x27, 0x8002, 5] ∧ byteAt r 0x0010 = some 0x00 := by decide +kernel

/-- V42.7, `ROR A`. -/
theorem test_V42_7 :
    let s := prog 0x8000 [0x6A]
    let s : State := { s with cpu := { s.cpu with a := 0x02, p := flags 0x25 } }
    let r := boundary s
    regs r = [0x81, 0x00, 0x00, 0xFD, 0xA4, 0x8001, 2] := by decide +kernel

/-- V42.9, `ROR $12FF,X`. -/
theorem test_V42_9 :
    let s := (prog 0x8000 [0x7E, 0xFF, 0x12]).load 0x1300 0x00
    let s : State := { s with cpu := { s.cpu with x := 0x01, p := flags 0x25 } }
    let r := boundary s
    regs r = [0x00, 0x01, 0x00, 0xFD, 0xA4, 0x8003, 7] ∧ byteAt r 0x0300 = some 0x80 := by decide +kernel

/-- V42.3, `LSR A`. -/
theorem test_V42_3 :
    let s := prog 0x8000 [0x4A]
    let s : State := { s with cpu := { s.cpu with a := 0x03, p := flags 0x24 } }
    let r := boundary s
    regs r = [0x01, 0x00, 0x00, 0xFD, 0x25, 0x8001, 2] := by decide +kernel

/-- V42.1, `ASL A`. -/
theorem test_V42_1 :
    let s := prog 0x8000 [0x0A]
    let s : State := { s with cpu := { s.cpu with a := 0x81, p := flags 0x24 } }
    let r := boundary s
    regs r = [0x02, 0x00, 0x00, 0xFD, 0x25, 0x8001, 2] := by decide +kernel

/-- V42.10, `INC $10`. -/
theorem test_V42_10 :
    let s := (prog 0x8000 [0xE6, 0x10]).load 0x0010 0xFF
    let s : State := { s with cpu := { s.cpu with p := flags 0x25 } }
    let r := boundary s
    regs r = [0x00, 0x00, 0x00, 0xFD, 0x27, 0x8002, 5] ∧ byteAt r 0x0010 = some 0x00 := by decide +kernel

/-- V42.11, `INC $10`. -/
theorem test_V42_11 :
    let s := (prog 0x8000 [0xE6, 0x10]).load 0x0010 0x7F
    let s : State := { s with cpu := { s.cpu with p := flags 0x24 } }
    let r := boundary s
    regs r = [0x00, 0x00, 0x00, 0xFD, 0xA4, 0x8002, 5] ∧ byteAt r 0x0010 = some 0x80 := by decide +kernel

/-- V42.12, `DEC $10`. -/
theorem test_V42_12 :
    let s := (prog 0x8000 [0xC6, 0x10]).load 0x0010 0x00
    let s : State := { s with cpu := { s.cpu with p := flags 0x24 } }
    let r := boundary s
    regs r = [0x00, 0x00, 0x00, 0xFD, 0xA4, 0x8002, 5] ∧ byteAt r 0x0010 = some 0xFF := by decide +kernel

/-- V42.13, `DEC $10,X`. -/
theorem test_V42_13 :
    let s := (prog 0x8000 [0xD6, 0x10]).load 0x0000 0x01
    let s : State := { s with cpu := { s.cpu with x := 0xF0, p := flags 0x24 } }
    let r := boundary s
    regs r = [0x00, 0xF0, 0x00, 0xFD, 0x26, 0x8002, 6] ∧ byteAt r 0x0000 = some 0x00 := by decide +kernel

/-- V42.14, `INX`. -/
theorem test_V42_14 :
    let s := prog 0x8000 [0xE8]
    let s : State := { s with cpu := { s.cpu with x := 0xFF, p := flags 0x24 } }
    let r := boundary s
    regs r = [0x00, 0x00, 0x00, 0xFD, 0x26, 0x8001, 2] := by decide +kernel

/-- V42.15, `INY`. -/
theorem test_V42_15 :
    let s := prog 0x8000 [0xC8]
    let s : State := { s with cpu := { s.cpu with y := 0x7F, p := flags 0x24 } }
    let r := boundary s
    regs r = [0x00, 0x00, 0x80, 0xFD, 0xA4, 0x8001, 2] := by decide +kernel

/-- V42.16, `DEX`. -/
theorem test_V42_16 :
    let s := prog 0x8000 [0xCA]
    let s : State := { s with cpu := { s.cpu with x := 0x00, p := flags 0x24 } }
    let r := boundary s
    regs r = [0x00, 0xFF, 0x00, 0xFD, 0xA4, 0x8001, 2] := by decide +kernel

/-- V42.17, `DEY`. -/
theorem test_V42_17 :
    let s := prog 0x8000 [0x88]
    let s : State := { s with cpu := { s.cpu with y := 0x01, p := flags 0x24 } }
    let r := boundary s
    regs r = [0x00, 0x00, 0x00, 0xFD, 0x26, 0x8001, 2] := by decide +kernel

/-- V43.1, `BCC +$10 (taken)`. -/
theorem test_V43_1 :
    let s := prog 0x8000 [0x90, 0x10]
    let s : State := { s with cpu := { s.cpu with p := flags 0x24 } }
    let r := boundary s
    regs r = [0x00, 0x00, 0x00, 0xFD, 0x24, 0x8012, 3] := by decide +kernel

/-- V43.2, `BCC +$10 (not taken)`. -/
theorem test_V43_2 :
    let s := prog 0x8000 [0x90, 0x10]
    let s : State := { s with cpu := { s.cpu with p := flags 0x25 } }
    let r := boundary s
    regs r = [0x00, 0x00, 0x00, 0xFD, 0x25, 0x8002, 2] := by decide +kernel

/-- V43.3, `BCS +$10 (taken)`. -/
theorem test_V43_3 :
    let s := prog 0x8000 [0xB0, 0x10]
    let s : State := { s with cpu := { s.cpu with p := flags 0x25 } }
    let r := boundary s
    regs r = [0x00, 0x00, 0x00, 0xFD, 0x25, 0x8012, 3] := by decide +kernel

/-- V43.4, `BCS +$10 (not taken)`. -/
theorem test_V43_4 :
    let s := prog 0x8000 [0xB0, 0x10]
    let s : State := { s with cpu := { s.cpu with p := flags 0x24 } }
    let r := boundary s
    regs r = [0x00, 0x00, 0x00, 0xFD, 0x24, 0x8002, 2] := by decide +kernel

/-- V43.17, `BEQ +$20 at 0x80F0 (taken, page crossed)`. -/
theorem test_V43_17 :
    let s := prog 0x80F0 [0xF0, 0x20]
    let s : State := { s with cpu := { s.cpu with p := flags 0x26 } }
    let r := boundary s
    regs r = [0x00, 0x00, 0x00, 0xFD, 0x26, 0x8112, 4] := by decide +kernel

/-- V43.6, `BEQ +$10 (not taken)`. -/
theorem test_V43_6 :
    let s := prog 0x8000 [0xF0, 0x10]
    let s : State := { s with cpu := { s.cpu with p := flags 0x24 } }
    let r := boundary s
    regs r = [0x00, 0x00, 0x00, 0xFD, 0x24, 0x8002, 2] := by decide +kernel

/-- V43.19, `BNE -5 at 0x8005`. -/
theorem test_V43_19 :
    let s := prog 0x8005 [0xD0, 0xFB]
    let s : State := { s with cpu := { s.cpu with p := flags 0x24 } }
    let r := boundary s
    regs r = [0x00, 0x00, 0x00, 0xFD, 0x24, 0x8002, 3] := by decide +kernel

/-- V43.21, `BNE -2 (to itself)`. -/
theorem test_V43_21 :
    let s := prog 0x8000 [0xD0, 0xFE]
    let s : State := { s with cpu := { s.cpu with p := flags 0x24 } }
    let r := boundary s
    regs r = [0x00, 0x00, 0x00, 0xFD, 0x24, 0x8000, 3] := by decide +kernel

/-- V43.9, `BMI +$10 (taken)`. -/
theorem test_V43_9 :
    let s := prog 0x8000 [0x30, 0x10]
    let s : State := { s with cpu := { s.cpu with p := flags 0xA4 } }
    let r := boundary s
    regs r = [0x00, 0x00, 0x00, 0xFD, 0xA4, 0x8012, 3] := by decide +kernel

/-- V43.10, `BMI +$10 (not taken)`. -/
theorem test_V43_10 :
    let s := prog 0x8000 [0x30, 0x10]
    let s : State := { s with cpu := { s.cpu with p := flags 0x24 } }
    let r := boundary s
    regs r = [0x00, 0x00, 0x00, 0xFD, 0x24, 0x8002, 2] := by decide +kernel

/-- V43.20, `BPL -128 at 0x8100 (crossed)`. -/
theorem test_V43_20 :
    let s := prog 0x8100 [0x10, 0x80]
    let s : State := { s with cpu := { s.cpu with p := flags 0x24 } }
    let r := boundary s
    regs r = [0x00, 0x00, 0x00, 0xFD, 0x24, 0x8082, 4] := by decide +kernel

/-- V43.12, `BPL +$10 (not taken)`. -/
theorem test_V43_12 :
    let s := prog 0x8000 [0x10, 0x10]
    let s : State := { s with cpu := { s.cpu with p := flags 0xA4 } }
    let r := boundary s
    regs r = [0x00, 0x00, 0x00, 0xFD, 0xA4, 0x8002, 2] := by decide +kernel

/-- V43.13, `BVC +$10 (taken)`. -/
theorem test_V43_13 :
    let s := prog 0x8000 [0x50, 0x10]
    let s : State := { s with cpu := { s.cpu with p := flags 0x24 } }
    let r := boundary s
    regs r = [0x00, 0x00, 0x00, 0xFD, 0x24, 0x8012, 3] := by decide +kernel

/-- V43.14, `BVC +$10 (not taken)`. -/
theorem test_V43_14 :
    let s := prog 0x8000 [0x50, 0x10]
    let s : State := { s with cpu := { s.cpu with p := flags 0x64 } }
    let r := boundary s
    regs r = [0x00, 0x00, 0x00, 0xFD, 0x64, 0x8002, 2] := by decide +kernel

/-- V43.15, `BVS +$10 (taken)`. -/
theorem test_V43_15 :
    let s := prog 0x8000 [0x70, 0x10]
    let s : State := { s with cpu := { s.cpu with p := flags 0x64 } }
    let r := boundary s
    regs r = [0x00, 0x00, 0x00, 0xFD, 0x64, 0x8012, 3] := by decide +kernel

/-- V43.16, `BVS +$10 (not taken)`. -/
theorem test_V43_16 :
    let s := prog 0x8000 [0x70, 0x10]
    let s : State := { s with cpu := { s.cpu with p := flags 0x24 } }
    let r := boundary s
    regs r = [0x00, 0x00, 0x00, 0xFD, 0x24, 0x8002, 2] := by decide +kernel

/-- V43.22, `JMP $C000`. -/
theorem test_V43_22 :
    let s := prog 0x8000 [0x4C, 0x00, 0xC0]
    let r := boundary s
    regs r = [0x00, 0x00, 0x00, 0xFD, 0x34, 0xC000, 3] := by decide +kernel

/-- V43.23, `JMP ($60FF)`. -/
theorem test_V43_23 :
    let s := (((prog 0x8000 [0x6C, 0xFF, 0x60]).load 0x60FF 0x40).load 0x6000 0x80).load 0x6100 0x50
    let r := boundary s
    regs r = [0x00, 0x00, 0x00, 0xFD, 0x34, 0x8040, 5] := by decide +kernel

/-- V43.25, `JSR $C100 at 0xC000`. -/
theorem test_V43_25 :
    let s := prog 0xC000 [0x20, 0x00, 0xC1]
    let r := boundary s
    regs r = [0x00, 0x00, 0x00, 0xFB, 0x34, 0xC100, 6] ∧ byteAt r 0x01FC = some 0x02 ∧ byteAt r 0x01FD = some 0xC0 := by decide +kernel

/-- V43.26, `JSR $C100 at 0xC000, SP = 0x00`. -/
theorem test_V43_26 :
    let s := prog 0xC000 [0x20, 0x00, 0xC1]
    let s : State := { s with cpu := { s.cpu with sp := 0x00 } }
    let r := boundary s
    regs r = [0x00, 0x00, 0x00, 0xFE, 0x34, 0xC100, 6] ∧ byteAt r 0x0100 = some 0xC0 ∧ byteAt r 0x01FF = some 0x02 := by decide +kernel

/-- V43.27, `RTS`. -/
theorem test_V43_27 :
    let s := ((prog 0x8000 [0x60]).load 0x01FC 0x02).load 0x01FD 0xC0
    let s : State := { s with cpu := { s.cpu with sp := 0xFB } }
    let r := boundary s
    regs r = [0x00, 0x00, 0x00, 0xFD, 0x34, 0xC003, 6] := by decide +kernel

/-- V43.28, `RTS (popped 0xFFFF)`. -/
theorem test_V43_28 :
    let s := ((prog 0x8000 [0x60]).load 0x01FC 0xFF).load 0x01FD 0xFF
    let s : State := { s with cpu := { s.cpu with sp := 0xFB } }
    let r := boundary s
    regs r = [0x00, 0x00, 0x00, 0xFD, 0x34, 0x0000, 6] := by decide +kernel

/-- V43.29, `RTI`. -/
theorem test_V43_29 :
    let s := (((prog 0x8000 [0x40]).load 0x01FB 0xFF).load 0x01FC 0x34).load 0x01FD 0x12
    let s : State := { s with cpu := { s.cpu with sp := 0xFA, p := flags 0x24 } }
    let r := boundary s
    regs r = [0x00, 0x00, 0x00, 0xFD, 0xEF, 0x1234, 6] := by decide +kernel

/-- V43.30, `BRK`. -/
theorem test_V43_30 :
    let s := prog 0x8000 [0x00, 0x00]
    let s : State := { s with cpu := { s.cpu with p := flags 0x24 } }
    let r := boundary s
    regs r = [0x00, 0x00, 0x00, 0xFA, 0x24, 0x9000, 7] ∧ byteAt r 0x01FB = some 0x34 ∧ byteAt r 0x01FC = some 0x02 ∧ byteAt r 0x01FD = some 0x80 := by decide +kernel

/-- V44.1, `PHA`. -/
theorem test_V44_1 :
    let s := prog 0x8000 [0x48]
    let s : State := { s with cpu := { s.cpu with a := 0x42 } }
    let r := boundary s
    regs r = [0x42, 0x00, 0x00, 0xFC, 0x34, 0x8001, 3] ∧ byteAt r 0x01FD = some 0x42 := by decide +kernel

/-- V44.2, `PHA (SP = 0x00)`. -/
theorem test_V44_2 :
    let s := prog 0x8000 [0x48]
    let s : State := { s with cpu := { s.cpu with a := 0x42, sp := 0x00 } }
    let r := boundary s
    regs r = [0x42, 0x00, 0x00, 0xFF, 0x34, 0x8001, 3] ∧ byteAt r 0x0100 = some 0x42 := by decide +kernel

/-- V44.3, `PLA`. -/
theorem test_V44_3 :
    let s := (prog 0x8000 [0x68]).load 0x01FD 0x80
    let s : State := { s with cpu := { s.cpu with sp := 0xFC } }
    let r := boundary s
    regs r = [0x80, 0x00, 0x00, 0xFD, 0xB4, 0x8001, 4] := by decide +kernel

/-- V44.4, `PLA (SP = 0xFF)`. -/
theorem test_V44_4 :
    let s := (prog 0x8000 [0x68]).load 0x0100 0x00
    let s : State := { s with cpu := { s.cpu with sp := 0xFF } }
    let r := boundary s
    regs r = [0x00, 0x00, 0x00, 0x00, 0x36, 0x8001, 4] := by decide +kernel

/-- V44.5, `PHP`. -/
theorem test_V44_5 :
    let s := prog 0x8000 [0x08]
    let s : State := { s with cpu := { s.cpu with p := flags 0x24 } }
    let r := boundary s
    regs r = [0x00, 0x00, 0x00, 0xFC, 0x24, 0x8001, 3] ∧ byteAt r 0x01FD = some 0x34 := by decide +kernel

/-- V44.7, `PLP`. -/
theorem test_V44_7 :
    let s := (prog 0x8000 [0x28]).load 0x01FD 0xFF
    let s : State := { s with cpu := { s.cpu with sp := 0xFC } }
    let r := boundary s
    regs r = [0x00, 0x00, 0x00, 0xFD, 0xEF, 0x8001, 4] := by decide +kernel

/-- V44.8, `PLP`. -/
theorem test_V44_8 :
    let s := (prog 0x8000 [0x28]).load 0x01FD 0x00
    let s : State := { s with cpu := { s.cpu with sp := 0xFC, p := flags 0xFF } }
    let r := boundary s
    regs r = [0x00, 0x00, 0x00, 0xFD, 0x20, 0x8001, 4] := by decide +kernel

/-- V44.9, `CLC`. -/
theorem test_V44_9 :
    let s := prog 0x8000 [0x18]
    let s : State := { s with cpu := { s.cpu with p := flags 0x25 } }
    let r := boundary s
    regs r = [0x00, 0x00, 0x00, 0xFD, 0x24, 0x8001, 2] := by decide +kernel

/-- V44.10, `SEC`. -/
theorem test_V44_10 :
    let s := prog 0x8000 [0x38]
    let s : State := { s with cpu := { s.cpu with p := flags 0x24 } }
    let r := boundary s
    regs r = [0x00, 0x00, 0x00, 0xFD, 0x25, 0x8001, 2] := by decide +kernel

/-- V44.11, `CLI`. -/
theorem test_V44_11 :
    let s := prog 0x8000 [0x58]
    let s : State := { s with cpu := { s.cpu with p := flags 0x24 } }
    let r := boundary s
    regs r = [0x00, 0x00, 0x00, 0xFD, 0x20, 0x8001, 2] := by decide +kernel

/-- V44.12, `SEI`. -/
theorem test_V44_12 :
    let s := prog 0x8000 [0x78]
    let s : State := { s with cpu := { s.cpu with p := flags 0x20 } }
    let r := boundary s
    regs r = [0x00, 0x00, 0x00, 0xFD, 0x24, 0x8001, 2] := by decide +kernel

/-- V44.13, `CLV`. -/
theorem test_V44_13 :
    let s := prog 0x8000 [0xB8]
    let s : State := { s with cpu := { s.cpu with p := flags 0x64 } }
    let r := boundary s
    regs r = [0x00, 0x00, 0x00, 0xFD, 0x24, 0x8001, 2] := by decide +kernel

/-- V44.14, `CLD`. -/
theorem test_V44_14 :
    let s := prog 0x8000 [0xD8]
    let s : State := { s with cpu := { s.cpu with p := flags 0x2C } }
    let r := boundary s
    regs r = [0x00, 0x00, 0x00, 0xFD, 0x24, 0x8001, 2] := by decide +kernel

/-- V44.15, `SED`. -/
theorem test_V44_15 :
    let s := prog 0x8000 [0xF8]
    let s : State := { s with cpu := { s.cpu with p := flags 0x24 } }
    let r := boundary s
    regs r = [0x00, 0x00, 0x00, 0xFD, 0x2C, 0x8001, 2] := by decide +kernel

/-- V44.16, `NOP`. -/
theorem test_V44_16 :
    let s := prog 0x8000 [0xEA]
    let r := boundary s
    regs r = [0x00, 0x00, 0x00, 0xFD, 0x34, 0x8001, 2] := by decide +kernel

/-- V44.21, `NOP* $2002 (0x0C)`. -/
theorem test_V44_21 :
    let s := prog 0x8000 [0x0C, 0x02, 0x20]
    let s : State := { s with ppu := { s.ppu with vblank := true } }
    let r := boundary s
    regs r = [0x00, 0x00, 0x00, 0xFD, 0x34, 0x8003, 2] := by decide +kernel

/-- V44.22, `NOP* $12FF,X (0x1C)`. -/
theorem test_V44_22 :
    let s := prog 0x8000 [0x1C, 0xFF, 0x12]
    let s : State := { s with cpu := { s.cpu with x := 0x01 } }
    let r := boundary s
    regs r = [0x00, 0x01, 0x00, 0xFD, 0x34, 0x8003, 2] := by decide +kernel

/-- V44.24, `UND (0x02, a halt opcode on NMOS)`. -/
theorem test_V44_24 :
    let s := prog 0x8000 [0x02, 0xA9]
    let r := boundary s
    regs r = [0x00, 0x00, 0x00, 0xFD, 0x34, 0x8001, 2] := by decide +kernel

/-- V44.26, `UND (0xEB)`. -/
theorem test_V44_26 :
    let s := prog 0x8000 [0xEB, 0x01]
    let s : State := { s with cpu := { s.cpu with a := 0x05, p := flags 0x25 } }
    let r := boundary s
    regs r = [0x05, 0x00, 0x00, 0xFD, 0x25, 0x8001, 2] := by decide +kernel

/-! Where a read and a fetch fault (V40.26, V40.27), and the access mode (V40.28). -/

/-- V40.26. -/
theorem test_V40_26 :
    stopped (boundary (prog 0x8000 [0xAD, 0x00, 0x40])) = some (.apuRead 0x4000, 0x8003, 4) := by decide +kernel

/-- V40.27. -/
theorem test_V40_27 :
    stopped (boundary (prog 0x8000 [0xAD, 0x00, 0x50])) = some (.unmapped 0x5000, 0x8003, 4) := by decide +kernel

/-- V40.28. -/
theorem test_V40_28 :
    let s := prog 0x8000 [0xAD, 0x00, 0x50]
    let s : State := { s with accessMode := .lenient, cpu := { s.cpu with a := 0x11 } }
    regs (boundary s) = [0x00, 0x00, 0x00, 0xFD, 0x36, 0x8003, 4] := by decide +kernel

/-! ### Interrupts, the PPU and the controllers: vectors of 95_test_vectors.md -/

/-- V60.1: an NMI is taken whatever I is; the pushed image has bit 4 = 0. -/
theorem test_V60_1 :
    let s := prog 0x8000 [0xEA]
    let r := boundary (requestNmi { s with cpu := { s.cpu with p := flags 0x24 } })
    regs r = [0x00, 0x00, 0x00, 0xFA, 0x24, 0xA000, 7] ∧ byteAt r 0x01FB = some 0x24 ∧ byteAt r 0x01FD = some 0x80 := by
  decide +kernel

/-- V60.2, V60.3: an IRQ is taken with I = 0 and dropped with I = 1. -/
theorem test_V60_2_3 :
    let s := prog 0x8000 [0xEA]
    let irq (p : Byte) := boundary (requestIrq { s with cpu := { s.cpu with p := flags p } })
    regs (irq 0x20) = [0x00, 0x00, 0x00, 0xFA, 0x24, 0x9000, 7] ∧ byteAt (irq 0x20) 0x01FB = some 0x20 ∧
      regs (irq 0x24) = [0x00, 0x00, 0x00, 0xFD, 0x24, 0x8001, 2] := by decide +kernel

/-- V60.8: the reset button. -/
theorem test_V60_8 :
    let s := State.reset.load 0xFFFD 0x80
    let s : State := { s with cpu := { s.cpu with a := 0x12, sp := 0x80, p := flags 0x21, pc := 0x1234 } }
    regs (.next (pressReset s)) = [0x12, 0x00, 0x00, 0xFD, 0x25, 0x8000, 0] := by decide +kernel

/-- A list of bus writes and then reads: the bytes read and the state left. -/
def accesses (writes : List (Addr × Byte)) (reads : List Addr) (s : State) : Option (List Byte × State) :=
  let w := writes.foldl (fun s w => s.bind fun s => (write8 w.1 w.2 s).toOption) (some s)
  reads.foldl (fun r a => r.bind fun r => (read8 a r.2).toOption.map fun v => (r.1 ++ [v.1], v.2)) (w.map fun s => ([], s))

/-- V50.1, V50.3: PPUCTRL, and the NMI check of a newly set enable during vblank. -/
theorem test_V50_1_3 :
    (accesses [(0x2000, 0x01)] [] { State.reset with ppu := { Ppu.powerUp with t := 0x7FFF } }).map (fun r => r.2.ppu.t) =
        some 0x77FF ∧
      (accesses [(0x2000, 0x80)] [] { State.reset with ppu := { Ppu.powerUp with vblank := true } }).map
        (fun r => (r.2.ppu.nmiDelay, r.2.ppu.nmiEnable)) = some (15, true) := by decide +kernel

/-- V50.6: two reads of PPUSTATUS. -/
theorem test_V50_6 :
    (accesses [] [0x2002, 0x2002]
      { State.reset with ppu := { Ppu.powerUp with vblank := true, sprite0Hit := true, w := true } }).map
        (fun r => (r.1, r.2.ppu.w, r.2.ppu.vblank)) = some ([0xC0, 0x40], false, false) := by decide +kernel

/-- V50.7: OAMADDR and OAMDATA. -/
theorem test_V50_7 :
    (accesses [(0x2003, 0xFF), (0x2004, 0x11), (0x2004, 0x22)] [0x2004] State.reset).map
      (fun r => (r.1, r.2.ppu.oamAddr, Cells.read r.2.ppu.oam 0x00, Cells.read r.2.ppu.oam 0xFF)) =
      some ([0x00], 0x01, 0x22, 0x11) := by decide +kernel

/-- V50.8, V50.9: the write pairs of PPUSCROLL and PPUADDR. -/
theorem test_V50_8_9 :
    (accesses [(0x2005, 0x7D), (0x2005, 0x5E)] [] State.reset).map (fun r => (r.2.ppu.t, r.2.ppu.fineX)) =
        some (0x616F, 5) ∧
      (accesses [(0x2006, 0xFF), (0x2006, 0x34)] [] State.reset).map (fun r => (r.2.ppu.v, r.2.ppu.t)) =
        some (0x3F34, 0x3F34) := by decide +kernel

/-- V50.13: buffered reads of PPUDATA. -/
theorem test_V50_13 :
    (accesses [(0x2006, 0x20), (0x2006, 0x00)] [0x2007, 0x2007, 0x2007]
      { State.reset with ppu := { Ppu.powerUp with nt := [(0, 0x11), (1, 0x22)] } }).map
        (fun r => (r.1, r.2.ppu.v)) = some ([0x00, 0x11, 0x22], 0x2003) := by decide +kernel

/-- V50.14: palette reads, with the entry mirrored and the buffer filled from the nametable underneath. -/
theorem test_V50_14 :
    (accesses [(0x2006, 0x3F), (0x2006, 0x10)] [0x2007, 0x2007]
      { State.reset with
        ppu := { Ppu.powerUp with pal := [(0, 0x3F), (0x11, 0x16)], nt := [(0x710, 0x99), (0x711, 0x98)] } }).map
        (fun r => (r.1, r.2.ppu.v, r.2.ppu.readBuffer)) = some ([0x3F, 0x16], 0x3F12, 0x98) := by decide +kernel

/-- V50.16: horizontal mirroring. -/
theorem test_V50_16 :
    (accesses [(0x2006, 0x24), (0x2006, 0x05), (0x2007, 0x77), (0x2006, 0x28), (0x2006, 0x05), (0x2007, 0x88)] []
      State.reset).map (fun r => r.2.ppu.nt) = some [(0x05, 0x77), (0x405, 0x88)] := by decide +kernel

/-- V50.23: OAM DMA from RAM with an even counter. -/
theorem test_V50_23 :
    let s : State := { State.reset with
      ram := [(0x300, 0x10), (0x3FF, 0xEE)], cpu := { State.reset.cpu with cycles := 100 }
      ppu := { Ppu.powerUp with oamAddr := 0x40 } }
    (accesses [(0x4014, 0x03)] [] s).map (fun r => (r.2.ppu.oam, r.2.ppu.oamAddr, r.2.cpu.cycles)) =
      some ([(0x00, 0x10), (0xFF, 0xEE)], 0x40, 613) := by decide +kernel

/-- V60.9: the order of the buttons. -/
theorem test_V60_9 :
    (accesses [(0x4016, 0x01), (0x4016, 0x00)]
      [0x4016, 0x4016, 0x4016, 0x4016, 0x4016, 0x4016, 0x4016, 0x4016, 0x4016, 0x4017]
      { State.reset with pad1 := { Buttons.released with a := true, start := true } }).map (fun r => r.1) =
      some [0x01, 0x00, 0x00, 0x01, 0x00, 0x00, 0x00, 0x00, 0x01, 0x00] := by decide +kernel

/-- V50.31, V50.34 to V50.39, V50.41: the scroll updates. -/
theorem test_V50_30_41 :
    incX 0x001F = 0x0400 ∧ incX 0x041F = 0x0000 ∧ incY 0x7000 = 0x0020 ∧ incY 0x73A0 = 0x0800 ∧ incY 0x7BA0 = 0x0000 ∧
      incY 0x73E0 = 0x0000 ∧ copyX 0x7FFF 0x0000 = 0x7BE0 ∧ copyX 0x0000 0x7FFF = 0x041F ∧
      copyY 0x7FFF 0x0000 = 0x041F ∧ copyY 0x0000 0x7FFF = 0x7BE0 := by decide +kernel

/-- V50.42 to V50.47: the attribute address and bits. -/
theorem test_V50_42_47 :
    [0x0000, 0x0002, 0x0040, 0x0042, 0x0FBF, 0x0021].map (fun v : BitVec 15 => (attrAddr v, attrBits v 0xE4)) =
      [(0x23C0, 0x0), (0x23C0, 0x4), (0x23C0, 0x8), (0x23C0, 0xC), (0x2FFF, 0x4), (0x23C0, 0x0)] := by decide +kernel

/-- The state `n` PPU ticks on. -/
def ticks (n : Nat) (s : State) : State := n.repeat ppuTick s

/-- T.1, T.2: one tick sets vblank at (241, 1); fifteen more post the NMI. -/
theorem test_T_1_2 :
    let s : State := { State.reset with ppu := { Ppu.powerUp with scanline := 241, cycle := 0, nmiEnable := true } }
    (ticks 1 s).ppu.vblank = true ∧ (ticks 1 s).ppu.nmiDelay = 15 ∧ (ticks 15 s).cpu.pending = none ∧
      (ticks 16 s).cpu.pending = some .nmi := by decide +kernel

/-- T.4: the last dot of a frame is followed by dot (0, 0) of the next. -/
theorem test_T_4 :
    let p := Ppu.tick Cartridge.blank { Ppu.powerUp with scanline := 261, cycle := 340 }
    (p.scanline, p.cycle, p.frame) = (0, 0, 1) := by decide +kernel

/-- R.3: with the background off, a dot draws the backdrop. -/
theorem test_R_3 :
    Ppu.framebuffer (Ppu.tick Cartridge.blank { Ppu.powerUp with pal := [(0, 0x0F)], showSpr := true }) = [(0, 0x0F)] := by
  decide +kernel

/-! ### Running from reset -/

/-- Log entry 13: the word given to `withFetchWord` is what the next step runs. -/
theorem test_withFetchWord :
    regs (step (State.reset.withFetchWord 16 0x80A9)) = [0x80, 0x00, 0x00, 0xFD, 0xB4, 0x0002, 2] := by decide +kernel

/-- Log entry 13: with PC among the devices the instruction is placed at 0x0000. -/
theorem test_withFetchWord_device :
    regs (step (({ State.reset with cpu := { State.reset.cpu with pc := 0x4000 } } : State).withFetchWord 8 0xE8)) =
      [0x00, 0x01, 0x00, 0xFD, 0x34, 0x0001, 2] := by decide +kernel

/-! ### Witnesses: a state and operands that meet the hypotheses of each obligation -/

/-- A state that answers, from one that `decide` can look at. -/
theorem next_of_regs {r : Host.Outcome State Fault Refusal} (h : regs r ≠ []) : ∃ t, r = .next t := by
  unfold regs at h
  split at h
  · exact ⟨_, rfl⟩
  · exact absurd rfl h

theorem fault_of_stopped {r : Host.Outcome State Fault Refusal} {x : FaultReason × Nat × Nat}
    (h : stopped r = some x) : ∃ kept, r = .fault (.access x.1 kept) := by
  unfold stopped at h
  split at h
  · injection h with h
    subst h
    exact ⟨_, rfl⟩
  · cases h

/-- A bus read completes. -/
def reads (r : Except Fault (Byte × State)) : Bool :=
  match r with
  | .ok _ => true
  | .error _ => false

theorem ok_of_reads {r : Except Fault (Byte × State)} (h : reads r = true) : ∃ v s', r = .ok (v, s') := by
  unfold reads at h
  split at h
  · exact ⟨_, _, rfl⟩
  · cases h

theorem error_of_reads {r : Except Fault (Byte × State)} (h : reads r = false) : ∃ f, r = .error f := by
  unfold reads at h
  split at h
  · cases h
  · exact ⟨_, rfl⟩

/-- A bus write completes. -/
def writes (r : Except Fault State) : Bool :=
  match r with
  | .ok _ => true
  | .error _ => false

theorem ok_of_writes {r : Except Fault State} (h : writes r = true) : ∃ t, r = .ok t := by
  unfold writes at h
  split at h
  · exact ⟨_, rfl⟩
  · cases h

theorem error_of_writes {r : Except Fault State} (h : writes r = false) : ∃ f, r = .error f := by
  unfold writes at h
  split at h
  · cases h
  · exact ⟨_, rfl⟩

/-- DecodeEncode: a form with three bytes, an `NOP*` and an `UND` at the ends of their tables. -/
theorem witness_DecodeEncode :
    Instr.wellFormed (.lda (.absx 0xFFFF)) = true ∧ Instr.wellFormed (.nopStar 0xFC (.absx 0xFFFF)) = true ∧
      Instr.wellFormed (.und 0xFF) = true ∧ Instr.wellFormed .brk = true := by decide

/-- StepRunsDecodedInstruction: an instruction of three bytes in RAM, and one at the last addresses of the cartridge. -/
theorem witness_StepRunsDecodedInstruction :
    let s := State.reset.withFetchWord 24 0x0200AD
    let t := (prog 0xFFFE [0xA9, 0x80])
    (s.fault = none ∧ applyInputs s = s ∧ s.cpu.pending = none ∧ s.cpu.remaining ≤ 1 ∧
      ∀ k : Nat, k < bytesRead (.lda (.abs 0x0200)) →
        s.peek (s.cpu.pc + BitVec.ofNat 16 k) = [0xAD, 0x00, 0x02][k]?) ∧
      decode [0xAD, 0x00, 0x02] = .ok (.lda (.abs 0x0200), []) ∧
      (t.fault = none ∧ applyInputs t = t ∧ t.cpu.pending = none ∧ t.cpu.remaining ≤ 1 ∧
        ∀ k : Nat, k < bytesRead (.lda (.imm 0x80)) → t.peek (t.cpu.pc + BitVec.ofNat 16 k) = [0xA9, 0x80][k]?) ∧
      decode [0xA9, 0x80] = .ok (.lda (.imm 0x80), []) := by decide +kernel

/-- CountdownAndRunInstr: the least countdown it is about. -/
theorem witness_countdown :
    let s := State.reset.setRemaining 2
    s.fault = none ∧ applyInputs s = s ∧ 2 ≤ s.cpu.remaining := by decide +kernel

/-- The completed master ticks of a run, whether it stands in the middle of one, and PC, the cycle counter, `remaining`
and the dot of its machine. -/
def observed (r : Host.Outcome Run Fault Refusal) : Option (Nat × Bool × List Nat) :=
  match r with
  | .next r =>
    some (r.ticks, r.midTick, [r.machine.cpu.pc.toNat, r.machine.cpu.cycles.toNat, r.machine.cpu.remaining,
      r.machine.ppu.scanline, r.machine.ppu.cycle])
  | _ => none

/-- R469: the second boundary, two cycles after the first: two completed master ticks and six dots, and R459 with n = 3
gives 7 + 2 + 2 cycles. -/
theorem test_runInstr :
    observed ((Run.start (prog 0x8000 [0xEA, 0xEA])).runInstr 2) = some (2, true, [0x8002, 11, 2, 0, 6]) := by
  decide +kernel

/-- R469: a further `MasterTick()` first makes the three PPU ticks of the third master tick, then the fourth. -/
theorem test_runInstr_resume :
    (match (Run.start (prog 0x8000 [0xEA, 0xEA])).runInstr 2 with
      | .next r => observed r.masterTick
      | _ => none) = some (4, false, [0x8002, 11, 1, 0, 12]) := by
  decide +kernel

/-- A run that stops, from one that `decide` can look at. -/
theorem next_of_observed {r : Host.Outcome Run Fault Refusal} (h : observed r ≠ none) : ∃ r', r = .next r' := by
  unfold observed at h
  split at h
  · exact ⟨_, rfl⟩
  · exact absurd rfl h

/-- CountdownAndRunInstr: `RunInstr(2)` of a machine just powered up. -/
theorem witness_CountdownAndRunInstr :
    let s := prog 0x8000 [0xEA, 0xEA]
    s.inputs = [] ∧ s.cpu.remaining = 0 ∧ ∃ r, (Run.start s).runInstr 2 = .next r :=
  ⟨by decide +kernel, by decide +kernel, next_of_observed (by rw [test_runInstr]; exact Option.some_ne_none _)⟩

/-- StepTakesInterrupt: either kind. -/
theorem witness_StepTakesInterrupt :
    let s := (State.reset.setPending (some .nmi)).setRemaining 1
    let t := State.reset.setPending (some .irq)
    (s.fault = none ∧ applyInputs s = s ∧ s.cpu.pending = some .nmi ∧ s.cpu.remaining ≤ 1 ∧ Cells.wf s.ram = true) ∧
      t.fault = none ∧ applyInputs t = t ∧ t.cpu.pending = some .irq ∧ t.cpu.remaining ≤ 1 ∧ Cells.wf t.ram = true := by
  decide +kernel

/-- FaultReasons: a faulted machine. -/
theorem witness_FaultReasons_faulted :
    ({ State.reset with fault := some (.unmapped 0x5000) } : State).fault = some (.unmapped 0x5000) := rfl

/-- FaultReasons: a step for each of the four reasons, in `strict` mode, two of them at mirrors of PPU ports, with the
address of the access (R411). -/
theorem witness_FaultReasons :
    let s (w : Nat) := State.reset.withFetchWord 24 w
    (∃ kept, step (s 0x4013AD) = .fault (.access (.apuRead 0x4013) kept)) ∧
      (∃ kept, step (s 0x4014AD) = .fault (.access (.writeOnlyRead 0x4014) kept)) ∧
      (∃ kept, step (s 0x3FF8AD) = .fault (.access (.writeOnlyRead 0x3FF8) kept)) ∧
      (∃ kept, step (s 0x200A8D) = .fault (.access (.readOnlyWrite 0x200A) kept)) ∧
      (∃ kept, step (s 0x5FFF8D) = .fault (.access (.unmapped 0x5FFF) kept)) := by
  have h1 : stopped (step (State.reset.withFetchWord 24 0x4013AD)) = some (.apuRead 0x4013, 3, 4) := by decide +kernel
  have h2 : stopped (step (State.reset.withFetchWord 24 0x4014AD)) = some (.writeOnlyRead 0x4014, 3, 4) := by
    decide +kernel
  have h3 : stopped (step (State.reset.withFetchWord 24 0x3FF8AD)) = some (.writeOnlyRead 0x3FF8, 3, 4) := by
    decide +kernel
  have h4 : stopped (step (State.reset.withFetchWord 24 0x200A8D)) = some (.readOnlyWrite 0x200A, 3, 4) := by
    decide +kernel
  have h5 : stopped (step (State.reset.withFetchWord 24 0x5FFF8D)) = some (.unmapped 0x5FFF, 3, 4) := by decide +kernel
  exact ⟨fault_of_stopped h1, fault_of_stopped h2, fault_of_stopped h3, fault_of_stopped h4, fault_of_stopped h5⟩

/-- OnlyIllFormedRefused. -/
theorem witness_OnlyIllFormedRefused :
    Instr.wellFormed (.und 0xEA) = false ∧ Instr.wellFormed (.und 0xEB) = true := by decide

/-- The smallest image: 16 KiB of PRG and no CHR. -/
def smallImage : List Byte :=
  [0x4E, 0x45, 0x53, 0x1A, 0x01, 0x00, 0x01] ++ List.replicate 16393 0x00

/-- The largest image without bytes to spare: a trainer, 32 KiB of PRG and CHR. -/
def largeImage : List Byte :=
  [0x4E, 0x45, 0x53, 0x1A, 0x02, 0x01, 0x04, 0x00] ++ List.replicate 41480 0x00

theorem length_smallImage : smallImage.length = 16400 := by
  unfold smallImage
  rw [List.length_append, List.length_replicate]
  rfl

theorem length_largeImage : largeImage.length = 41488 := by
  unfold largeImage
  rw [List.length_append, List.length_replicate]
  rfl

/-- CartridgeImage: both images are accepted, with no byte to spare; an empty one is not. -/
theorem witness_CartridgeImage :
    (16 ≤ smallImage.length ∧ smallImage.take 4 = [0x4E, 0x45, 0x53, 0x1A] ∧
      (smallImage.getD 6 0).extractLsb' 4 4 = 0 ∧ (smallImage.getD 7 0).extractLsb' 4 4 = 0 ∧
      (smallImage.getD 4 0).toNat = 1 ∧ (smallImage.getD 5 0).toNat ≤ 1 ∧ (smallImage.getD 6 0).getLsbD 2 = false ∧
      16 + 16384 * 1 + 8192 * 0 = smallImage.length) ∧
    (largeImage.take 4 = [0x4E, 0x45, 0x53, 0x1A] ∧ (largeImage.getD 6 0).extractLsb' 4 4 = 0 ∧
      (largeImage.getD 7 0).extractLsb' 4 4 = 0 ∧ (largeImage.getD 4 0).toNat = 2 ∧ (largeImage.getD 5 0).toNat ≤ 1 ∧
      (largeImage.getD 6 0).getLsbD 2 = true ∧ 528 + 16384 * 2 + 8192 * 1 = largeImage.length) ∧
    ¬16 ≤ ([] : List Byte).length := by
  rw [length_smallImage, length_largeImage]
  exact ⟨⟨by decide, rfl, rfl, rfl, rfl, by decide, rfl, rfl⟩, ⟨rfl, rfl, rfl, rfl, by decide, rfl, rfl⟩, by decide⟩

/-- PowerUpValues: CHR RAM and CHR ROM, an image that builds a cartridge and one that is refused. -/
theorem witness_PowerUpValues :
    State.reset.cart.chrIsRam = true ∧
      ({ State.reset with cart := { Cartridge.blank with chrIsRam := false } } : State).cart.chrIsRam = false ∧
      (∃ c, buildCartridge smallImage = .ok c) ∧ ∃ e, buildCartridge [] = .error e := by
  refine ⟨rfl, rfl, ?_, ?_⟩
  · unfold buildCartridge
    rw [length_smallImage]
    exact ⟨_, rfl⟩
  · exact ⟨_, rfl⟩

/-- HostRequests: I set, I clear with an empty queue, and a full queue; no operation due, none on this tick, and two. -/
theorem witness_HostRequests :
    State.reset.cpu.p.i = true ∧ (State.reset.setP (flags 0x20)).cpu.p.i = false ∧
      (State.reset.setP (flags 0x20)).cpu.pending = none ∧
      (State.reset.setPending (some .nmi)).cpu.pending = some .nmi ∧ State.reset.inputs = [] ∧
      ({ State.reset with inputs := [[], [.reset]] } : State).inputs = [] :: [[.reset]] ∧
      ({ State.reset with inputs := [[.requestNmi, .powerUp]] } : State).inputs = (.requestNmi :: [.powerUp]) :: [] := by
  decide

/-- R470: the operations due apply in their order: a request before `power_up()` is lost, one after it is queued. -/
theorem test_hostOps_order :
    (applyInputs { State.reset with inputs := [[.requestNmi, .powerUp]] }).cpu.pending = none ∧
      (applyInputs { State.reset with inputs := [[.powerUp, .requestNmi]] }).cpu.pending = some .nmi := by decide

/-- The first step from reset completes. -/
theorem step_reset : ∃ t, step State.reset = .next t := next_of_regs (by decide +kernel)

/-- StepKeepsStorages, StepKeepsCounters, StepKeepsCartridge: a step from reset, where both invariants hold, with CHR
RAM, CHR ROM and sprite overflow clear. -/
theorem witness_StepKeeps :
    StorageInv State.reset ∧ CounterInv State.reset ∧ (∃ t, step State.reset = .next t) ∧
      State.reset.ppu.spriteOverflow = false ∧
      ({ State.reset with cart := { Cartridge.blank with chrIsRam := false } } : State).cart.chrIsRam = false :=
  ⟨by constructor <;> decide, by constructor <;> decide, step_reset, rfl, rfl⟩

/-- CycleAccounting: the last tick before a boundary, the one before it, and the first step after power-up. -/
theorem witness_CycleAccounting :
    (State.reset.inputs = [] ∧ State.reset.cpu.remaining = 0 ∧ ∃ t, step State.reset = .next t) ∧
      ((State.reset.setRemaining 1).cpu.remaining ≠ 0 ∧ ∃ t, step (State.reset.setRemaining 1) = .next t) ∧
      (2 ≤ (State.reset.setRemaining 2).cpu.remaining ∧ ∃ t, step (State.reset.setRemaining 2) = .next t) :=
  ⟨⟨rfl, rfl, step_reset⟩, ⟨by decide, next_of_regs (by decide +kernel)⟩, ⟨by decide, next_of_regs (by decide +kernel)⟩⟩

/-- BoundaryCost: the least cost, and the greatest, an increment of the DMA port in `lenient` mode with an odd counter
at the write. -/
theorem witness_BoundaryCost :
    (regs (boundary (prog 0x8000 [0xEA]))).getLast? = some 2 ∧
      (let s := prog 0x8000 [0xFE, 0x13, 0x40]
       regs (boundary { s with accessMode := .lenient, cpu := { s.cpu with x := 1, cycles := 8 } })).getLast? =
        some 522 := by decide +kernel

/-- The instructions that read an operand, of one operand form. -/
def readers (m : Operand) : List Instr :=
  [.lda m, .ldx m, .ldy m, .adc m, .sbc m, .and m, .ora m, .eor m, .cmp m, .cpx m, .cpy m, .bit m]

/-- LoadInstructions, AddWithCarry, SubtractWithBorrow, LogicInstructions, CompareInstructions: well-formed
with the absolute form, at addresses whose read completes and faults; LDX with its `zpy` form. -/
theorem witness_ReadsOperand :
    (∀ i ∈ readers (.abs 0x0010), i.wellFormed = true) ∧ (∀ i ∈ readers (.abs 0x4000), i.wellFormed = true) ∧
      Instr.wellFormed (.ldx (.zpy 0xFF)) = true ∧
      (∃ v s', operandRead (.abs 0x0010) State.reset = .ok (v, s')) ∧
      (∃ v s', operandRead (.zpy 0xFF) State.reset = .ok (v, s')) ∧
      (∃ v s', operandRead (.imm 0xFF) State.reset = .ok (v, s')) ∧
      (∃ f, operandRead (.abs 0x4000) State.reset = .error f) :=
  ⟨by decide, by decide, by decide, ok_of_reads (by decide), ok_of_reads (by decide), ok_of_reads (by decide),
    error_of_reads (by decide)⟩

/-- StoreInstructions: a store that completes and one that faults. -/
theorem witness_StoresRegister :
    (∀ i ∈ [Instr.sta (.abs 0x0010), .stx (.abs 0x0010), .sty (.abs 0x0010), .sta (.abs 0x5000), .stx (.abs 0x5000),
      .sty (.abs 0x5000)], i.wellFormed = true) ∧
      (∃ t, write8 0x0010 0xFF (State.reset.moved 3 4) = .ok t) ∧
      (∃ f, write8 0x5000 0xFF (State.reset.moved 3 4) = .error f) :=
  ⟨by decide, ok_of_writes (by decide), error_of_writes (by decide)⟩

/-- ModifyMemory: a byte of RAM; PPUSTATUS, whose read completes and whose write faults; and a read that faults. -/
theorem witness_ModifiesMemory :
    (∀ i ∈ [Instr.asl (.abs 0x2002), .lsr (.abs 0x2002), .rol (.abs 0x2002), .ror (.abs 0x2002), .inc (.abs 0x2002),
      .dec (.abs 0x2002), .inc (.absx 0xFFFF)], i.wellFormed = true) ∧
      effAddr (.abs 0x2002) State.reset = some 0x2002 ∧ (∃ v s', read8 0x2002 State.reset = .ok (v, s')) ∧
      (∃ f, write8 0x2002 0x01 State.reset = .error f) ∧ (∃ v s', read8 0x0010 State.reset = .ok (v, s')) ∧
      (∃ t, write8 0x0010 0x01 State.reset = .ok t) ∧ (∃ f, read8 0x4013 State.reset = .error f) :=
  ⟨by decide, by decide, ok_of_reads (by decide), error_of_writes (by decide), ok_of_reads (by decide),
    ok_of_writes (by decide), error_of_reads (by decide)⟩

/-- BranchInstructions: targets in the page of the next instruction and outside it. -/
theorem witness_BranchInstructions :
    hiByte (0x80F0 + 2) = hiByte (0x80F0 + 2 + (0x02 : Byte).signExtend 16) ∧
      hiByte (0x80F0 + 2) ≠ hiByte (0x80F0 + 2 + (0x20 : Byte).signExtend 16) := by decide

/-- JumpInstructions: both reads complete, the first faults, the second faults. -/
theorem witness_JumpInstructions :
    (∃ v s', read8 0x60FF State.reset = .ok (v, s')) ∧
      (∃ v s', read8 ((0x60FF &&& 0xFF00) ||| ((0x60FF + 1) &&& 0x00FF)) State.reset = .ok (v, s')) ∧
      (∃ f, read8 0x4013 State.reset = .error f) ∧
      read8 0x401F State.reset = .ok (0x00, State.reset) ∧
      (∃ f, read8 ((0x401F &&& 0xFF00) ||| ((0x401F + 1) &&& 0x00FF)) State.reset = .error f) :=
  ⟨ok_of_reads (by decide), ok_of_reads (by decide), error_of_reads (by decide), rfl, error_of_reads (by decide)⟩

/-- JumpToSubroutine, BreakInstruction, PushInstructions, the second part of ReturnFromSubroutine: RAM in canonical form, empty and not. -/
theorem witness_pushes :
    Cells.wf State.reset.ram = true ∧ Cells.wf (State.reset.load 0x01FF 0x12).ram = true ∧
      ∃ t, exec (.jsr 0xC100) State.reset = .next t :=
  ⟨by decide, by decide, next_of_regs (by decide +kernel)⟩

/-- ReturnFromSubroutine, ReturnFromInterrupt, PullInstructions: the slots above the stack pointer, at the top of the
page where it wraps. -/
theorem witness_pops :
    let s := (State.reset.setSp 0xFE).load 0x0100 0x12
    s.peek (stackAddr (s.cpu.sp + 1)) = some 0x00 ∧ s.peek (stackAddr (s.cpu.sp + 2)) = some 0x12 ∧
      s.peek (stackAddr (s.cpu.sp + 3)) = some 0x00 := by decide

/-- NoOperations: a form of each size. -/
theorem witness_NoOperations :
    Instr.wellFormed (.nopStar 0xFA .imp) = true ∧ Instr.wellFormed (.nopStar 0xE2 .imm) = true ∧
      Instr.wellFormed (.nopStar 0xFC (.absx 0x4000)) = true ∧ Instr.wellFormed (.und 0x02) = true := by decide

/-- OperandReadFrame: an address outside the ports, the ports 2 and 7, a controller port, and no address. -/
theorem witness_OperandReadFrame :
    (∃ v s', operandRead (.abs 0x0010) State.reset = .ok (v, s')) ∧ effAddr (.abs 0x0010) State.reset = some 0x0010 ∧
      ¬IsPort 2 0x0010 ∧ ¬IsPort 7 0x0010 ∧ IsPort 2 0x3FFA ∧ IsPort 7 0x2007 ∧
      (∃ v s', operandRead (.abs 0x2007) State.reset = .ok (v, s')) ∧
      (∃ v s', operandRead (.abs 0x4016) State.reset = .ok (v, s')) ∧ effAddr (.imm 0x10) State.reset = none ∧
      (∃ v s', operandRead (.imm 0x10) State.reset = .ok (v, s')) :=
  ⟨ok_of_reads (by decide), by decide, by unfold IsPort; decide, by unfold IsPort; decide, by unfold IsPort; decide,
    by unfold IsPort; decide, ok_of_reads (by decide), ok_of_reads (by decide), by decide, ok_of_reads (by decide)⟩

/-- StoreFrame: every instruction of the list, at an address of RAM, and the accumulator form. -/
theorem witness_StoreFrame :
    (∀ i ∈ [Instr.sta (.abs 0x0010), .stx (.abs 0x0010), .sty (.abs 0x0010), .asl (.abs 0x0010), .lsr (.abs 0x0010),
      .rol (.abs 0x0010), .ror (.abs 0x0010), .inc (.abs 0x0010), .dec (.abs 0x0010), .asl .acc, .lsr .acc, .rol .acc,
      .ror .acc], ∃ t, exec i State.reset = .next t) ∧
      effAddr (.abs 0x0010) State.reset = some 0x0010 ∧ (∀ r : Nat, ¬IsPort r 0x0010) ∧
      effAddr .acc State.reset = none := by
  refine ⟨?_, by decide, fun r h => absurd h.1 (by decide), by decide⟩
  intro i hi
  simp only [List.mem_cons, List.not_mem_nil, or_false] at hi
  rcases hi with rfl | rfl | rfl | rfl | rfl | rfl | rfl | rfl | rfl | rfl | rfl | rfl | rfl <;>
    exact next_of_regs (by decide +kernel)

/-- RamMirrors, CartridgeSpace: the ends of their ranges. -/
theorem witness_memories :
    Cells.wf State.reset.ram = true ∧ (0x0000 : Addr).toNat ≤ 0x1FFF ∧ (0x1FFF : Addr).toNat ≤ 0x1FFF ∧
      Cells.wf State.reset.cart.wram = true ∧ 0x6000 ≤ (0x6000 : Addr).toNat ∧ (0x7FFF : Addr).toNat ≤ 0x7FFF ∧
      0x8000 ≤ (0x8000 : Addr).toNat ∧ State.reset.cart.prgSize = .k16 ∧ (0xBFFF : Addr).toNat < 0xC000 ∧
      read8 0xBFFF State.reset = .ok (0x00, State.reset) :=
  ⟨by decide, by decide, by decide, by decide, by decide, by decide, by decide, rfl, by decide, rfl⟩

/-- ApuStubs, ProgrammerErrors: the ends of their ranges, and every port they name, at its first address and at a
mirror. -/
theorem witness_stubs :
    0x4000 ≤ (0x4000 : Addr).toNat ∧ (0x4013 : Addr).toNat ≤ 0x4013 ∧
      (0x4018 ≤ (0x4018 : Addr).toNat ∧ (0x401F : Addr).toNat ≤ 0x401F) ∧
      (0x4020 ≤ (0x4020 : Addr).toNat ∧ (0x5FFF : Addr).toNat ≤ 0x5FFF) ∧ IsPort 0 0x2000 ∧ IsPort 1 0x2001 ∧
      IsPort 3 0x2003 ∧ IsPort 5 0x2005 ∧ IsPort 6 0x3FFE ∧ IsPort 2 0x3FFA ∧ State.reset.accessMode = .strict := by
  unfold IsPort
  decide

/-- OamDma: OAM in canonical form, the pages at the ends of the ranges, and both access modes. -/
theorem witness_OamDma :
    Cells.wf State.reset.ppu.oam = true ∧ (0x1F : Byte).toNat ≤ 0x1F ∧ 0x60 ≤ (0x60 : Byte).toNat ∧
      0x41 ≤ (0x41 : Byte).toNat ∧ (0x5F : Byte).toNat ≤ 0x5F ∧ 0x20 ≤ (0x20 : Byte).toNat ∧
      (0x3F : Byte).toNat ≤ 0x3F ∧ State.reset.accessMode = .strict ∧
      ({ State.reset with accessMode := .lenient } : State).accessMode = .lenient := by decide

/-- ControllerPorts: the strobe on and off, a written value of either kind, and the last shift position. -/
theorem witness_ControllerPorts :
    (0xFF : Byte).getLsbD 0 = true ∧ (0xFE : Byte).getLsbD 0 = false ∧ State.reset.ctrl.strobe = false ∧
      ({ State.reset with ctrl := { Controllers.powerUp with strobe := true } } : State).ctrl.strobe = true ∧
      ({ Controllers.powerUp with index1 := 8, index2 := 8 } : Controllers).index1 ≤ 8 ∧
      ({ Controllers.powerUp with index1 := 8, index2 := 8 } : Controllers).index2 ≤ 8 := by decide

/-- PpuCtrlWrite, PpuMaskWrite, PpuStatusRead, OamPorts, PpuScrollWrites, PpuAddrWrites, PpuDataPort: the ports at
their first and last addresses, W in both states, and V at the two sides of the palette's start. -/
theorem witness_ports :
    (IsPort 0 0x2000 ∧ IsPort 0 0x3FF8 ∧ IsPort 1 0x3FF9 ∧ IsPort 2 0x3FFA ∧ IsPort 3 0x3FFB ∧ IsPort 4 0x3FFC ∧
      IsPort 5 0x3FFD ∧ IsPort 6 0x2006 ∧ IsPort 6 0x3FFE ∧ IsPort 7 0x3FFF) ∧
      Cells.wf State.reset.ppu.oam = true ∧ State.reset.ppu.w = false ∧ ({ Ppu.powerUp with w := true } : Ppu).w = true ∧
      ((0x3EFF : BitVec 15).extractLsb' 0 14).toNat < 0x3F00 ∧ 0x3F00 ≤ ((0x3F00 : BitVec 15).extractLsb' 0 14).toNat := by
  unfold IsPort
  decide

/-- PpuBus: the storages at reset, CHR RAM and CHR ROM, both mirrorings, and the ends of each range. -/
theorem witness_PpuBus :
    Cells.wf Ppu.powerUp.nt = true ∧ Cells.wf Ppu.powerUp.pal = true ∧ Cells.wf Cartridge.blank.chr = true ∧
      (0x1FFF : PpuAddr).toNat < 0x2000 ∧ Cartridge.blank.chrIsRam = true ∧
      ({ Cartridge.blank with chrIsRam := false } : Cartridge).chrIsRam = false ∧
      0x2000 ≤ (0x2000 : PpuAddr).toNat ∧ 0x3000 ≤ (0x3000 : PpuAddr).toNat ∧ (0x3EFF : PpuAddr).toNat < 0x3F00 ∧
      0x3F00 ≤ (0x3F00 : PpuAddr).toNat ∧ (0x3FDF : PpuAddr).toNat < 0x3FE0 ∧
      (0x3F1C : PpuAddr) ∈ [(0x3F10 : PpuAddr), 0x3F14, 0x3F18, 0x3F1C] ∧ Cartridge.blank.mirroring = .horizontal ∧
      (0x2BFF : PpuAddr).toNat / 0x400 % 2 = 0 ∧ ({ Cartridge.blank with mirroring := .vertical } : Cartridge).mirroring = .vertical ∧
      (0x27FF : PpuAddr).toNat < 0x2800 := by decide

/-- DotAdvance: the last dot of a line and of a frame. -/
theorem witness_DotAdvance :
    ({ Ppu.powerUp with cycle := 340, scanline := 261 } : Ppu).cycle ≤ 340 ∧
      ({ Ppu.powerUp with cycle := 340, scanline := 261 } : Ppu).scanline ≤ 261 := by decide

/-- VblankFlags: the two dots it is about, one beside them, the hit set and clear, and dots that draw nothing. -/
theorem witness_VblankFlags :
    let at' (s c : Nat) := Ppu.tick Cartridge.blank { Ppu.powerUp with scanline := s, cycle := c }
    ((at' 241 0).scanline = 241 ∧ (at' 241 0).cycle = 1) ∧ ((at' 261 0).scanline = 261 ∧ (at' 261 0).cycle = 1) ∧
      (¬((at' 241 1).scanline = 241 ∧ (at' 241 1).cycle = 1) ∧ ¬((at' 241 1).scanline = 261 ∧ (at' 241 1).cycle = 1)) ∧
      Ppu.powerUp.sprite0Hit = false ∧ ({ Ppu.powerUp with sprite0Hit := true } : Ppu).sprite0Hit = true ∧
      239 < (at' 240 5).scanline ∧ (at' 9 340).cycle = 0 ∧ 256 < (at' 9 256).cycle := by
  decide +kernel

/-- TickFrame: rendering off; line 240, dot 0 and dot 257. -/
theorem witness_TickFrame :
    let at' (s c : Nat) := Ppu.tick Cartridge.blank { Ppu.powerUp with scanline := s, cycle := c }
    Ppu.powerUp.showBg = false ∧ Ppu.powerUp.showSpr = false ∧ 239 < (at' 240 5).scanline ∧ (at' 10 340).cycle = 0 ∧
      256 < (at' 10 256).cycle := by decide +kernel

/-- PixelOutput: the first and the last pixel, and a dot of the left column that sets the hit. -/
theorem witness_PixelOutput :
    let p : Ppu := { Ppu.powerUp with
      scanline := 1, cycle := 0, showBg := true, showSpr := true, showLeftBg := true, showLeftSpr := true
      pipe := 0x1000000000000000 }
    Cells.wf Ppu.powerUp.framebuffer = true ∧ (Ppu.powerUp.scanline = 0 ∧ Ppu.powerUp.cycle = 0) ∧
      ({ Ppu.powerUp with scanline := 239, cycle := 255 } : Ppu).scanline = 239 ∧ p.sprite0Hit = false ∧
      (p.tick { Cartridge.blank with chr := [(0, 0x80)] }).sprite0Hit = true := by decide +kernel

/-- The dot that the tick after dot (s, c) processes, with the background on. -/
def dotAfter (s c : Nat) : Nat × Nat :=
  let q := Ppu.tick Cartridge.blank { Ppu.powerUp with scanline := s, cycle := c, showBg := true }
  (q.scanline, q.cycle)

/-- TileFetch: each micro-step, at the ends of the two fetch windows, on a visible and on the pre-render line. -/
theorem witness_TileFetch :
    ({ Ppu.powerUp with showBg := true } : Ppu).showBg = true ∧ dotAfter 0 0 = (0, 1) ∧ dotAfter 239 2 = (239, 3) ∧
      dotAfter 261 4 = (261, 5) ∧ dotAfter 261 326 = (261, 327) ∧ 1 % 8 = 1 ∧ 3 % 8 = 3 ∧ 5 % 8 = 5 ∧ 327 % 8 = 7 := by
  decide +kernel

/-- RenderDots: a shift, a store, the last copy dot, a dot without work, and a line without rendering. -/
theorem witness_RenderDots :
    Ppu.powerUp.atBits &&& 0xF3 = 0 ∧ dotAfter 0 320 = (0, 321) ∧ dotAfter 0 335 = (0, 336) ∧ 336 % 8 = 0 ∧
      dotAfter 261 279 = (261, 280) ∧ dotAfter 261 303 = (261, 304) ∧ dotAfter 0 257 = (0, 258) ∧
      dotAfter 240 0 = (240, 1) := by decide +kernel

/-- ScrollUpdates: the dots of the three updates, and V in each case of an increment. -/
theorem witness_ScrollUpdates :
    (dotAfter 0 7 = (0, 8) ∧ dotAfter 261 335 = (261, 336) ∧ dotAfter 239 255 = (239, 256) ∧ dotAfter 0 256 = (0, 257)) ∧
      (0x001F : BitVec 15).extractLsb' 0 5 = 31 ∧ (0x001E : BitVec 15).extractLsb' 0 5 ≠ 31 ∧
      (0x6000 : BitVec 15).extractLsb' 12 3 ≠ 7 ∧
      ((0x73A0 : BitVec 15).extractLsb' 12 3 = 7 ∧ (0x73A0 : BitVec 15).extractLsb' 5 5 = 29) ∧
      (0x73E0 : BitVec 15).extractLsb' 5 5 ≠ 29 := by decide +kernel

end Sys2Proof.Tests
end

section
/-! The CPU bus at internal RAM (R83) and at the APU stubs (R85): O39 and O41. -/

namespace Sys2Proof.Machine

/-! ### The decoder at the two ranges -/

/-- R83: the addresses that select one byte of RAM are those of RAM equal modulo 0x800. -/
theorem target_eq_ram_iff {b : Addr} {i : Nat} : target b = .ram i ↔ b.toNat ≤ 0x1FFF ∧ b.toNat % 0x800 = i := by
  constructor
  · intro h
    have hinv := target_inv b
    rw [h] at hinv
    exact ⟨hinv.1, hinv.2.symm⟩
  · rintro ⟨hb, rfl⟩
    exact target_of_le_1FFF hb

theorem target_eq_apu {a : Addr} (h : 0x4000 ≤ a.toNat) (h' : a.toNat ≤ 0x4013) : target a = .apu := by
  have h1 : ¬a.toNat ≤ 0x1FFF := by omega
  have h2 : ¬a.toNat ≤ 0x3FFF := by omega
  simp only [target, h1, h2, h', if_false, if_true]

/-! ### Reads after RAM has changed -/

/-- The result of a read with RAM of the state it carries replaced. -/
def withRam (m : Memory) : Except Fault (Byte × State) → Except Fault (Byte × State)
  | .ok (v, t) => .ok (v, t.setRam m)
  | .error f => .error (f.mapKept fun k => k.setRam m)

theorem progErrRead_setRam (r : FaultReason) (m : Memory) (s : State) :
    progErrRead r (s.setRam m) = withRam m (progErrRead r s) := by
  unfold progErrRead
  rw [State.setRam_accessMode]
  cases s.accessMode <;> rfl

theorem ppuRegRead_setRam (r : BitVec 3) (a : Addr) (m : Memory) (s : State) :
    ppuRegRead r a (s.setRam m) = withRam m (ppuRegRead r a s) := by
  unfold ppuRegRead
  split
  · rfl
  · rfl
  · rfl
  · exact progErrRead_setRam _ m s

theorem ctrlRead1_setRam (m : Memory) (s : State) :
    ctrlRead1 (s.setRam m) = ((ctrlRead1 s).1, (ctrlRead1 s).2.setRam m) := by
  unfold ctrlRead1
  rw [State.setRam_ctrl]
  split <;> rfl

theorem ctrlRead2_setRam (m : Memory) (s : State) :
    ctrlRead2 (s.setRam m) = ((ctrlRead2 s).1, (ctrlRead2 s).2.setRam m) := by
  unfold ctrlRead2
  rw [State.setRam_ctrl]
  split <;> rfl

/-- A read that selects no byte of RAM does not look at RAM. -/
theorem read8_setRam_of_ne_ram {b : Addr} (h : ∀ i : Nat, target b ≠ .ram i) (m : Memory) (s : State) :
    read8 b (s.setRam m) = withRam m (read8 b s) := by
  unfold read8
  cases hb : target b with
  | ram i => exact absurd hb (h i)
  | ppuPort r => exact ppuRegRead_setRam r b m s
  | oamDma => exact progErrRead_setRam _ m s
  | unmapped => exact progErrRead_setRam _ m s
  | ctrl1 => exact congrArg Except.ok (ctrlRead1_setRam m s)
  | ctrl2 => exact congrArg Except.ok (ctrlRead2_setRam m s)
  | apu | apuStatus | test | wram i | prg o => rfl

/-! ### A write of RAM -/

theorem write8_of_ram {a : Addr} {i : Nat} (h : target a = .ram i) (v : Byte) (s : State) :
    write8 a v s = .ok (s.setRam (Cells.write s.ram i v)) := by simp only [write8, h]

/-- R83: the byte written is read at every address that selects it. -/
theorem read8_write_ram_self {b : Addr} {i : Nat} (h : target b = .ram i) (v : Byte) {s : State}
    (hwf : Cells.wf s.ram = true) :
    read8 b (s.setRam (Cells.write s.ram i v)) = .ok (v, s.setRam (Cells.write s.ram i v)) :=
  read8_of_peek (peek_write_ram_self h v hwf)

/-- A read at every other address gives what it gave before the write. -/
theorem read8_write_ram_ne {b : Addr} {i : Nat} (h : target b ≠ .ram i) (v : Byte) (s : State) :
    read8 b (s.setRam (Cells.write s.ram i v)) = withRam (Cells.write s.ram i v) (read8 b s) := by
  by_cases hram : ∃ j, target b = .ram j
  · obtain ⟨j, hj⟩ := hram
    have hij : i ≠ j := fun e => h (e ▸ hj)
    rw [read8_of_ram hj, read8_of_ram hj, State.setRam_ram, Cells.read_write_ne s.ram v hij]
    rfl
  · exact read8_setRam_of_ne_ram (not_exists.1 hram) _ s

/-! ### The obligations -/

/-- Settles O39: RAM is selected by the index modulo 0x800, so a write reaches the addresses of one byte, and a read
elsewhere does not look at that byte. -/
theorem ramMirrors : Obligations.RamMirrors := by
  unfold Obligations.RamMirrors
  intro a v s hwf ha
  have hta : target a = .ram (a.toNat % 0x800) := target_of_le_1FFF ha
  refine ⟨⟨Cells.read s.ram (a.toNat % 0x800), fun b hb hba => read8_of_ram (target_eq_ram_iff.2 ⟨hb, hba⟩) s⟩,
    _, write8_of_ram hta v s, rfl, fun b => ?_⟩
  split
  next hb => exact read8_write_ram_self (target_eq_ram_iff.2 hb) v hwf
  next hb =>
    rw [read8_write_ram_ne (mt target_eq_ram_iff.1 hb)]
    cases read8 b s <;> rfl

/-- Settles O41: the decoder selects the APU stubs, where a read stops and a write is dropped in either mode. -/
theorem apuStubs : Obligations.ApuStubs := by
  unfold Obligations.ApuStubs
  intro a v s h h'
  have hta : target a = .apu := target_eq_apu h h'
  constructor
  · simp only [read8, hta, State.stop]
  · simp only [write8, hta]

end Sys2Proof.Machine
end

section
/-! Arithmetic, compare and bit test (R200, R201, R205 to R210): O21, O22 and O24. -/

namespace Sys2Proof.Machine

/-! ### What the instructions that read their operand share (R158, R160, R412) -/

/-- The instructions that read an operand, each with the operand form `m` (R170 to R172, R200 to R208). -/
def operandReaders (m : Operand) : List Instr :=
  [.lda m, .ldx m, .ldy m, .adc m, .sbc m, .and m, .ora m, .eor m, .cmp m, .cpx m, .cpy m, .bit m]

/-- None of them has a row with the accumulator or with JMP's indirect form. -/
theorem isRead_or_zpy_of_wellFormed {m : Operand} {i : Instr} (hi : i ∈ operandReaders m)
    (hwf : i.wellFormed = true) : m.isRead = true ∨ ∃ o, m = .zpy o := by
  have not_all_illFormed : (operandReaders m).all (fun j => !j.wellFormed) ≠ true := by
    intro h
    simpa [hwf] using List.all_eq_true.1 h i hi
  cases m with
  | acc | ind w => exact absurd rfl not_all_illFormed
  | zpy o => exact .inr ⟨o, rfl⟩
  | _ => exact .inl rfl

/-- R148: the base cycles of a row and its page penalty are the cost the "Encoding" lines give the form. The table is
checked row by row, with and without a page crossing. -/
theorem entry_readCost {m : Operand} {i : Instr} {e : Entry} (hi : i ∈ operandReaders m) (s : State)
    (he : i.entry = some e) : e.cycles + (if pageCrossed m s then e.penalty else 0) = readCost m s := by
  simp only [operandReaders, List.mem_cons, List.not_mem_nil, or_false] at hi
  rcases hi with rfl | rfl | rfl | rfl | rfl | rfl | rfl | rfl | rfl | rfl | rfl | rfl <;> cases m <;> cases he <;>
    simp only [readCost] <;> split <;> rfl

/-- R411: an operand whose read faults leaves the state it was read in, with the fault recorded. -/
theorem operandRead_error {m : Operand} {s : State} {f : Fault} (h : operandRead m s = .error f) :
    ∃ r, f = s.stop r := by
  cases m with
  | imm | acc | ind => cases h
  | _ => exact read8_error h

/-- An instruction that is `executeRead` of its row has the shape of a reader, when its action on a state whose PC has
moved and whose cost is charged gives the CPU `after v` with that PC and that cycle counter. -/
theorem readsOperand_of_executeRead {m : Operand} {i : Instr} {s : State} {f : Byte → State → State}
    {after : Byte → Cpu} (hi : i ∈ operandReaders m) (hexec : exec i s = executeRead i.entry m f s)
    (hf : ∀ (v : Byte) (t : State) (size cost : Nat),
      f v { t with cpu := (s.moved size cost).cpu } =
        { t with cpu := { after v with pc := (s.moved size cost).cpu.pc, cycles := (s.moved size cost).cpu.cycles } }) :
    ReadsOperand i m s after := by
  intro hwf
  obtain ⟨e, he⟩ := Instr.entry_of_wellFormed hwf
  rw [hexec, he, ← entry_readCost hi s he]
  constructor
  · intro v s' hread
    rw [executeRead_ok (isRead_or_zpy_of_wellFormed hi hwf) hread, hf]
    rfl
  · intro r hread
    rw [executeRead_error hread]
    obtain ⟨reason, rfl⟩ := operandRead_error hread
    rfl

/-! ### The flags of a sum (R200, R210) -/

theorem Byte.getLsbD_seven (v : Byte) : v.getLsbD 7 = decide (128 ≤ v.toNat) :=
  (BitVec.msb_eq_getLsbD_last v).symm.trans (BitVec.msb_eq_decide v)

/-- R200: V is set when the operands agree in bit 7 and the result does not. -/
theorem addOverflow_eq_decide_signs (a m : Byte) (c : Bool) :
    addOverflow a m c =
      decide (a.getLsbD 7 = m.getLsbD 7 ∧ a.getLsbD 7 ≠ (addResult a m c).getLsbD 7) := by
  simp only [addOverflow, BitVec.getLsbD_xor]
  cases a.getLsbD 7 <;> cases m.getLsbD 7 <;> cases (addResult a m c).getLsbD 7 <;> rfl

theorem toNat_addResult (a m : Byte) (c : Bool) : (addResult a m c).toNat = addSum a m c % 256 :=
  BitVec.toNat_ofNat _ 8

/-- R210: V is set when the signed sum does not fit in a byte. -/
theorem addOverflow_eq_decide_toInt (a m : Byte) (c : Bool) :
    addOverflow a m c = decide (a.toInt + m.toInt + c.toNat < -128 ∨ 127 < a.toInt + m.toInt + c.toNat) := by
  have hc := c.toNat_le
  simp only [addOverflow_eq_decide_signs, Byte.getLsbD_seven, toNat_addResult, addSum, BitVec.toInt_eq_toNat_cond,
    decide_eq_decide, ne_eq]
  omega

/-- R200: the flags of ADC, written out. -/
theorem Status.afterAdd_eq (p : Status) (a m : Byte) :
    p.afterAdd a m =
      Status.withZS
        { p with
          c := decide (255 < addSum a m p.c)
          v := decide (a.getLsbD 7 = m.getLsbD 7 ∧ a.getLsbD 7 ≠ (addResult a m p.c).getLsbD 7) }
        (addResult a m p.c) := by
  rw [Status.afterAdd, addOverflow_eq_decide_signs]
  rfl

/-! ### The sum with the complement of the operand (R201) -/

theorem toNat_complement (m : Byte) : (m ^^^ 0xFF).toNat = 255 - m.toNat :=
  (congrArg BitVec.toNat BitVec.xor_allOnes).trans BitVec.toNat_not

/-- R201: adding the complement and the carry is subtracting the operand and the borrow, 256 higher. -/
theorem addSum_complement (a m : Byte) (c : Bool) :
    addSum a (m ^^^ 0xFF) c + m.toNat + (1 - c.toNat) = a.toNat + 256 := by
  have hc := c.toNat_le
  rw [addSum, toNat_complement]
  omega

theorem addResult_complement (a m : Byte) (c : Bool) :
    addResult a (m ^^^ 0xFF) c = a - m - BitVec.ofNat 8 (1 - c.toNat) := by
  have hsum := addSum_complement a m c
  apply BitVec.eq_of_toNat_eq
  simp only [toNat_addResult, BitVec.toNat_sub, BitVec.toNat_ofNat]
  omega

/-- R201: C is set when no borrow is needed. -/
theorem addCarry_complement (a m : Byte) (c : Bool) :
    addCarry a (m ^^^ 0xFF) c = decide (m.toNat + (1 - c.toNat) ≤ a.toNat) := by
  have hsum := addSum_complement a m c
  rw [addCarry, decide_eq_decide]
  omega

theorem toInt_complement (m : Byte) : (m ^^^ 0xFF).toInt = -m.toInt - 1 := by
  simp only [BitVec.toInt_eq_toNat_cond, toNat_complement]
  omega

/-- R210: V is set when the signed difference does not fit in a byte. -/
theorem addOverflow_complement (a m : Byte) (c : Bool) :
    addOverflow a (m ^^^ 0xFF) c =
      decide (a.toInt - m.toInt - (1 - c.toNat : Nat) < -128 ∨ 127 < a.toInt - m.toInt - (1 - c.toNat : Nat)) := by
  have hc := c.toNat_le
  rw [addOverflow_eq_decide_toInt, toInt_complement, decide_eq_decide]
  omega

/-- R201: the flags of SBC, written out. -/
theorem Status.afterAdd_complement (p : Status) (a m : Byte) :
    p.afterAdd a (m ^^^ 0xFF) =
      Status.withZS
        { p with
          c := decide (m.toNat + (1 - p.c.toNat) ≤ a.toNat)
          v := decide (a.toInt - m.toInt - (1 - p.c.toNat : Nat) < -128 ∨
            127 < a.toInt - m.toInt - (1 - p.c.toNat : Nat)) }
        (a - m - BitVec.ofNat 8 (1 - p.c.toNat)) := by
  rw [Status.afterAdd, addCarry_complement, addOverflow_complement, addResult_complement, Status.setZS_eq]

/-! ### The obligations -/

/-- Settles O21: V's formula is the statement's condition on the signs; the rest is the action of ADC. -/
theorem addWithCarry : Obligations.AddWithCarry := by
  unfold Obligations.AddWithCarry
  intro m s
  refine readsOperand_of_executeRead (by simp [operandReaders]) (exec_adc m s) fun v t size cost => ?_
  rw [State.addA, moved_cpu, Status.afterAdd_eq]
  rfl

/-- Settles O22: the complement turns the sum of R200 into the difference, its carry into the absence of a borrow, and
its overflow into that of the signed difference. -/
theorem subtractWithBorrow : Obligations.SubtractWithBorrow := by
  unfold Obligations.SubtractWithBorrow
  intro m s
  refine readsOperand_of_executeRead (by simp [operandReaders]) (exec_sbc m s) fun v t size cost => ?_
  rw [State.addA, moved_cpu, Status.afterAdd_complement, addResult_complement]
  rfl

/-- Settles O24: each of the four is a reader whose action writes P alone. -/
theorem compareInstructions : Obligations.CompareInstructions := by
  unfold Obligations.CompareInstructions
  intro m s
  refine ⟨?cmp, ?cpx, ?cpy, ?bit⟩
  case cmp => exact readsOperand_of_executeRead (by simp [operandReaders]) (exec_cmp m s) fun _ _ _ _ => rfl
  case cpx => exact readsOperand_of_executeRead (by simp [operandReaders]) (exec_cpx m s) fun _ _ _ _ => rfl
  case cpy => exact readsOperand_of_executeRead (by simp [operandReaders]) (exec_cpy m s) fun _ _ _ _ => rfl
  case bit => exact readsOperand_of_executeRead (by simp [operandReaders]) (exec_bit m s) fun _ _ _ _ => rfl

end Sys2Proof.Machine
end

section
/-! Subroutine calls and returns (R271, R272, with R99 for the two slots): O29 and O30. -/

namespace Sys2Proof.Machine

/-- R160, R133: an implied instruction of the table acts with PC past it and its cycles charged. -/
theorem executeImplied_some (e : Entry) (size : Nat) (action : State → Except Fault State) (s : State) :
    executeImplied (some e) size action s = answer (action (s.moved size e.cycles)) := rfl

/-- R271: PC is past the three bytes when JSR pushes PC - 1, so the word pushed is the address of its last byte. -/
theorem exec_jsr_of_push16 {w : Addr} {s t : State} (h : push16 (s.cpu.pc + 2) (s.moved 3 6) = .ok t) :
    exec (.jsr w) s = .next (t.setPc w) := by
  have hret : (s.moved 3 6).cpu.pc - 1 = s.cpu.pc + 2 := by
    rw [moved_cpu]
    bv_omega
  rw [exec_jsr, Instr.entry, executeImplied_some, hret, h]
  rfl

/-- R272: RTS goes to the word it pops plus 1. -/
theorem exec_rts_of_pop16 {s t : State} {w : Addr} (h : pop16 (s.moved 1 6) = .ok (w, t)) :
    exec .rts s = .next (t.setPc (w + 1)) := by
  rw [exec_rts, Instr.entry, executeImplied_some, h]
  rfl

/-- R272: RTS whole, by the bytes of the two slots above SP. -/
theorem exec_rts_of_peek {s : State} {lo hi : Byte} (hlo : s.peek (stackAddr (s.cpu.sp + 1)) = some lo)
    (hhi : s.peek (stackAddr (s.cpu.sp + 2)) = some hi) :
    exec .rts s =
      .next { s with cpu :=
        { s.cpu with pc := leWord lo hi + 1, sp := s.cpu.sp + 2, cycles := s.cpu.cycles + 6 } } :=
  exec_rts_of_pop16 (pop16_of_peek (s := s.moved 1 6) hlo hhi)

/-- Settles O29: JSR is a two-byte push of PC + 2 from the state that has moved past it, which has the stack and the
memory of the state before, and then a jump. -/
theorem jumpToSubroutine : Obligations.JumpToSubroutine := by
  unfold Obligations.JumpToSubroutine
  intro w s hwf
  obtain ⟨t, hpush, ht, -, hhi, hlo, hframe⟩ := push16_spec (s.cpu.pc + 2) (s.moved 3 6) hwf
  refine ⟨t.setPc w, exec_jsr_of_push16 hpush, ?_, hhi, hlo, hframe⟩
  rw [ht]
  rfl

/-- Settles O30: RTS reads the two slots above SP; after a JSR these are the two that JSR pushed, and their word plus 1
is the address behind the JSR. -/
theorem returnFromSubroutine : Obligations.ReturnFromSubroutine := by
  unfold Obligations.ReturnFromSubroutine
  refine ⟨fun s lo hi hlo hhi => exec_rts_of_peek hlo hhi, ?_⟩
  intro w s t hwf hjsr
  obtain ⟨t', hjsr', ht, hhi, hlo, -⟩ := jumpToSubroutine w s hwf
  obtain rfl : t = t' := Host.Outcome.next.inj (hjsr.symm.trans hjsr')
  have hcpu : t.cpu = { s.cpu with pc := w, sp := s.cpu.sp - 2, cycles := s.cpu.cycles + 6 } := congrArg State.cpu ht
  have hsp1 : t.cpu.sp + 1 = s.cpu.sp - 1 := by
    rw [hcpu]
    bv_omega
  have hsp2 : t.cpu.sp + 2 = s.cpu.sp := by
    rw [hcpu]
    exact BitVec.sub_add_cancel _ _
  have hpc : leWord (loByte (s.cpu.pc + 2)) (hiByte (s.cpu.pc + 2)) + 1 = s.cpu.pc + 3 := by
    rw [leWord_bytes]
    exact BitVec.add_assoc _ _ _
  rw [← hsp1] at hlo
  rw [← hsp2] at hhi
  refine ⟨_, exec_rts_of_peek hlo hhi, hpc, hsp2, ?_⟩
  rw [hsp2, hcpu]

end Sys2Proof.Machine
end

section
/-! The pair of PPUADDR writes (R331, R332): O50. -/

namespace Sys2Proof.Machine

/-- R331: the first byte's low six bits are T's bits 13 to 8, and bit 14 is 0. -/
theorem addrHigh_eq_append (t : BitVec 15) (hi : Byte) :
    (t &&& 0x00FF#15) ||| ((hi &&& 0x3F).setWidth 15 <<< 8) = 0#1 ++ hi.extractLsb' 0 6 ++ t.extractLsb' 0 8 := by
  refine BitVec.eq_of_getLsbD_eq fun i hlt => ?_
  interval_cases i <;> simp [↓BitVec.getLsbD_append]

/-- R332: the second byte is T's low byte. -/
theorem addrLow_eq_append (t : BitVec 15) (lo : Byte) :
    (t &&& 0x7F00#15) ||| lo.setWidth 15 = t.extractLsb' 8 7 ++ lo := by
  refine BitVec.eq_of_getLsbD_eq fun i hlt => ?_
  interval_cases i <;> simp [↓BitVec.getLsbD_append]

theorem Ppu.writeAddr_first {p : Ppu} (hw : p.w = false) (hi : Byte) :
    p.writeAddr hi = { p with t := 0#1 ++ hi.extractLsb' 0 6 ++ p.t.extractLsb' 0 8, w := true } := by
  rw [← addrHigh_eq_append, Ppu.writeAddr, if_pos hw]

theorem Ppu.writeAddr_second {p : Ppu} (hw : p.w = true) (lo : Byte) :
    p.writeAddr lo = { p with t := p.t.extractLsb' 8 7 ++ lo, v := p.t.extractLsb' 8 7 ++ lo, w := false } := by
  rw [← addrLow_eq_append, Ppu.writeAddr, if_neg (by simp [hw])]

/-- R332: after the pair, V and T hold the 14-bit address of the two bytes. -/
theorem Ppu.writeAddr_pair {p : Ppu} (hw : p.w = false) (hi lo : Byte) :
    (p.writeAddr hi).writeAddr lo =
      { p with t := 0#1 ++ hi.extractLsb' 0 6 ++ lo, v := 0#1 ++ hi.extractLsb' 0 6 ++ lo, w := false } := by
  have hhigh : (0#1 ++ hi.extractLsb' 0 6 ++ p.t.extractLsb' 0 8).extractLsb' 8 7 = 0#1 ++ hi.extractLsb' 0 6 :=
    BitVec.extractLsb'_append_eq_left
  rw [Ppu.writeAddr_first hw, Ppu.writeAddr_second rfl]
  simp only [hhigh]

theorem write8_of_port_six {a : Addr} (h : IsPort 6 a) (v : Byte) (s : State) :
    write8 a v s = .ok (s.setPpu (s.ppu.writeAddr v)) := by
  simp only [write8, target_of_isPort h]
  rfl

/-- Settles O50: port 6 is `writeAddr`, whose two masks are T's fields; the second write keeps the high bits that the
first has set. -/
theorem ppuAddrWrites : Obligations.PpuAddrWrites := by
  unfold Obligations.PpuAddrWrites
  intro a b hi lo s ha hb
  refine ⟨fun hw => ?first, fun hw => ?second, fun hw => ⟨_, write8_of_port_six ha hi s, ?pair⟩⟩
  case first => rw [write8_of_port_six ha, Ppu.writeAddr_first hw]; rfl
  case second => rw [write8_of_port_six ha, Ppu.writeAddr_second hw]; rfl
  case pair =>
    rw [write8_of_port_six hb, State.setPpu_ppu, Ppu.writeAddr_pair hw]
    rfl

end Sys2Proof.Machine
end

section
/-! The render stage of a tick: the tile fetch (R347 to R350) and the scroll updates (R352 to R354): O58 and O60. -/

namespace Sys2Proof.Machine

/-! ### The addresses and the palette bits of a tile (R347 to R350) -/

/-- R347: the low twelve bits of V, in the first nametable. -/
theorem nametableAddr_eq_append (v : BitVec 15) :
    0x2000#14 ||| (v &&& 0x0FFF).setWidth 14 = 0b10#2 ++ v.extractLsb' 0 12 := by
  refine BitVec.eq_of_getLsbD_eq fun i hlt => ?_
  interval_cases i <;> simp [↓BitVec.getLsbD_append]

theorem attrAddr_eq_append (v : BitVec 15) :
    attrAddr v = 0b10#2 ++ v.extractLsb' 10 2 ++ 0b1111#4 ++ v.extractLsb' 7 3 ++ v.extractLsb' 2 3 := by
  unfold attrAddr
  refine BitVec.eq_of_getLsbD_eq fun i hlt => ?_
  interval_cases i <;> simp [↓BitVec.getLsbD_append]

/-- R348: bit 1 of coarse Y and bit 1 of coarse X select the two bits of the byte. -/
theorem attrShift_eq (v : BitVec 15) :
    (((v >>> 4) &&& 4) ||| (v &&& 2)).toNat = 4 * (v.getLsbD 6).toNat + 2 * (v.getLsbD 1).toNat := by
  have hbits : ((v >>> 4) &&& 4) ||| (v &&& 2) =
      0#12 ++ BitVec.ofBool (v.getLsbD 6) ++ BitVec.ofBool (v.getLsbD 1) ++ 0#1 := by
    refine BitVec.eq_of_getLsbD_eq fun i hlt => ?_
    interval_cases i <;> simp [↓BitVec.getLsbD_append]
  rw [hbits]
  cases v.getLsbD 6 <;> cases v.getLsbD 1 <;> rfl

theorem attrBits_eq_append (v : BitVec 15) (at8 : Byte) :
    attrBits v at8 = 0#4 ++ at8.extractLsb' (4 * (v.getLsbD 6).toNat + 2 * (v.getLsbD 1).toNat) 2 ++ 0#2 := by
  rw [attrBits, attrShift_eq]
  refine BitVec.eq_of_getLsbD_eq fun i hlt => ?_
  interval_cases i <;> simp [↓BitVec.getLsbD_append]

/-- An append as a sum: its parts are the digits of the number. -/
theorem toNat_append_eq_add {m n : Nat} (x : BitVec m) (y : BitVec n) :
    (x ++ y).toNat = x.toNat * 2 ^ n + y.toNat := by
  rw [BitVec.toNat_append, ← Nat.shiftLeft_add_eq_or_of_lt y.isLt, Nat.shiftLeft_eq]

/-- R349: 16 bytes for each tile of the table that PPUCTRL selects, the row by fine Y. -/
theorem Ppu.toNat_tileAddr (p : Ppu) :
    p.tileAddr.toNat = 0x1000 * p.bgTable.toNat + 16 * p.ntByte.toNat + (p.v.extractLsb' 12 3).toNat := by
  have hnt := p.ntByte.isLt
  unfold Ppu.tileAddr
  cases p.bgTable <;> simp <;> omega

/-- R349, R350: a pattern address as a number, by the table, the tile, the plane and the row. -/
theorem toNat_patternAddr (table plane : BitVec 1) (tile : Byte) (row : BitVec 3) :
    (0#1 ++ table ++ tile ++ plane ++ row).toNat =
      0x1000 * table.toNat + 16 * tile.toNat + 8 * plane.toNat + row.toNat := by
  rw [toNat_append_eq_add, toNat_append_eq_add, toNat_append_eq_add, toNat_append_eq_add]
  bv_omega

theorem Ppu.tileAddr_eq_append (p : Ppu) :
    p.tileAddr = 0#1 ++ BitVec.ofBool p.bgTable ++ p.ntByte ++ 0#1 ++ p.v.extractLsb' 12 3 := by
  apply BitVec.eq_of_toNat_eq
  rw [Ppu.toNat_tileAddr, toNat_patternAddr, BitVec.toNat_ofBool]
  rfl

/-- R350: the second plane lies 8 bytes behind the first. -/
theorem Ppu.tileAddr_add_eight (p : Ppu) :
    p.tileAddr + 8 = 0#1 ++ BitVec.ofBool p.bgTable ++ p.ntByte ++ 1#1 ++ p.v.extractLsb' 12 3 := by
  have htable := p.bgTable.toNat_le
  apply BitVec.eq_of_toNat_eq
  rw [BitVec.toNat_add, Ppu.toNat_tileAddr, toNat_patternAddr, BitVec.toNat_ofBool]
  bv_omega

/-! ### V's updates by its fields (R352 to R354) -/

theorem coarseX_eq_iff (v : BitVec 15) : v &&& 0x001F = 31 ↔ v.extractLsb' 0 5 = 31 := by
  have hmask : v &&& 0x001F = (v.extractLsb' 0 5).setWidth 15 := by
    refine BitVec.eq_of_getLsbD_eq fun i hlt => ?_
    interval_cases i <;> simp
  rw [hmask]
  bv_omega

/-- R352: coarse X counts, and at 31 it wraps and toggles the horizontal nametable bit. -/
theorem incX_eq (v : BitVec 15) :
    incX v =
      if v.extractLsb' 0 5 = 31 then v.extractLsb' 11 4 ++ ~~~v.extractLsb' 10 1 ++ v.extractLsb' 5 5 ++ 0#5
      else v.extractLsb' 5 10 ++ (v.extractLsb' 0 5 + 1) := by
  simp only [incX, coarseX_eq_iff]
  split
  next =>
    refine BitVec.eq_of_getLsbD_eq fun i hlt => ?_
    interval_cases i <;> simp [↓BitVec.getLsbD_append]
  next h =>
    have hv : v.toNat = (v.extractLsb' 5 10).toNat * 32 + (v.extractLsb' 0 5).toNat := by
      simp only [BitVec.extractLsb'_toNat]
      omega
    apply BitVec.eq_of_toNat_eq
    rw [toNat_append_eq_add]
    bv_omega

theorem fineY_eq_iff (v : BitVec 15) : v &&& 0x7000 = 0x7000 ↔ v.extractLsb' 12 3 = 7 := by
  have hmask : v &&& 0x7000 = (v.extractLsb' 12 3) ++ 0#12 := by
    refine BitVec.eq_of_getLsbD_eq fun i hlt => ?_
    interval_cases i <;> simp [↓BitVec.getLsbD_append]
  rw [hmask, ← BitVec.toNat_inj, ← BitVec.toNat_inj]
  rw [toNat_append_eq_add]
  bv_omega

/-- R353: fine Y cleared and coarse Y replaced. -/
theorem setCoarseY_eq_append (v : BitVec 15) (y : BitVec 5) :
    (v &&& ~~~0x7000#15 &&& ~~~0x03E0#15) ||| (y.setWidth 15 <<< 5) =
      0#3 ++ v.extractLsb' 10 2 ++ y ++ v.extractLsb' 0 5 := by
  refine BitVec.eq_of_getLsbD_eq fun i hlt => ?_
  interval_cases i <;> simp [↓BitVec.getLsbD_append]

theorem coarseY_eq_setWidth (v : BitVec 15) :
    ((v &&& ~~~0x7000#15) >>> 5) &&& 31 = (v.extractLsb' 5 5).setWidth 15 := by
  refine BitVec.eq_of_getLsbD_eq fun i hlt => ?_
  interval_cases i <;> simp

/-- R353: the Y increment when fine Y wraps: coarse Y counts, from 29 to 0 into the other nametable. -/
theorem incY_of_fineY_eq {v : BitVec 15} (h : v.extractLsb' 12 3 = 7) :
    incY v =
      if v.extractLsb' 5 5 = 29 then 0#3 ++ ~~~v.extractLsb' 11 1 ++ v.extractLsb' 10 1 ++ 0#5 ++ v.extractLsb' 0 5
      else 0#3 ++ v.extractLsb' 10 2 ++ (v.extractLsb' 5 5 + 1) ++ v.extractLsb' 0 5 := by
  rw [incY, if_neg (not_not.2 ((fineY_eq_iff v).2 h))]
  simp only [coarseY_eq_setWidth]
  by_cases h29 : v.extractLsb' 5 5 = 29
  · rw [if_pos h29, h29]
    refine BitVec.eq_of_getLsbD_eq fun i hlt => ?_
    interval_cases i <;> simp [↓BitVec.getLsbD_append]
  · have hne29 : (v.extractLsb' 5 5).setWidth 15 ≠ 29 := by bv_omega
    have hcount : (if (v.extractLsb' 5 5).setWidth 15 = 29 ∨ (v.extractLsb' 5 5).setWidth 15 = 31 then 0#15
        else (v.extractLsb' 5 5).setWidth 15 + 1) = (v.extractLsb' 5 5 + 1).setWidth 15 := by
      split <;> bv_omega
    rw [if_neg h29, if_neg hne29, hcount, setCoarseY_eq_append]

/-- R353: fine Y counts, and coarse Y when fine Y wraps. -/
theorem incY_eq (v : BitVec 15) :
    incY v =
      if v.extractLsb' 12 3 ≠ 7 then (v.extractLsb' 12 3 + 1) ++ v.extractLsb' 0 12
      else if v.extractLsb' 5 5 = 29 then 0#3 ++ ~~~v.extractLsb' 11 1 ++ v.extractLsb' 10 1 ++ 0#5 ++ v.extractLsb' 0 5
      else 0#3 ++ v.extractLsb' 10 2 ++ (v.extractLsb' 5 5 + 1) ++ v.extractLsb' 0 5 := by
  split
  next h =>
    rw [incY, if_pos (mt (fineY_eq_iff v).1 h)]
    have hv : v.toNat = (v.extractLsb' 12 3).toNat * 4096 + (v.extractLsb' 0 12).toNat := by
      simp only [BitVec.extractLsb'_toNat]
      omega
    apply BitVec.eq_of_toNat_eq
    rw [toNat_append_eq_add]
    bv_omega
  next h => exact incY_of_fineY_eq (not_not.1 h)

/-- R354: coarse X and the horizontal nametable bit come from T. -/
theorem copyX_eq_append (v t : BitVec 15) :
    copyX v t = v.extractLsb' 11 4 ++ t.extractLsb' 10 1 ++ v.extractLsb' 5 5 ++ t.extractLsb' 0 5 := by
  unfold copyX
  refine BitVec.eq_of_getLsbD_eq fun i hlt => ?_
  interval_cases i <;> simp [↓BitVec.getLsbD_append]

/-! ### The render stage of a tick (R341 to R343) -/

/-- `p` with the dot counters, the flags, the NMI delay and the pixels of `q`: all that a tick changes beside its render
stage. -/
def Ppu.withDotOf (p q : Ppu) : Ppu :=
  { p with
    sprite0Hit := q.sprite0Hit, vblank := q.vblank, cycle := q.cycle, scanline := q.scanline, frame := q.frame
    nmiDelay := q.nmiDelay, framebuffer := q.framebuffer }

theorem Ppu.pixelStage_eq_withDotOf (cart : Cartridge) (s c : Nat) (p : Ppu) :
    Ppu.pixelStage cart s c p = p.withDotOf (Ppu.pixelStage cart s c p) := by
  obtain ⟨hit, fb, h, -⟩ := Ppu.pixelStage_eq cart s c p
  rw [h]
  rfl

theorem Ppu.vblankStage_eq_withDotOf (s c : Nat) (p : Ppu) :
    Ppu.vblankStage s c p = p.withDotOf (Ppu.vblankStage s c p) := by
  rw [Ppu.vblankStage_eq]
  rfl

theorem Ppu.countNmi_advanceDot_eq_withDotOf (p : Ppu) : p.countNmi.advanceDot = p.withDotOf p.countNmi.advanceDot := by
  rw [Ppu.advanceDot_eq]
  rfl

theorem Ppu.fetchStep_withDotOf (cart : Cartridge) (k : Nat) (p q : Ppu) :
    Ppu.fetchStep cart k (p.withDotOf q) = (Ppu.fetchStep cart k p).withDotOf q := by
  unfold Ppu.fetchStep
  split <;> rfl

theorem Ppu.fetchStage_withDotOf (cart : Cartridge) (c : Nat) (p q : Ppu) :
    Ppu.fetchStage cart c (p.withDotOf q) = (Ppu.fetchStage cart c p).withDotOf q := by
  unfold Ppu.fetchStage
  split
  · exact Ppu.fetchStep_withDotOf cart (c % 8) { p with pipe := p.pipe <<< 4 } q
  · rfl

/-- The render stage looks at no counter, flag or pixel. -/
theorem Ppu.renderStage_withDotOf (cart : Cartridge) (s c : Nat) (p q : Ppu) :
    Ppu.renderStage cart s c (p.withDotOf q) = (Ppu.renderStage cart s c p).withDotOf q := by
  have hon : (p.withDotOf q).rendering = p.rendering := rfl
  unfold Ppu.renderStage
  rw [hon, Ppu.fetchStage_withDotOf]
  cases p.rendering && renderLine s <;> rfl

theorem Ppu.tick_dot (cart : Cartridge) (p : Ppu) :
    (p.tick cart).scanline = p.countNmi.advanceDot.scanline ∧ (p.tick cart).cycle = p.countNmi.advanceDot.cycle := by
  obtain ⟨v, nt, ab, lo, hi, pipe, hit, fb, h, -⟩ := Ppu.tick_eq cart p
  rw [h, Ppu.advanceDot_eq, Ppu.advanceDot_eq]
  exact ⟨rfl, rfl⟩

/-- R341, R343: a tick leaves V, the pipeline and the latches as the render stage of its dot does, from where they stood
before the tick. -/
theorem Ppu.tick_eq_renderStage (cart : Cartridge) (p : Ppu) :
    p.tick cart =
      (Ppu.renderStage cart (p.tick cart).scanline (p.tick cart).cycle p).withDotOf (p.tick cart) := by
  obtain ⟨hs, hc⟩ := Ppu.tick_dot cart p
  rw [hs, hc]
  set d := p.countNmi.advanceDot with hd
  have hpixel : Ppu.pixelStage cart d.scanline d.cycle d =
      p.withDotOf (Ppu.pixelStage cart d.scanline d.cycle d) := by
    rw [Ppu.pixelStage_eq_withDotOf, hd, Ppu.countNmi_advanceDot_eq_withDotOf]
    rfl
  have htick : p.tick cart = Ppu.vblankStage d.scanline d.cycle
      (Ppu.renderStage cart d.scanline d.cycle (Ppu.pixelStage cart d.scanline d.cycle d)) := rfl
  rw [htick, Ppu.vblankStage_eq_withDotOf, hpixel, Ppu.renderStage_withDotOf]
  rfl

/-- R346 to R351: the fetch engine moves neither T nor V. -/
theorem Ppu.fetchStage_keeps (cart : Cartridge) (c : Nat) (p : Ppu) :
    (Ppu.fetchStage cart c p).t = p.t ∧ (Ppu.fetchStage cart c p).v = p.v := by
  unfold Ppu.fetchStage
  split
  · obtain ⟨nt, ab, lo, hi, pipe, h, -⟩ := Ppu.fetchStep_eq cart (c % 8) { p with pipe := p.pipe <<< 4 }
    rw [h]
    exact ⟨rfl, rfl⟩
  · exact ⟨rfl, rfl⟩

/-- R342, R343: on a render line with rendering on, the fetch engine runs and V takes the scroll updates of the dot. -/
theorem Ppu.renderStage_of_rendering (cart : Cartridge) {s : Nat} (c : Nat) {p : Ppu}
    (hon : p.showBg = true ∨ p.showSpr = true) (hline : s ≤ 239 ∨ s = 261) :
    Ppu.renderStage cart s c p = { Ppu.fetchStage cart c p with v := scrollStage s c p.t p.v } := by
  have hcond : (p.rendering && renderLine s) = true := by simp [Ppu.rendering, renderLine, hon, hline]
  obtain ⟨ht, hv⟩ := Ppu.fetchStage_keeps cart c p
  rw [Ppu.renderStage, if_pos hcond]
  simp only [ht, hv]

section
variable (cart : Cartridge) {p : Ppu} (hon : p.showBg = true ∨ p.showSpr = true)
  (hline : (p.tick cart).scanline ≤ 239 ∨ (p.tick cart).scanline = 261)
include hon hline

theorem Ppu.tick_eq_of_rendering :
    p.tick cart =
      { Ppu.fetchStage cart (p.tick cart).cycle p with
        v := scrollStage (p.tick cart).scanline (p.tick cart).cycle p.t p.v }.withDotOf (p.tick cart) :=
  (Ppu.tick_eq_renderStage cart p).trans
    (congrArg (Ppu.withDotOf · (p.tick cart)) (Ppu.renderStage_of_rendering cart _ hon hline))

theorem Ppu.tick_v_of_rendering :
    (p.tick cart).v = scrollStage (p.tick cart).scanline (p.tick cart).cycle p.t p.v :=
  congrArg Ppu.v (Ppu.tick_eq_of_rendering cart hon hline)

end

theorem fetchDot_eq_true_iff {c : Nat} : fetchDot c = true ↔ (1 ≤ c ∧ c ≤ 256) ∨ (321 ≤ c ∧ c ≤ 336) := by
  simp [fetchDot]

/-- R343, R346: a fetch dot shifts the pipeline and then does its micro-step. -/
theorem Ppu.fetchStage_of_fetchDot (cart : Cartridge) {c : Nat} (p : Ppu)
    (h : (1 ≤ c ∧ c ≤ 256) ∨ (321 ≤ c ∧ c ≤ 336)) :
    Ppu.fetchStage cart c p = Ppu.fetchStep cart (c % 8) { p with pipe := p.pipe <<< 4 } :=
  if_pos (fetchDot_eq_true_iff.2 h)

/-- Settles O58: the tick leaves the latches as the micro-step of its dot does, which reads at the addresses that V and
the nametable byte form. -/
theorem tileFetch : Obligations.TileFetch := by
  unfold Obligations.TileFetch
  intro cart p hon q attrByte shift hline hdot
  have hq : q = Ppu.withDotOf _ q := Ppu.tick_eq_of_rendering cart hon hline
  rw [Ppu.fetchStage_of_fetchDot cart p hdot] at hq
  refine ⟨fun hk => ?nametable, fun hk => ?attrs, fun hk => ?low, fun hk => ?high⟩ <;> rw [hk] at hq
  case nametable => exact (congrArg Ppu.ntByte hq).trans (congrArg (p.read cart) (nametableAddr_eq_append p.v))
  case attrs =>
    have hbits : q.atBits = attrBits p.v (p.read cart (attrAddr p.v)) := congrArg Ppu.atBits hq
    rw [hbits, attrBits_eq_append, attrAddr_eq_append]
  case low => exact (congrArg Ppu.ptLow hq).trans (congrArg (p.read cart) p.tileAddr_eq_append)
  case high => exact (congrArg Ppu.ptHigh hq).trans (congrArg (p.read cart) p.tileAddr_add_eight)

/-! ### The scroll updates of a dot (R343, R352 to R354) -/

theorem scrollStage_of_eighth {c : Nat} (s : Nat) (t v : BitVec 15)
    (hdot : (1 ≤ c ∧ c < 256) ∨ (321 ≤ c ∧ c ≤ 336)) (hk : c % 8 = 0) : scrollStage s c t v = incX v := by
  have hcopy : ¬(s = 261 ∧ 280 ≤ c ∧ c ≤ 304) := by omega
  have hfetch : fetchDot c = true ∧ c % 8 = 0 := ⟨fetchDot_eq_true_iff.2 (by omega), hk⟩
  have h256 : c ≠ 256 := by omega
  have h257 : c ≠ 257 := by omega
  simp only [scrollStage, if_neg hcopy, if_pos hfetch, if_neg h256, if_neg h257]

theorem scrollStage_256 (s : Nat) (t v : BitVec 15) : scrollStage s 256 t v = incY (incX v) := by
  simp [scrollStage, fetchDot]

theorem scrollStage_257 (s : Nat) (t v : BitVec 15) : scrollStage s 257 t v = copyX v t := by
  simp [scrollStage, fetchDot]

/-- Settles O60: V takes the updates of the dot, and each of them is a change of V's fields. -/
theorem scrollUpdates : Obligations.ScrollUpdates := by
  unfold Obligations.ScrollUpdates
  intro cart p hon q nextX nextY hline
  have hv : q.v = scrollStage q.scanline q.cycle p.t p.v := Ppu.tick_v_of_rendering cart hon hline
  have hX (v : BitVec 15) : incX v = nextX v := incX_eq v
  have hY (v : BitVec 15) : incY v = nextY v := incY_eq v
  refine ⟨fun hdot hk => ?eighth, fun hc => ?line, fun hc => ?copy⟩
  case eighth => rw [hv, scrollStage_of_eighth _ _ _ hdot hk, hX]
  case line => rw [hv, hc, scrollStage_256, hX, hY]
  case copy => rw [hv, hc, scrollStage_257, copyX_eq_append]

end Sys2Proof.Machine
end

section
/-! The decoder and the encoder (R130 to R132, R147 to R151): O1, O2 and O3. -/

namespace Sys2Proof

/-! ### From an instruction to its bytes and back -/

/-- R131: the operand bytes fill the size. -/
theorem Instr.length_operandBytes (i : Instr) : i.operandBytes.length + 1 = i.size := by
  cases i with
  | lda m | ldx m | ldy m | sta m | stx m | sty m | adc m | sbc m | and m | ora m | eor m | cmp m | cpx m | cpy m
  | bit m | asl m | lsr m | rol m | ror m | inc m | dec m | jmp m => cases m <;> rfl
  | nopStar op form => exact Laws.EncodeShape.nopForm_bytes_length form
  | _ => rfl

theorem encode_of_entry {i : Instr} {e : Entry} (h : i.entry = some e) : encode i = e.opcode :: i.operandBytes := by
  rw [encode, h]

/-- R151: the map has UND at each of its opcodes. -/
theorem decode3_und {op : Byte} (h : op ∈ undOpcodes) (b1 b2 : Byte) : decode3 op b1 b2 = .und op := by
  have hmap : ∀ op ∈ undOpcodes, decode3 op 0 0 = .und op := by decide +kernel
  rw [decode3_of_nothing (by rw [hmap op h]; rfl), hmap op h]

/-- R150: the map has `NOP*` with its form at each of the opcodes of the form. -/
theorem decode3_nopStar {op : Byte} {form : NopForm} (h : op ∈ form.opcodes) (rest : List Byte) :
    decode3 op ((form.bytes ++ rest).getD 0 0) ((form.bytes ++ rest).getD 1 0) = .nopStar op form := by
  cases form <;> simp only [NopForm.opcodes, List.mem_cons, List.not_mem_nil, or_false] at h
  case imp => rcases h with rfl | rfl | rfl | rfl | rfl | rfl <;> rfl
  case imm => rcases h with rfl | rfl | rfl | rfl | rfl <;> rfl
  case zp b => rcases h with rfl | rfl | rfl <;> rfl
  case zpx b => rcases h with rfl | rfl | rfl | rfl | rfl | rfl <;> rfl
  case abs w =>
    subst h
    exact congrArg (fun w => Instr.nopStar _ (.abs w)) (Machine.leWord_bytes w)
  case absx w =>
    rcases h with rfl | rfl | rfl | rfl | rfl | rfl <;>
      exact congrArg (fun w => Instr.nopStar _ (.absx w)) (Machine.leWord_bytes w)

/-- R147, R148: the map has every instruction at the opcode of its row, with the operand that its bytes give. -/
theorem decode3_of_entry {i : Instr} {e : Entry} (he : i.entry = some e) (rest : List Byte) :
    decode3 e.opcode ((i.operandBytes ++ rest).getD 0 0) ((i.operandBytes ++ rest).getD 1 0) = i := by
  cases i with
  | lda m | ldx m | ldy m | sta m | stx m | sty m | adc m | sbc m | and m | ora m | eor m | cmp m | cpx m | cpy m
  | bit m | asl m | lsr m | rol m | ror m | inc m | dec m | jmp m =>
    cases m with
    | abs w | absx w | absy w | ind w =>
      cases he <;> conv_rhs => rw [← Machine.leWord_bytes w]
      all_goals rfl
    | _ => cases he <;> rfl
  | jsr w =>
    cases he
    exact congrArg Instr.jsr (Machine.leWord_bytes w)
  | nopStar op form =>
    obtain ⟨hmem, he⟩ := Option.ite_none_right_eq_some.1 he
    cases he
    exact decode3_nopStar (List.contains_iff_mem.1 hmem) rest
  | und op =>
    obtain ⟨hmem, he⟩ := Option.ite_none_right_eq_some.1 he
    cases he
    exact decode3_und (List.contains_iff_mem.1 hmem) _ _
  | _ =>
    cases he
    rfl

/-- Settles O1: the opcode byte and the operand bytes select the instruction in the map, and its size is what the
decoder takes off the list. -/
theorem decodeEncode : Obligations.DecodeEncode := by
  unfold Obligations.DecodeEncode
  intro i rest hwf
  obtain ⟨e, he⟩ := Instr.entry_of_wellFormed hwf
  have hlen := i.length_operandBytes
  have hfits : ¬(i.operandBytes ++ rest).length + 1 < i.size := by
    rw [List.length_append]
    omega
  rw [encode_of_entry he, List.cons_append, decode]
  simp only [decode3_of_entry he, if_neg hfits, List.drop_left' (show i.operandBytes.length = i.size - 1 by omega)]

/-! ### From three bytes to an instruction and back -/

/-- What holds in every place of the map holds of every decoded instruction. -/
theorem decode3_eq_of_map {α : Type} {f g : Instr → α} {b1 b2 : Byte}
    (h : (opcodeMap b1 (leWord b1 b2)).map (List.map f) = (opcodeMap b1 (leWord b1 b2)).map (List.map g)) (b0 : Byte) :
    f (decode3 b0 b1 b2) = g (decode3 b0 b1 b2) := by
  obtain ⟨row, hrow, hi⟩ := decode3_mem b0 b1 b2
  exact List.map_inj_left.1 (List.map_inj_left.1 h row hrow) _ hi

/-- R147: the map has an instruction at the opcode of its row. -/
theorem head_encode_decode3 (b0 b1 b2 : Byte) : (encode (decode3 b0 b1 b2)).head? = some b0 := by
  have hmap : ∀ b0 : Byte, (encode (decode3 b0 0 0)).head? = some b0 := by decide +kernel
  exact (decode3_congr (b1 := b1) (b2 := b2) (c1 := 0) (c2 := 0) (fun i => (encode i).head?) rfl b0).trans (hmap b0)

/-- The operand bytes of an instruction read from a byte `b1` and a word `w` after its opcode (R132). -/
def operandBytesFrom (b1 : Byte) (w : Addr) (i : Instr) : List Byte :=
  match i.fetch with
  | .nothing => i.operandBytes
  | .immediate | .op8 => [b1]
  | .op16 => [loByte w, hiByte w]

theorem operandBytes_decode3 (b0 b1 b2 : Byte) :
    (decode3 b0 b1 b2).operandBytes = operandBytesFrom b1 (leWord b1 b2) (decode3 b0 b1 b2) :=
  decode3_eq_of_map (f := Instr.operandBytes) (g := operandBytesFrom b1 (leWord b1 b2)) rfl b0

/-- Log entry 7: only BRK and the immediate `NOP*` have a byte that is not read. -/
theorem Instr.operandBytes_of_nothing {i : Instr} (h : i.fetch = .nothing) (hbrk : i ≠ .brk)
    (hnop : ∀ op : Byte, i ≠ .nopStar op .imm) : i.operandBytes = [] := by
  cases i with
  | lda m | ldx m | ldy m | sta m | stx m | sty m | adc m | sbc m | and m | ora m | eor m | cmp m | cpx m | cpy m
  | bit m | asl m | lsr m | rol m | ror m | inc m | dec m | jmp m =>
    cases m with
    | acc => rfl
    | _ => cases h
  | nopStar op form =>
    cases form with
    | imp => rfl
    | imm => exact absurd rfl (hnop op)
    | _ => cases h
  | brk => exact absurd rfl hbrk
  | bcc | bcs | beq | bne | bmi | bpl | bvc | bvs | jsr => cases h
  | _ => rfl

/-- The bytes after the opcode are the operand bytes and what the decoder leaves. -/
theorem operandBytes_append_drop {b0 b1 b2 : Byte} (hbrk : decode3 b0 b1 b2 ≠ .brk)
    (hnop : ∀ op : Byte, decode3 b0 b1 b2 ≠ .nopStar op .imm) :
    (decode3 b0 b1 b2).operandBytes ++ [b1, b2].drop ((decode3 b0 b1 b2).size - 1) = [b1, b2] := by
  rw [← Instr.length_operandBytes, Nat.add_sub_cancel]
  cases hf : (decode3 b0 b1 b2).fetch with
  | nothing =>
    rw [Instr.operandBytes_of_nothing hf hbrk hnop]
    rfl
  | _ =>
    rw [operandBytes_decode3, operandBytesFrom, hf]
    simp [Machine.loByte_leWord, Machine.hiByte_leWord]

/-- Settles O2: the decoder answers the instruction of the map, whose row has the first byte as its opcode and whose
operand bytes are the bytes it read. -/
theorem everyOpcodeDecodes : Obligations.EveryOpcodeDecodes := by
  unfold Obligations.EveryOpcodeDecodes
  intro b0 b1 b2
  have hsize := Instr.size_bounds (decode3 b0 b1 b2)
  have hdecode : decode [b0, b1, b2] = .ok (decode3 b0 b1 b2, [b1, b2].drop ((decode3 b0 b1 b2).size - 1)) :=
    if_neg (Nat.not_lt.2 hsize.2)
  have hdrop : [b1, b2].drop ((decode3 b0 b1 b2).size - 1) = [b0, b1, b2].drop (decode3 b0 b1 b2).size := by
    rw [← List.drop_succ_cons (a := b0), Nat.sub_add_cancel hsize.1]
  refine ⟨_, _, hdecode, decode3_wellFormed b0 b1 b2, hdrop, head_encode_decode3 b0 b1 b2, fun hbrk hnop => ?_⟩
  obtain ⟨e, he⟩ := Instr.entry_of_wellFormed (decode3_wellFormed b0 b1 b2)
  have hhead := head_encode_decode3 b0 b1 b2
  rw [encode_of_entry he] at hhead ⊢
  rw [List.cons_append, operandBytes_append_drop hbrk hnop, Option.some.inj hhead]

/-- Settles O3: the seventeen words run through the decoder. -/
theorem sampleWordsDecode : Obligations.SampleWordsDecode := by
  unfold Obligations.SampleWordsDecode
  exact ⟨rfl, rfl, rfl, rfl, rfl, rfl, rfl, rfl, rfl, rfl, rfl, rfl, rfl, rfl, rfl, rfl, rfl⟩

end Sys2Proof
end

section
/-! What every step keeps (R40 to R57, R93, R102): O12, O13, O14 and O15. -/

namespace Sys2Proof.Machine

/-! ### What the port writes and the powered-up PPU change -/

/-- R321, R322: a PPUCTRL write, in full. -/
theorem Ppu.writeCtrl_eq (p : Ppu) (v : Byte) :
    p.writeCtrl v =
      { p with
        t := (p.t &&& 0x73FF#15) ||| ((v &&& 3).setWidth 15 <<< 10)
        inc32 := v.getLsbD 2, sprTable := v.getLsbD 3, bgTable := v.getLsbD 4, sprSize16 := v.getLsbD 5
        ext := v.getLsbD 6, nmiEnable := v.getLsbD 7
        nmiDelay := if p.nmiEnable = false ∧ v.getLsbD 7 = true ∧ p.vblank = true ∧ p.nmiDelay = 0 then 15
          else p.nmiDelay } := by
  rw [Ppu.writeCtrl, Ppu.nmiEnableCheck_eq]

/-- R329, R330: a PPUSCROLL write changes T, fine X and W alone. -/
theorem Ppu.writeScroll_parts (p : Ppu) (v : Byte) :
    ∃ t fineX w, p.writeScroll v = { p with t := t, fineX := fineX, w := w } := by
  unfold Ppu.writeScroll
  split
  · exact ⟨_, _, _, rfl⟩
  · exact ⟨_, p.fineX, _, rfl⟩

/-- R331, R332: a PPUADDR write changes T, V and W alone. -/
theorem Ppu.writeAddr_parts (p : Ppu) (b : Byte) : ∃ t v w, p.writeAddr b = { p with t := t, v := v, w := w } := by
  unfold Ppu.writeAddr
  split
  · exact ⟨_, p.v, _, rfl⟩
  · exact ⟨_, _, _, rfl⟩

/-! ### The storages -/

section
variable {n size : Nat} {m : List (Nat × BitVec n)}

/-- A write inside a storage keeps its form and its size. -/
theorem Cells.inv_write (h : Cells.wf m = true ∧ Cells.below size m = true) {i : Nat} (hi : i < size) (v : BitVec n) :
    Cells.wf (Cells.write m i v) = true ∧ Cells.below size (Cells.write m i v) = true :=
  ⟨Cells.wf_write i v h.1, Cells.below_write v h.2 hi⟩

end

theorem StorageInv.writeData {s : State} (h : StorageInv s) (v : Byte) :
    StorageInv ((s.setPpu (s.ppu.writeData s.cart v).1).setCart (s.ppu.writeData s.cart v).2) := by
  unfold Ppu.writeData Ppu.advanceV
  rcases Ppu.write_cases s.ppu s.cart s.ppu.dataAddr v with hw | ⟨ha, -, hw⟩ | ⟨i, hi, hw⟩ | ⟨i, hi, hw⟩ <;> rw [hw]
  · exact { h with }
  · exact { h with chr := Cells.inv_write h.chr ha v }
  · exact { h with nt := Cells.inv_write h.nt hi v }
  · exact { h with pal := Cells.inv_write h.pal hi v }

theorem StorageInv.tick {s : State} (h : StorageInv s) : StorageInv (s.setPpu (s.ppu.tick s.cart)) := by
  obtain ⟨_, _, _, _, _, _, _, fb, htick, -, -, hfb, -⟩ := Ppu.tick_eq s.cart s.ppu
  rw [htick]
  have hframe : Cells.wf fb = true ∧ Cells.below (256 * 240) fb = true := by
    rcases hfb with rfl | ⟨i, px, hi, rfl⟩
    · exact h.framebuffer
    · exact Cells.inv_write h.framebuffer hi px
  exact { h with framebuffer := hframe }

theorem StorageInv.powerUp {s : State} (h : StorageInv s) : StorageInv (powerUp s) := by
  have hempty : ∀ {n size : Nat}, Cells.wf ([] : List (Nat × BitVec n)) = true ∧
      Cells.below size ([] : List (Nat × BitVec n)) = true := ⟨rfl, rfl⟩
  have hchr : Cells.wf s.cart.powerUp.chr = true ∧ Cells.below 0x2000 s.cart.powerUp.chr = true := by
    unfold Cartridge.powerUp
    cases s.cart.chrIsRam
    · exact h.chr
    · exact hempty
  exact {
    ram := hempty, nt := hempty, pal := hempty, oam := hempty, framebuffer := hempty, wram := hempty
    prg := h.prg, chr := hchr }

theorem stepKeeps_storageInv : StepKeeps StorageInv where
  cpu _ h := { h with }
  ram _ v hi h := { h with ram := Cells.inv_write h.ram hi v }
  wram _ v hi h := { h with wram := Cells.inv_write h.wram hi v }
  oam _ v hi h := { h with oam := Cells.inv_write h.oam hi v }
  statusRead h := { h with }
  dataRead h := { h with }
  writeCtrl v h := by
    rw [Ppu.writeCtrl_eq]
    exact { h with }
  writeMask _ h := { h with }
  writeOamAddr _ h := { h with }
  writeOamData v h := { h with oam := Cells.inv_write h.oam (BitVec.isLt _) v }
  writeScroll {s} v h := by
    obtain ⟨_, _, _, hw⟩ := s.ppu.writeScroll_parts v
    rw [hw]
    exact { h with }
  writeAddr {s} v h := by
    obtain ⟨_, _, _, hw⟩ := s.ppu.writeAddr_parts v
    rw [hw]
    exact { h with }
  writeData v h := h.writeData v
  ctrlRead1 {s} h := by
    obtain ⟨_, hc⟩ := ctrlRead1_snd s
    rw [hc]
    exact { h with }
  ctrlRead2 {s} h := by
    obtain ⟨_, hc⟩ := ctrlRead2_snd s
    rw [hc]
    exact { h with }
  ctrlWrite {s} v h := by
    obtain ⟨_, hc⟩ := ctrlWrite_eq v s
    rw [hc]
    exact { h with }
  tick h := h.tick
  inputs _ h := { h with }
  powerUp h := h.powerUp
  pads _ _ h := { h with }

/-- Settles O13: each operation a step is made of writes its storages at cells inside them, and a write keeps
the form. -/
theorem stepKeepsStorages : Obligations.StepKeepsStorages := by
  unfold Obligations.StepKeepsStorages
  intro s t h hstep
  exact stepKeeps_storageInv.step h hstep

/-! ### The counters and latches -/

theorem nextIndex_le {i : Nat} (h : i ≤ 8) : nextIndex i ≤ 8 := by
  unfold nextIndex
  split <;> omega

theorem CounterInv.ctrlRead1 {s : State} (h : CounterInv s) : CounterInv (ctrlRead1 s).2 := by
  unfold Machine.ctrlRead1
  split
  · exact { h with index1 := Nat.zero_le 8 }
  · exact { h with index1 := nextIndex_le h.index1 }

theorem CounterInv.ctrlRead2 {s : State} (h : CounterInv s) : CounterInv (ctrlRead2 s).2 := by
  unfold Machine.ctrlRead2
  split
  · exact { h with index2 := Nat.zero_le 8 }
  · exact { h with index2 := nextIndex_le h.index2 }

theorem CounterInv.ctrlWrite {s : State} (h : CounterInv s) (v : Byte) : CounterInv (ctrlWrite v s) := by
  have hlatch : CounterInv (if s.ctrl.strobe || v.getLsbD 0 then s.latch else s) := by
    split
    · exact { h with }
    · exact h
  unfold Machine.ctrlWrite
  dsimp only
  split
  · exact { hlatch with index1 := Nat.zero_le 8, index2 := Nat.zero_le 8 }
  · exact { hlatch with }

/-- R335: a PPUDATA write moves no counter and no attribute bit. -/
theorem CounterInv.writeData {s : State} (h : CounterInv s) (v : Byte) :
    CounterInv ((s.setPpu (s.ppu.writeData s.cart v).1).setCart (s.ppu.writeData s.cart v).2) := by
  unfold Ppu.writeData Ppu.advanceV
  rcases Ppu.write_cases s.ppu s.cart s.ppu.dataAddr v with hw | ⟨-, -, hw⟩ | ⟨i, -, hw⟩ | ⟨i, -, hw⟩ <;> rw [hw] <;>
    exact { h with }

theorem Ppu.advanceDot_le {p : Ppu} (hc : p.cycle ≤ 340) (hs : p.scanline ≤ 261) :
    p.advanceDot.cycle ≤ 340 ∧ p.advanceDot.scanline ≤ 261 := by
  rw [Ppu.advanceDot_eq]
  dsimp only
  constructor <;> split_ifs <;> omega

theorem CounterInv.tick {s : State} (h : CounterInv s) : CounterInv (s.setPpu (s.ppu.tick s.cart)) := by
  obtain ⟨_, _, _, _, _, _, _, _, htick, hat, -⟩ := Ppu.tick_eq s.cart s.ppu
  obtain ⟨hc, hs⟩ := Ppu.advanceDot_le h.cycle h.scanline
  have hdelay := h.nmiDelay
  rw [htick]
  refine { h with cycle := hc, scanline := hs, atBits := hat h.atBits, nmiDelay := ?_ }
  dsimp only [State.setPpu]
  split_ifs <;> omega

theorem counterInv_reset : CounterInv State.reset := by
  constructor <;> decide

theorem stepKeeps_counterInv : StepKeeps CounterInv where
  cpu _ h := { h with }
  ram _ _ _ h := { h with }
  wram _ _ _ h := { h with }
  oam _ _ _ h := { h with }
  statusRead h := { h with }
  dataRead h := { h with }
  writeCtrl v h := by
    have hdelay := h.nmiDelay
    rw [Ppu.writeCtrl_eq]
    refine { h with nmiDelay := ?_ }
    dsimp only [State.setPpu]
    split_ifs <;> omega
  writeMask _ h := { h with }
  writeOamAddr _ h := { h with }
  writeOamData _ h := { h with }
  writeScroll {s} v h := by
    obtain ⟨_, _, _, hw⟩ := s.ppu.writeScroll_parts v
    rw [hw]
    exact { h with }
  writeAddr {s} v h := by
    obtain ⟨_, _, _, hw⟩ := s.ppu.writeAddr_parts v
    rw [hw]
    exact { h with }
  writeData v h := h.writeData v
  ctrlRead1 h := h.ctrlRead1
  ctrlRead2 h := h.ctrlRead2
  ctrlWrite v h := h.ctrlWrite v
  tick h := h.tick
  inputs _ h := { h with }
  powerUp _ := { counterInv_reset with }
  pads _ _ h := { h with }

/-- Settles O14: a tick moves the dot inside the frame and the fetch engine keeps the attribute bits, a shift position
stops at 8, and a delay is 15 or counts down. -/
theorem stepKeepsCounters : Obligations.StepKeepsCounters := by
  unfold Obligations.StepKeepsCounters
  intro s t h hstep
  exact stepKeeps_counterInv.step h hstep

/-- Settles O12: every storage is empty at reset and every counter 0. -/
theorem resetInvariants : Obligations.ResetInvariants := by
  unfold Obligations.ResetInvariants
  have hstorage : StorageInv State.reset := by constructor <;> decide
  exact ⟨hstorage, counterInv_reset⟩

/-! ### The cartridge and the host's inputs -/

/-- `c` has the images and the configuration of `c0`; only RAM-backed CHR and work RAM may differ (R93, R102). -/
structure SameImages (c0 c : Cartridge) : Prop where
  prg : c.prg = c0.prg
  prgSize : c.prgSize = c0.prgSize
  mirroring : c.mirroring = c0.mirroring
  header : c.header = c0.header
  chrIsRam : c.chrIsRam = c0.chrIsRam
  chrRom : c0.chrIsRam = false → c.chr = c0.chr

/-- What a step keeps of the machine `s`: the cartridge's images, the access mode, that no fault is recorded and that
sprite overflow is not set. -/
structure KeepsConfig (s u : State) : Prop where
  cart : SameImages s.cart u.cart
  accessMode : u.accessMode = s.accessMode
  fault : u.fault = none
  overflow : s.ppu.spriteOverflow = false → u.ppu.spriteOverflow = false

theorem SameImages.ppuWrite {c0 c : Cartridge} (h : SameImages c0 c) (p : Ppu) (a : PpuAddr) (v : Byte) :
    SameImages c0 (p.write c a v).2 := by
  rcases Ppu.write_cases p c a v with hw | ⟨-, hram, hw⟩ | ⟨i, -, hw⟩ | ⟨i, -, hw⟩ <;> rw [hw]
  · exact h
  · exact { h with chrRom := fun hrom => absurd (h.chrIsRam.symm.trans hram) (by simp [hrom]) }
  · exact h
  · exact h

theorem SameImages.powerUp {c0 c : Cartridge} (h : SameImages c0 c) : SameImages c0 c.powerUp := by
  refine { h with chrRom := fun hrom => ?_ }
  rw [Cartridge.powerUp, h.chrIsRam, hrom]
  exact h.chrRom hrom

theorem Ppu.write_spriteOverflow (p : Ppu) (c : Cartridge) (a : PpuAddr) (v : Byte) :
    (p.write c a v).1.spriteOverflow = p.spriteOverflow := by
  rcases Ppu.write_cases p c a v with hw | ⟨-, -, hw⟩ | ⟨i, -, hw⟩ | ⟨i, -, hw⟩ <;> rw [hw]

theorem stepKeeps_keepsConfig (s0 : State) : StepKeeps (KeepsConfig s0) where
  cpu _ h := { h with }
  ram _ _ _ h := { h with }
  wram _ _ _ h := { h with cart := { h.cart with } }
  oam _ _ _ h := { h with }
  statusRead h := { h with }
  dataRead h := { h with }
  writeCtrl v h := by
    rw [Ppu.writeCtrl_eq]
    exact { h with }
  writeMask _ h := { h with }
  writeOamAddr _ h := { h with }
  writeOamData _ h := { h with }
  writeScroll {s} v h := by
    obtain ⟨_, _, _, hw⟩ := s.ppu.writeScroll_parts v
    rw [hw]
    exact { h with }
  writeAddr {s} v h := by
    obtain ⟨_, _, _, hw⟩ := s.ppu.writeAddr_parts v
    rw [hw]
    exact { h with }
  writeData v h :=
    { h with
      cart := h.cart.ppuWrite _ _ v
      overflow := fun h0 => (Ppu.write_spriteOverflow _ _ _ _).trans (h.overflow h0) }
  ctrlRead1 {s} h := by
    obtain ⟨_, hc⟩ := ctrlRead1_snd s
    rw [hc]
    exact { h with }
  ctrlRead2 {s} h := by
    obtain ⟨_, hc⟩ := ctrlRead2_snd s
    rw [hc]
    exact { h with }
  ctrlWrite {s} v h := by
    obtain ⟨_, hc⟩ := ctrlWrite_eq v s
    rw [hc]
    exact { h with }
  tick {s} h := by
    obtain ⟨_, _, _, _, _, _, _, _, htick, -⟩ := Ppu.tick_eq s.cart s.ppu
    rw [htick]
    exact { h with }
  inputs _ h := { h with }
  powerUp h := { h with cart := h.cart.powerUp, fault := rfl, overflow := fun _ => rfl }
  pads _ _ h := { h with }

theorem HostOp.apply_inputs (op : HostOp) (s : State) : (op.apply s).inputs = s.inputs := by
  cases op with
  | requestIrq =>
    show (Machine.requestIrq s).inputs = s.inputs
    unfold Machine.requestIrq
    split
    · rfl
    · split <;> rfl
  | _ => rfl

theorem foldl_apply_inputs (ops : List HostOp) (s : State) :
    (ops.foldl (fun s op => op.apply s) s).inputs = s.inputs := by
  induction ops generalizing s with
  | nil => rfl
  | cons op ops ih => exact (ih _).trans (op.apply_inputs s)

/-- R470: the operations due now leave the list. -/
theorem applyInputs_inputs (s : State) : (applyInputs s).inputs = s.inputs.tail := by
  unfold applyInputs
  split
  next h => rw [h]; rfl
  next ops rest h => rw [foldl_apply_inputs, h]; rfl

/-- No operation of the CPU reads or changes the host's inputs. -/
theorem keeps_inputs (l : List (List HostOp)) : Keeps (fun u => u.inputs = l) where
  cpu _ h := h
  ram _ _ _ h := h
  wram _ _ _ h := h
  oam _ _ _ h := h
  statusRead h := h
  dataRead h := h
  writeCtrl _ h := h
  writeMask _ h := h
  writeOamAddr _ h := h
  writeOamData _ h := h
  writeScroll _ h := h
  writeAddr _ h := h
  writeData _ h := h
  ctrlRead1 {s} h := by
    obtain ⟨_, hc⟩ := ctrlRead1_snd s
    rw [hc]
    exact h
  ctrlRead2 {s} h := by
    obtain ⟨_, hc⟩ := ctrlRead2_snd s
    rw [hc]
    exact h
  ctrlWrite {s} v h := by
    obtain ⟨_, hc⟩ := ctrlWrite_eq v s
    rw [hc]
    exact h

/-- R470: a step takes exactly the operations due before it. -/
theorem step_inputs {s t : State} (h : step s = .next t) : t.inputs = s.inputs.tail := by
  obtain ⟨-, u, hu, rfl⟩ := step_next h
  have hcpu : u.inputs = s.inputs.tail := (keeps_inputs _).cpuTick (applyInputs_inputs s) hu
  simp only [ppuTick_eq, hcpu]

/-- Settles O15: no operation of a step writes the images or the access mode; a step that completes starts without a
fault, and a fault would have ended it. -/
theorem stepKeepsCartridge : Obligations.StepKeepsCartridge := by
  unfold Obligations.StepKeepsCartridge
  intro s t hstep
  have hstart : KeepsConfig s s := ⟨⟨rfl, rfl, rfl, rfl, rfl, fun _ => rfl⟩, rfl, (step_next hstep).1, id⟩
  obtain ⟨⟨hprg, hsize, hmirror, hheader, hram, hrom⟩, hmode, hfault, hoverflow⟩ :=
    (stepKeeps_keepsConfig s).step hstart hstep
  exact ⟨hprg, hsize, hmirror, hheader, hram, hrom, hmode, hfault, hoverflow, step_inputs hstep⟩

end Sys2Proof.Machine
end

section
/-! What is refused (R147, R410), and where a step's fault comes from (R409, R411, R412): O7 and O8. -/

namespace Sys2Proof.Machine

/-! ### Refusals -/

theorem entry_of_illFormed {i : Instr} (h : i.wellFormed = false) : i.entry = none := by
  cases i with
  | lda m | ldx m | ldy m | sta m | stx m | sty m | adc m | sbc m | and m | ora m | eor m | cmp m | cpx m | cpy m
  | bit m | asl m | lsr m | rol m | ror m | inc m | dec m | jmp m =>
    cases m <;> cases h <;> rfl
  | nopStar op form => exact if_neg (Bool.eq_false_iff.1 h)
  | und op => exact if_neg (Bool.eq_false_iff.1 h)
  | _ => cases h

/-- How an instruction is built from the shared part of the execute step (R160), and the cycles its own action charges:
a branch that is taken 1 or 2, every other action none but those of a bus write. -/
inductive Shape (e : Option Entry) (s : State) : Host.Outcome State Fault Refusal → Prop
  | read (m : Operand) (f : Byte → State → State) (hf : ∀ v t, (f v t).cpu.cycles = t.cpu.cycles) :
    Shape e s (executeRead e m f s)
  | store (m : Operand) (reg : State → Byte) : Shape e s (executeStore e m reg s)
  | modify (m : Operand) (result : Byte → Status → Byte) (carry : Byte → Status → Status) :
    Shape e s (executeModify e m result carry s)
  | place (m : Operand) (action : Place → State → Except Fault State)
    (ha : ∀ p t u, action p t = .ok u → u.cpu.cycles = t.cpu.cycles) : Shape e s (execute e m action s)
  | implied (size : Nat) (action : State → Except Fault State)
    (ha : ∀ t u, action t = .ok u → u.cpu.cycles = t.cpu.cycles) : Shape e s (executeImplied e size action s)
  | branch (op8 : Byte) (cond : Status → Bool) : Shape e s (executeBranch e op8 cond s)

theorem exec_shape (i : Instr) (s : State) : Shape i.entry s (exec i s) := by
  cases i with
  | lda m | ldx m | ldy m | adc m | sbc m | and m | ora m | eor m | cmp m | cpx m | cpy m | bit m =>
    simp only [exec_lda, exec_ldx, exec_ldy, exec_adc, exec_sbc, exec_and, exec_ora, exec_eor, exec_cmp, exec_cpx,
      exec_cpy, exec_bit]
    exact .read m _ fun _ _ => rfl
  | sta m | stx m | sty m =>
    simp only [exec_sta, exec_stx, exec_sty]
    exact .store m _
  | asl m | lsr m | rol m | ror m | inc m | dec m =>
    simp only [exec_asl, exec_lsr, exec_rol, exec_ror, exec_inc, exec_dec]
    exact .modify m _ _
  | jmp m =>
    rw [exec_jmp]
    refine .place m _ fun p t u h => ?_
    cases p <;> cases h <;> rfl
  | bcc d | bcs d | beq d | bne d | bmi d | bpl d | bvc d | bvs d =>
    simp only [exec_bcc, exec_bcs, exec_beq, exec_bne, exec_bmi, exec_bpl, exec_bvc, exec_bvs]
    exact .branch d _
  | tax | tay | txa | tya | tsx | txs | inx | iny | dex | dey =>
    simp only [exec_tax, exec_tay, exec_txa, exec_tya, exec_tsx, exec_txs, exec_inx, exec_iny, exec_dex, exec_dey]
    exact .implied 1 _ fun _ _ h => by cases h; rfl
  | clc | sec | cli | sei | clv | cld | sed | nop | nopStar | und =>
    simp only [exec_clc, exec_sec, exec_cli, exec_sei, exec_clv, exec_cld, exec_sed, exec_nop, exec_nopStar, exec_und]
    exact .implied _ _ fun _ _ h => by cases h; rfl
  | jsr w =>
    rw [exec_jsr]
    refine .implied 3 _ fun t u h => ?_
    rw [push16_eq] at h
    cases h
    rfl
  | rts =>
    rw [exec_rts]
    refine .implied 1 _ fun t u h => ?_
    rw [pop16_eq] at h
    cases h
    rfl
  | rti =>
    rw [exec_rti]
    refine .implied 1 _ fun t u h => ?_
    rw [leaveInterrupt_eq] at h
    cases h
    rfl
  | brk =>
    rw [exec_brk]
    refine .implied 2 _ fun t u h => ?_
    rw [enterInterrupt_eq _ _ _ _ (by decide) (by decide)] at h
    cases h
    rfl
  | pha | php =>
    simp only [exec_pha, exec_php]
    refine .implied 1 _ fun t u h => ?_
    rw [push_eq] at h
    cases h
    rfl
  | pla | plp =>
    simp only [exec_pla, exec_plp]
    refine .implied 1 _ fun t u h => ?_
    rw [pop_eq] at h
    cases h
    rfl

/-- An instruction is refused for want of a row, and otherwise its outcome is the one of its accesses (R160, log entry
14). -/
def RefusedOrAnswered (e : Option Entry) (o : Host.Outcome State Fault Refusal) : Prop :=
  (e = none ∧ o = .refused .illFormed) ∨ ∃ e' r, e = some e' ∧ o = answer r

theorem executeImplied_refusedOrAnswered (e : Option Entry) (size : Nat) (action : State → Except Fault State)
    (s : State) : RefusedOrAnswered e (executeImplied e size action s) := by
  cases e with
  | none => exact .inl ⟨rfl, rfl⟩
  | some e => exact .inr ⟨e, _, rfl, rfl⟩

theorem execute_refusedOrAnswered (e : Option Entry) (m : Operand) (action : Place → State → Except Fault State)
    (s : State) : RefusedOrAnswered e (execute e m action s) := by
  cases e with
  | none => exact .inl ⟨rfl, rfl⟩
  | some e =>
    unfold execute
    cases resolve m s with
    | error f => exact .inr ⟨e, .error f, rfl, rfl⟩
    | ok r => exact .inr ⟨e, _, rfl, rfl⟩

theorem Shape.refusedOrAnswered {e : Option Entry} {s : State} {o : Host.Outcome State Fault Refusal}
    (h : Shape e s o) : RefusedOrAnswered e o := by
  cases h with
  | read | store | modify | place => exact execute_refusedOrAnswered _ _ _ s
  | implied | branch => exact executeImplied_refusedOrAnswered _ _ _ s

theorem exec_ne_refused {i : Instr} (h : i.wellFormed = true) (s : State) (r : Refusal) : exec i s ≠ .refused r := by
  obtain ⟨e, he⟩ := Instr.entry_of_wellFormed h
  rcases (exec_shape i s).refusedOrAnswered with ⟨hnone, -⟩ | ⟨-, a, -, ha⟩
  · simp [he] at hnone
  · rw [ha]
    exact answer_ne_refused a r

/-- R147: what is fetched is well formed, so no boundary is refused. -/
theorem boundary_ne_refused (s : State) (r : Refusal) : boundary s ≠ .refused r := by
  unfold boundary
  split
  · exact answer_ne_refused _ r
  · unfold runInstruction
    split
    · exact nofun
    next i u hfetch =>
      obtain ⟨b0, b1, b2, rfl⟩ := fetch_ok hfetch
      exact exec_ne_refused (decode3_wellFormed b0 b1 b2) u r

theorem step_ne_refused (s : State) (r : Refusal) : step s ≠ .refused r := by
  unfold step stepMachine masterTick cpuTick
  dsimp only
  split
  · exact nofun
  · split
    · exact nofun
    · exact nofun
    next hcpu =>
      split at hcpu
      · split at hcpu
        · cases hcpu
        · cases hcpu
        next hb => exact absurd hb (boundary_ne_refused _ _)
      · cases hcpu

/-- Settles O8: a term without a row is refused, every other instruction answers the outcome of its accesses, and a
fetched instruction has a row. -/
theorem onlyIllFormedRefused : Obligations.OnlyIllFormedRefused := by
  unfold Obligations.OnlyIllFormedRefused
  refine ⟨fun i s h => ?_, fun i s r h => exec_ne_refused h s r, step_ne_refused⟩
  rcases (exec_shape i s).refusedOrAnswered with ⟨-, hrefused⟩ | ⟨e, -, he, -⟩
  · exact hrefused
  · simp [entry_of_illFormed h] at he

/-! ### Faults -/

/-- The addresses R81 and R82 give each reason in an access mode (R409). -/
def ReasonAt (mode : AccessMode) : FaultReason → Prop
  | .apuRead a => 0x4000 ≤ a.toNat ∧ a.toNat ≤ 0x4013
  | .writeOnlyRead a => mode = .strict ∧ (a = 0x4014 ∨ ∃ r : Nat, r ∈ [0, 1, 3, 5, 6] ∧ IsPort r a)
  | .readOnlyWrite a => mode = .strict ∧ IsPort 2 a
  | .unmapped a => mode = .strict ∧ 0x4020 ≤ a.toNat ∧ a.toNat ≤ 0x5FFF

/-- A fault that an access mode and an address give, recorded in the state it keeps. -/
def RecordedFault (mode : AccessMode) : Fault → Prop
  | .access r kept => kept.fault = some r ∧ kept.accessMode = mode ∧ ReasonAt mode r

theorem recordedFault_stop {s : State} {r : FaultReason} (h : ReasonAt s.accessMode r) :
    RecordedFault s.accessMode (s.stop r) := ⟨rfl, rfl, h⟩

/-- R94: a programmer error that stops the machine is one in `strict` mode. -/
theorem progErrRead_error {r : FaultReason} {s : State} {f : Fault} (h : progErrRead r s = .error f) :
    s.accessMode = .strict ∧ f = s.stop r := by
  unfold progErrRead at h
  split at h
  next hmode => exact ⟨hmode, (Except.error.inj h).symm⟩
  next => cases h

theorem progErrWrite_error {r : FaultReason} {s : State} {f : Fault} (h : progErrWrite r s = .error f) :
    s.accessMode = .strict ∧ f = s.stop r := by
  unfold progErrWrite at h
  split at h
  next hmode => exact ⟨hmode, (Except.error.inj h).symm⟩
  next => cases h

/-- R320, R337: a read of a PPU port that stops is one of a write-only port. -/
theorem ppuRegRead_error {r : BitVec 3} {a : Addr} {s : State} {f : Fault} (h : ppuRegRead r a s = .error f) :
    r.toNat ∈ [0, 1, 3, 5, 6] ∧ progErrRead (.writeOnlyRead a) s = .error f := by
  have hports : ∀ r : BitVec 3, r.toNat ≠ 2 → r.toNat ≠ 4 → r.toNat ≠ 7 → r.toNat ∈ [0, 1, 3, 5, 6] := by decide
  unfold ppuRegRead at h
  split at h
  · cases h
  · cases h
  · cases h
  next h2 h4 h7 => exact ⟨hports r h2 h4 h7, h⟩

/-- R81, R411: a bus read that stops does so for a reason of its own address. -/
theorem read8_recordedFault {a : Addr} {s : State} {f : Fault} (h : read8 a s = .error f) :
    RecordedFault s.accessMode f := by
  have hinv := target_inv a
  unfold read8 at h
  cases hta : target a <;> rw [hta] at h hinv <;> dsimp only at h hinv
  case ram | apuStatus | ctrl1 | ctrl2 | test | wram | prg => cases h
  case apu =>
    obtain rfl := Except.error.inj h
    exact recordedFault_stop hinv
  case oamDma =>
    obtain ⟨hmode, rfl⟩ := progErrRead_error h
    exact recordedFault_stop ⟨hmode, .inl (BitVec.eq_of_toNat_eq hinv)⟩
  case unmapped =>
    obtain ⟨hmode, rfl⟩ := progErrRead_error h
    exact recordedFault_stop ⟨hmode, hinv⟩
  case ppuPort r =>
    obtain ⟨hr, herr⟩ := ppuRegRead_error h
    obtain ⟨hmode, rfl⟩ := progErrRead_error herr
    exact recordedFault_stop ⟨hmode, .inr ⟨r.toNat, hr, isPort_of_target hta⟩⟩

/-- R338: the copy of a DMA stops where one of its reads does. -/
theorem dmaCopy_recordedFault {page : Byte} {n : Nat} {s : State} {f : Fault} (h : dmaCopy page n s = .error f) :
    RecordedFault s.accessMode f := by
  induction n generalizing s with
  | zero => cases h
  | succ n ih =>
    unfold dmaCopy at h
    split at h
    next hread =>
      obtain rfl := Except.error.inj h
      exact read8_recordedFault hread
    next v u hread =>
      obtain ⟨p, c, rfl⟩ := read8_ok_parts hread
      exact ih (s := ((s.setPpu p).setCtrl c).setOam (255 - n) v) h

/-- R82, R411: a bus write that stops does so for a reason of its own address, or of an address its DMA reads. -/
theorem write8_recordedFault {a : Addr} {v : Byte} {s : State} {f : Fault} (h : write8 a v s = .error f) :
    RecordedFault s.accessMode f := by
  have hinv := target_inv a
  unfold write8 at h
  cases hta : target a <;> rw [hta] at h hinv <;> dsimp only at h hinv
  case ram | apu | apuStatus | ctrl1 | ctrl2 | test | wram | prg => cases h
  case oamDma =>
    unfold oamDma at h
    split at h
    next hcopy =>
      obtain rfl := Except.error.inj h
      exact dmaCopy_recordedFault hcopy
    next => cases h
  case unmapped =>
    obtain ⟨hmode, rfl⟩ := progErrWrite_error h
    exact recordedFault_stop ⟨hmode, hinv⟩
  case ppuPort r =>
    unfold ppuRegWrite at h
    split at h
    case h_3 hr =>
      obtain ⟨hmode, rfl⟩ := progErrWrite_error h
      exact recordedFault_stop ⟨hmode, hr ▸ isPort_of_target hta⟩
    all_goals cases h

theorem faultsIn_recordedFault (s : State) : FaultsIn (KeepsConfig s) (RecordedFault s.accessMode) where
  toStepKeeps := stepKeeps_keepsConfig s
  readFault hu h := hu.accessMode ▸ read8_recordedFault h
  writeFault hu h := hu.accessMode ▸ write8_recordedFault h
  kept {f} g h := by
    cases f
    exact h

/-- Settles O7: every fault of a step is that of one bus access of a state with the step's access mode, and the access
gives its address the reason. -/
theorem faultReasons : Obligations.FaultReasons := by
  unfold Obligations.FaultReasons
  refine ⟨fun s r h => step_of_fault h, fun s kept r hrun hstep => ?_⟩
  have hstart : KeepsConfig s s := ⟨⟨rfl, rfl, rfl, rfl, rfl, fun _ => rfl⟩, rfl, hrun, id⟩
  obtain ⟨hfault, hmode, hreason⟩ := (faultsIn_recordedFault s).step_fault hstart hrun hstep
  refine ⟨hfault, hmode, ?_⟩
  cases r <;> exact hreason

end Sys2Proof.Machine
end

section
/-! The cycles of a boundary (R454, R160, R339): O17. -/

namespace Sys2Proof.Machine

/-! ### Reads leave the CPU -/

theorem read16_cpu_same {a w : Addr} {s t : State} (h : read16 a s = .ok (w, t)) : t.cpu = s.cpu := by
  unfold read16 at h
  split at h
  next => cases h
  next hlo =>
    split at h
    next => cases h
    next hhi =>
      cases h
      rw [read8_cpu_same hhi, read8_cpu_same hlo]

theorem read16PageWrap_cpu_same {a w : Addr} {s t : State} (h : read16PageWrap a s = .ok (w, t)) :
    t.cpu = s.cpu := by
  unfold read16PageWrap at h
  split at h
  next => cases h
  next hlo =>
    split at h
    next => cases h
    next hhi =>
      cases h
      rw [read8_cpu_same hhi, read8_cpu_same hlo]

theorem resolve_cpu_same {m : Operand} {s t : State} {p : Place} {c : Bool} (h : resolve m s = .ok (p, c, t)) :
    t.cpu = s.cpu := by
  cases m with
  | ind | indx | indy =>
    unfold resolve at h
    dsimp only at h
    split at h
    next => cases h
    next hread =>
      cases h
      exact read16PageWrap_cpu_same hread
  | _ => cases h; rfl

theorem loadPlace_cpu_same {p : Place} {s t : State} {v : Byte} (h : loadPlace p s = .ok (v, t)) : t.cpu = s.cpu := by
  cases p with
  | mem a => exact read8_cpu_same h
  | _ => cases h; rfl

theorem readImmediate_cpu_same {i : Instr} {s t : State} {v : Byte} (h : readImmediate i s = .ok (v, t)) :
    t.cpu = s.cpu := by
  unfold readImmediate at h
  split at h
  next hread =>
    cases h
    exact read8_cpu_same hread
  next => cases h

theorem fetch_cpu_same {s t : State} {i : Instr} (h : fetch s = .ok (i, t)) : t.cpu = s.cpu := by
  unfold fetch at h
  split at h
  next => cases h
  next u h0 =>
    have hcpu := read8_cpu_same h0
    dsimp only at h
    split at h
    next =>
      cases h
      exact hcpu
    all_goals
      split at h
      next => cases h
    next hread =>
      cases h
      exact (readImmediate_cpu_same hread).trans hcpu
    next hread =>
      cases h
      exact (read8_cpu_same hread).trans hcpu
    next hread =>
      cases h
      exact (read16_cpu_same hread).trans hcpu

/-! ### What each part of an instruction charges -/

/-- `t` has the cycle counter of `s` and at most `k` cycles more. -/
def ChargesAtMost (k : Nat) (s t : State) : Prop := ∃ n ≤ k, t.cpu.cycles = s.cpu.cycles + BitVec.ofNat 64 n

theorem chargesAtMost_of_eq {k : Nat} {s t : State} (h : t.cpu.cycles = s.cpu.cycles) : ChargesAtMost k s t :=
  ⟨0, Nat.zero_le k, h.trans (BitVec.add_zero _).symm⟩

/-- R339: a bus write charges a DMA stall at most. -/
theorem write8_chargesAtMost {a : Addr} {v : Byte} {s t : State} (h : write8 a v s = .ok t) :
    ChargesAtMost 514 s t := by
  obtain ⟨-, -, -, hcpu, -⟩ := write8_frame h
  by_cases hdma : target a = .oamDma
  · have hd : oamDma v s = .ok t := by simpa only [write8, hdma] using h
    obtain ⟨u, hcopy, rfl⟩ := oamDma_ok hd
    have hu : u.cpu.cycles = s.cpu.cycles := by rw [dmaCopy_parts hcopy]
    refine ⟨dmaStall u, ?_, by rw [State.charge_cycles, hu]⟩
    unfold dmaStall
    split <;> omega
  · exact chargesAtMost_of_eq (congrArg Cpu.cycles (hcpu hdma))

theorem storePlace_chargesAtMost {p : Place} {v : Byte} {s t : State} (h : storePlace p v s = .ok t) :
    ChargesAtMost 514 s t := by
  cases p with
  | mem a => exact write8_chargesAtMost h
  | _ => cases h; exact chargesAtMost_of_eq rfl

theorem takeBranch_chargesAtMost (cond : Bool) (op8 : Byte) (s : State) :
    ChargesAtMost 514 s (takeBranch cond op8 s) := by
  unfold takeBranch
  split
  · refine ⟨_, ?_, rfl⟩
    split <;> omega
  · exact chargesAtMost_of_eq rfl

/-- An instruction of the row `e` charges its base cycles, its page penalty at most, and what its action charges. -/
def ChargesRow (e : Option Entry) (s t : State) : Prop :=
  ∃ e', e = some e' ∧ ∃ n ≤ e'.penalty + 514, t.cpu.cycles = s.cpu.cycles + BitVec.ofNat 64 (e'.cycles + n)

theorem executeImplied_chargesRow {e : Option Entry} {size : Nat} {action : State → Except Fault State} {s t : State}
    (ha : ∀ s t, action s = .ok t → ChargesAtMost 514 s t) (h : executeImplied e size action s = .next t) :
    ChargesRow e s t := by
  cases e with
  | none => cases h
  | some e =>
    unfold executeImplied answer at h
    dsimp only at h
    split at h
    next hact =>
      cases h
      obtain ⟨n, hn, hc⟩ := ha _ _ hact
      refine ⟨e, rfl, n, by omega, hc.trans ?_⟩
      rw [retire_eq, moved_cpu, BitVec.add_assoc, ← BitVec.ofNat_add]
      rfl
    next => cases h

theorem execute_chargesRow {e : Option Entry} {m : Operand} {action : Place → State → Except Fault State}
    {s t : State} (ha : ∀ p s t, action p s = .ok t → ChargesAtMost 514 s t) (h : execute e m action s = .next t) :
    ChargesRow e s t := by
  cases e with
  | none => cases h
  | some e =>
    unfold execute answer at h
    dsimp only at h
    split at h
    next => cases h
    next p crossed u hres =>
      split at h
      next hact =>
        cases h
        obtain ⟨n, hn, hc⟩ := ha _ _ _ hact
        refine ⟨e, rfl, (if crossed then e.penalty else 0) + n, ?_, hc.trans ?_⟩
        · split <;> omega
        · rw [retire_eq, moved_cpu, resolve_cpu_same hres, BitVec.add_assoc, ← BitVec.ofNat_add, Nat.add_assoc]
      next => cases h

theorem Shape.chargesRow {e : Option Entry} {s t : State} {o : Host.Outcome State Fault Refusal} (h : Shape e s o)
    (ho : o = .next t) : ChargesRow e s t := by
  cases h with
  | read m f hf =>
    refine execute_chargesRow (fun p s t hact => ?_) ho
    split at hact
    next => cases hact
    next hload =>
      cases hact
      exact chargesAtMost_of_eq ((hf _ _).trans (congrArg Cpu.cycles (loadPlace_cpu_same hload)))
  | store m reg => exact execute_chargesRow (fun p s t hact => storePlace_chargesAtMost hact) ho
  | modify m result carry =>
    refine execute_chargesRow (fun p s t hact => ?_) ho
    split at hact
    next => cases hact
    next hload =>
      dsimp only at hact
      split at hact
      next => cases hact
      next hstore =>
        cases hact
        obtain ⟨n, hn, hc⟩ := storePlace_chargesAtMost hstore
        exact ⟨n, hn, hc.trans (by rw [State.setP_cycles, loadPlace_cpu_same hload])⟩
  | place m action ha => exact execute_chargesRow (fun p s t hact => chargesAtMost_of_eq (ha p s t hact)) ho
  | implied size action ha =>
    exact executeImplied_chargesRow (fun s t hact => chargesAtMost_of_eq (ha s t hact)) ho
  | branch op8 cond =>
    refine executeImplied_chargesRow (fun s t hact => ?_) ho
    cases hact
    exact takeBranch_chargesAtMost _ _ _

/-- R148: every row of the table has 2 to 7 cycles, the page penalty included. -/
theorem entry_cycles_bounds {i : Instr} {e : Entry} (h : i.entry = some e) :
    2 ≤ e.cycles ∧ e.cycles + e.penalty ≤ 7 := by
  cases i with
  | lda m | ldx m | ldy m | sta m | stx m | sty m | adc m | sbc m | and m | ora m | eor m | cmp m | cpx m | cpy m
  | bit m | asl m | lsr m | rol m | ror m | inc m | dec m | jmp m => cases m <;> cases h <;> decide
  | nopStar | und =>
    obtain ⟨-, h⟩ := Option.ite_none_right_eq_some.1 h
    cases h
    simp
  | _ =>
    cases h
    decide

/-- The cycles a boundary charges, as a number below 2^64. -/
theorem toNat_cycles_sub {c c0 : BitVec 64} {n : Nat} (h : c = c0 + BitVec.ofNat 64 n) (hn : n ≤ 521) :
    (c - c0).toNat = n := by
  subst h
  bv_omega

/-- R405, R406: taking an interrupt charges 7 cycles. -/
theorem serviceInterrupt_cycles {k : Interrupt} {s t : State} (h : serviceInterrupt k s = .ok t) :
    t.cpu.cycles = s.cpu.cycles + BitVec.ofNat 64 7 := by
  have hvector : 0x8000 ≤ k.vector.toNat ∧ k.vector.toNat < 0xFFFF := by cases k <;> decide
  rw [serviceInterrupt, enterInterrupt_eq _ _ _ _ hvector.1 hvector.2] at h
  cases h
  rfl

/-- Settles O17: a service charges 7 cycles; an instruction charges the 2 to 7 cycles of its row and at most the stall
of the DMA its write starts, or the 2 cycles of a branch. -/
theorem boundaryCost : Obligations.BoundaryCost := by
  unfold Obligations.BoundaryCost
  intro s t h
  rcases boundary_next h with ⟨k, -, hservice⟩ | ⟨-, i, u, hfetch, hexec⟩
  · rw [toNat_cycles_sub (serviceInterrupt_cycles hservice) (by omega)]
    omega
  · obtain ⟨e, he, n, hn, hc⟩ := (exec_shape i u).chargesRow hexec
    have hbounds := entry_cycles_bounds he
    rw [fetch_cpu_same hfetch] at hc
    rw [toNat_cycles_sub hc (by omega)]
    omega

end Sys2Proof.Machine
end

section
/-! The steps of the machine and its runs (R404, R405, R454, R455, R459, R469): O4, O5, O6 and O16. -/

namespace Sys2Proof.Machine

/-! ### The step of a boundary -/

/-- R455: a step of a running machine is the CPU tick of the machine after its inputs and then three PPU ticks. -/
theorem step_of_cpuTick {s t : State} (hrun : s.fault = none) (h : cpuTick (applyInputs s) = .next t) :
    step s = .next (ppuTick (ppuTick (ppuTick t))) := by
  rw [step_of_running hrun, masterTick, h]

/-- R454, R455: a step at a boundary, by the outcome of the boundary. -/
theorem step_of_boundary {s : State} (hrun : s.fault = none) (hrem : (applyInputs s).cpu.remaining ≤ 1) :
    step s =
      match boundary ((applyInputs s).setRemaining 0) with
      | .next t => .next (ppuTick (ppuTick (ppuTick (t.schedule (applyInputs s).cpu.cycles))))
      | .fault f => .fault f
      | .refused r => .refused r := by
  rw [step_of_running hrun, masterTick, cpuTick_boundary hrem]
  cases boundary ((applyInputs s).setRemaining 0) <;> rfl

/-- R160: a boundary with nothing queued runs the instruction whose bytes stand at PC. -/
theorem boundary_of_peek {s : State} {i : Instr} {bytes : List Byte} (hpending : s.cpu.pending = none)
    (hd : decode bytes = .ok (i, []))
    (hp : ∀ k : Nat, k < bytesRead i → s.peek (s.cpu.pc + BitVec.ofNat 16 k) = bytes[k]?) : boundary s = exec i s := by
  rw [boundary, hpending]
  dsimp only
  rw [runInstruction, fetch_of_peek hd hp]

/-- Settles O4: the step is its boundary, the boundary the fetched instruction, and the fetch of plain memory changes
nothing. -/
theorem stepRunsDecodedInstruction : Obligations.StepRunsDecodedInstruction := by
  unfold Obligations.StepRunsDecodedInstruction
  rintro s u i bytes hrun rfl hpending hrem hd hp
  have hboundary : boundary ((applyInputs s).setRemaining 0) = exec i ((applyInputs s).setRemaining 0) :=
    boundary_of_peek hpending hd hp
  rw [step_of_boundary hrun hrem, hboundary]
  cases exec i ((applyInputs s).setRemaining 0) <;> rfl

/-- R405: the service of a queued interrupt, by what taking it leaves. -/
theorem serviceInterrupt_of_enterInterrupt {k : Interrupt} {s t : State}
    (h : enterInterrupt s.cpu.pc false k.vector s = .ok t) :
    serviceInterrupt k s = .ok ((t.setPending none).charge 7) := by
  rw [serviceInterrupt, h]

/-- Settles O6: the boundary is the service, which is a push of PC and the status from the machine after its inputs, the
vector, and the 7 cycles that the countdown takes. -/
theorem stepTakesInterrupt : Obligations.StepTakesInterrupt := by
  unfold Obligations.StepTakesInterrupt
  rintro s u k hrun rfl hpending hrem hwf
  set u := applyInputs s
  have hvector : 0x8000 ≤ k.vector.toNat ∧ k.vector.toNat < 0xFFFF := by cases k <;> decide
  obtain ⟨t, henter, ht, hhi, hlo, hstatus, hframe⟩ :=
    enterInterrupt_spec (u.setRemaining 0).cpu.pc false k.vector (u.setRemaining 0) hvector.1 hvector.2 hwf
  have hboundary : boundary (u.setRemaining 0) = .next ((t.setPending none).charge 7) := by
    rw [boundary, State.setRemaining_pending, hpending]
    dsimp only
    rw [serviceInterrupt_of_enterInterrupt henter]
    rfl
  refine ⟨((t.setPending none).charge 7).schedule u.cpu.cycles, ?_, ?_, ?_, hhi, hlo, hstatus, hframe⟩
  · rw [step_of_boundary hrun hrem, hboundary]
  · rw [ht]
    rfl
  · have hcycles : ((t.setPending none).charge 7).cpu.cycles = u.cpu.cycles + BitVec.ofNat 64 7 := by
      rw [ht]
      rfl
    rw [State.schedule, toNat_cycles_sub hcycles (by omega), ht]
    cases k <;> rfl

/-! ### The clock (R454, R459) -/

/-- R459: the cycle counter less the CPU ticks still to come. -/
def State.clock (s : State) : BitVec 64 := s.cpu.cycles - BitVec.ofNat 64 s.cpu.remaining

/-- R459: what the next CPU tick makes of the clock: it goes on by one, unless no tick is to come. -/
def State.nextClock (s : State) : BitVec 64 := if s.cpu.remaining = 0 then s.cpu.cycles else s.clock + 1

/-- R459: a boundary sets the countdown to what it has charged, so every CPU tick moves the clock alike. -/
theorem cpuTick_clock {s t : State} (h : cpuTick s = .next t) : t.clock = s.nextClock := by
  unfold State.nextClock State.clock
  rcases cpuTick_next h with ⟨hrem, rfl⟩ | ⟨hrem, u, -, rfl⟩
  · rw [if_neg (by omega), State.setRemaining_cycles, State.setRemaining_remaining]
    bv_omega
  · rw [State.schedule, State.setRemaining_cycles, State.setRemaining_remaining, BitVec.ofNat_toNat, BitVec.setWidth_eq]
    split
    next => bv_omega
    next hne =>
      rw [show s.cpu.remaining = 1 by omega]
      bv_omega

/-- R454: after a CPU tick a tick is always to come, since a boundary charges two cycles at least. -/
theorem cpuTick_remaining_pos {s t : State} (h : cpuTick s = .next t) : t.cpu.remaining ≠ 0 := by
  rcases cpuTick_next h with ⟨hrem, rfl⟩ | ⟨hrem, u, hu, rfl⟩
  · rw [State.setRemaining_remaining]
    omega
  · have hcost := (boundaryCost (s.setRemaining 0) u hu).1
    rw [State.setRemaining_cycles] at hcost
    rw [State.schedule, State.setRemaining_remaining]
    omega

theorem applyInputs_of_nil {s : State} (h : s.inputs = []) : applyInputs s = s := by
  rw [applyInputs, h]

theorem ppuTicks_clock (s : State) :
    (ppuTick (ppuTick (ppuTick s))).clock = s.clock ∧ (ppuTick (ppuTick (ppuTick s))).cpu.cycles = s.cpu.cycles ∧
      (ppuTick (ppuTick (ppuTick s))).cpu.remaining = s.cpu.remaining := by
  obtain ⟨k, hk⟩ := ppuTicks_cpu s
  rw [State.clock, hk]
  exact ⟨rfl, rfl, rfl⟩

/-- Settles O16: the PPU ticks leave the clock, the CPU tick moves it, and a CPU tick between boundaries charges
nothing. -/
theorem cycleAccounting : Obligations.CycleAccounting := by
  unfold Obligations.CycleAccounting
  intro s t hinputs hstep
  obtain ⟨-, u, hu, rfl⟩ := step_next hstep
  rw [applyInputs_of_nil hinputs] at hu
  obtain ⟨hclock, hcycles, -⟩ := ppuTicks_clock u
  have htick := hclock.trans (cpuTick_clock hu)
  refine ⟨fun hrem => htick.trans (if_neg hrem), fun hrem => htick.trans (if_pos hrem), fun hrem => ?_⟩
  · rw [cpuTick_count hrem] at hu
    cases hu
    exact hcycles

/-! ### Runs of instructions (R469) -/

/-- The run that stands after the CPU tick of the boundary with `k` boundaries before it, when the run `r` goes on. -/
def StopsAfter (k : Nat) (r r' : Run) : Prop :=
  ∃ (n : Nat) (u t : State), steps n r.machine = .next u ∧ boundariesIn n r.machine = k ∧ atBoundary u = true ∧
    cpuHalf u = .next t ∧ r' = { machine := t, midTick := true, ticks := r.ticks + n }

/-- R469: one instruction of a run goes to the next boundary, with the countdown as the bound on its ticks. -/
theorem Run.runInstr_succ_next {k : Nat} {r r' : Run} :
    r.runInstr (k + 1) = .next r' ↔ ∃ r1, StopsAfter 0 r.resume r1 ∧ r1.runInstr k = .next r' := by
  have hstop (r1 : Run) := Run.toBoundary_next (r := r.resume) (r' := r1) (Nat.le_refl r.resume.machine.cpu.remaining)
  rw [Run.runInstr]
  cases hb : Run.toBoundary r.resume.machine.cpu.remaining r.resume with
  | next r1 =>
    refine ⟨fun h => ⟨r1, (hstop r1).1 hb, h⟩, fun ⟨r2, h2, h⟩ => ?_⟩
    cases hb.symm.trans ((hstop r2).2 h2)
    exact h
  | fault f => exact iff_of_false nofun fun ⟨r2, h2, _⟩ => nomatch hb.symm.trans ((hstop r2).2 h2)
  | refused e => exact iff_of_false nofun fun ⟨r2, h2, _⟩ => nomatch hb.symm.trans ((hstop r2).2 h2)

/-- The step of the boundary a run has stopped in is the one that resuming it completes. -/
theorem step_of_cpuHalf {s t : State} (h : cpuHalf s = .next t) : step s = .next (ppuTick (ppuTick (ppuTick t))) := by
  rw [step_eq_cpuHalf, h]

/-- Among the steps of a run that has passed a boundary there is the first one. -/
theorem exists_first_boundary {n k : Nat} {s u : State} (hn : steps n s = .next u)
    (hk : boundariesIn n s = k + 1) :
    ∃ (m j : Nat) (v w : State), n = m + (j + 1) ∧ steps m s = .next v ∧ boundariesIn m s = 0 ∧
      atBoundary v = true ∧ step v = .next w ∧ steps j w = .next u ∧ boundariesIn j w = k := by
  induction n generalizing s with
  | zero => cases hk
  | succ n ih =>
    obtain ⟨w, hw, hu⟩ := steps_succ_next.1 hn
    rw [boundariesIn_succ hw] at hk
    cases hb : atBoundary s with
    | true =>
      rw [hb, Bool.toNat_true, Nat.add_comm] at hk
      exact ⟨0, n, s, w, by omega, rfl, rfl, hb, hw, hu, Nat.succ.inj hk⟩
    | false =>
      rw [hb, Bool.toNat_false, Nat.zero_add] at hk
      obtain ⟨m, j, v, w', hmj, hm, hcount, hv, hstep, hj, hrest⟩ := ih hu hk
      refine ⟨m + 1, j, v, w', by omega, steps_succ_next.2 ⟨w, hw, hm⟩, ?_, hv, hstep, hj, hrest⟩
      rw [boundariesIn_succ hw, hb, hcount]
      rfl

/-- Stopping at the first boundary and going on to the one with `k` boundaries before it is stopping at the one with
`k + 1` boundaries before it. -/
theorem stopsAfter_succ {k : Nat} {r r' : Run} :
    StopsAfter (k + 1) r r' ↔ ∃ r1, StopsAfter 0 r r1 ∧ StopsAfter k r1.resume r' := by
  constructor
  · rintro ⟨n, u, t, hn, hk, hu, ht, rfl⟩
    obtain ⟨m, j, v, w, rfl, hm, hcount, hv, hstep, hj, hrest⟩ := exists_first_boundary hn hk
    obtain ⟨hrun, t1, ht1, rfl⟩ := step_next hstep
    refine ⟨_, ⟨m, v, t1, hm, hcount, hv, cpuHalf_next.2 ⟨hrun, ht1⟩, rfl⟩, j, u, t, hj, hrest, hu, ht, ?_⟩
    rw [Run.resume_midTick, Nat.add_assoc, Nat.add_assoc, Nat.add_comm 1 j]
  · rintro ⟨r1, ⟨m, v, t1, hm, hcount, hv, ht1, rfl⟩, j, u, t, hj, hrest, hu, ht, rfl⟩
    rw [Run.resume_midTick] at hj hrest ⊢
    have hstep := step_of_cpuHalf ht1
    refine ⟨m + (j + 1), u, t, steps_add_next.2 ⟨v, hm, steps_succ_next.2 ⟨_, hstep, hj⟩⟩, ?_, hu, ht, ?_⟩
    · rw [boundariesIn_add hm, boundariesIn_succ hstep, hcount, hv, hrest, Bool.toNat_true, Nat.zero_add, Nat.add_comm]
    · rw [Nat.add_assoc, Nat.add_assoc, Nat.add_comm 1 j]

/-- R469: `RunInstr(k + 1)` stops at the boundary with `k` boundaries before it, and there alone. -/
theorem Run.runInstr_next_iff {k : Nat} {r r' : Run} : r.runInstr (k + 1) = .next r' ↔ StopsAfter k r.resume r' := by
  induction k generalizing r with
  | zero =>
    rw [Run.runInstr_succ_next]
    refine ⟨fun ⟨r1, h, h1⟩ => ?_, fun h => ⟨r', h, rfl⟩⟩
    cases h1
    exact h
  | succ k ih => simp only [Run.runInstr_succ_next (k := k + 1), stopsAfter_succ, ih]

/-- R459: with a silent host every step moves the clock by one. -/
theorem steps_nextClock {n : Nat} {s u : State} (hinputs : s.inputs = []) (h : steps n s = .next u) :
    u.inputs = [] ∧ u.nextClock = s.nextClock + BitVec.ofNat 64 n := by
  induction n generalizing s with
  | zero =>
    cases h
    exact ⟨hinputs, (BitVec.add_zero _).symm⟩
  | succ n ih =>
    obtain ⟨v, hv, hn⟩ := steps_succ_next.1 h
    obtain ⟨-, t, ht, hvt⟩ := step_next hv
    rw [applyInputs_of_nil hinputs] at ht
    have hv' : v.inputs = [] := by rw [step_inputs hv, hinputs]; rfl
    obtain ⟨hu, hclock⟩ := ih hv' hn
    obtain ⟨hc, -, hr⟩ := ppuTicks_clock t
    have hnext : v.nextClock = s.nextClock + 1 := by
      rw [State.nextClock, hvt, hr, if_neg (cpuTick_remaining_pos ht), hc, cpuTick_clock ht]
    refine ⟨hu, ?_⟩
    rw [hclock, hnext, BitVec.add_assoc, Nat.add_comm, BitVec.ofNat_add]
    rfl

/-- Settles O5: between boundaries the CPU tick counts down; `RunInstr` stops in the boundary's step, which resuming
completes, and the clock has then moved once for each step. -/
theorem countdownAndRunInstr : Obligations.CountdownAndRunInstr := by
  unfold Obligations.CountdownAndRunInstr
  refine ⟨?countdown, fun k r r' => ?stops, fun k r r' h => ?resumes, fun k s r hinputs hrem h => ?clock⟩
  case countdown =>
    rintro s u hrun rfl hrem
    exact step_of_cpuTick hrun (cpuTick_count hrem)
  case stops =>
    rw [Run.runInstr_next_iff]
    simp only [StopsAfter, atBoundary_iff, cpuHalf_next]
    exact ⟨fun ⟨n, u, t, hn, hk, hb, ⟨hf, ht⟩, hr⟩ => ⟨n, u, t, hn, hk, hf, hb, ht, hr⟩,
      fun ⟨n, u, t, hn, hk, hf, hb, ht, hr⟩ => ⟨n, u, t, hn, hk, hb, ⟨hf, ht⟩, hr⟩⟩
  case resumes =>
    obtain ⟨n, u, t, hn, -, -, ht, rfl⟩ := Run.runInstr_next_iff.1 h
    have hcount : r.resume.ticks + n + 1 - r.resume.ticks = n + 1 := by omega
    refine ⟨?_, rfl⟩
    dsimp only
    rw [hcount]
    exact steps_add_next.2 ⟨u, hn, steps_succ_next.2 ⟨_, step_of_cpuHalf ht, rfl⟩⟩
  case clock =>
    obtain ⟨n, u, t, hn, -, -, ht, rfl⟩ := Run.runInstr_next_iff.1 h
    obtain ⟨hu, hclock⟩ := steps_nextClock (s := s) hinputs hn
    have htick := (cpuHalf_next.1 ht).2
    rw [applyInputs_of_nil hu] at htick
    have hc : t.clock = s.cpu.cycles + BitVec.ofNat 64 n := by
      rw [cpuTick_clock htick, hclock, State.nextClock, if_pos hrem]
    have hcount : (Run.start s).resume.ticks + n + 1 = n + 1 := congrArg (· + 1) (Nat.zero_add n)
    dsimp only
    rw [hcount, BitVec.ofNat_add, ← BitVec.add_assoc]
    exact (BitVec.sub_add_cancel _ _).symm.trans (congrArg (· + BitVec.ofNat 64 t.cpu.remaining)
      (hc.trans (BitVec.add_sub_cancel _ _).symm))

end Sys2Proof.Machine
end

section
/-! The cartridge's image, power-up and the host's operations (R118 to R122, R401, R402, R420, R450, R451, R470): O9,
O10 and O11. -/

namespace Sys2Proof.Machine

/-! ### Power-up -/

theorem poweredUp_powerUp (s : State) : PoweredUp s.cart (powerUp s) where
  registers := ⟨rfl, rfl, rfl, rfl⟩
  status := (by decide : (Cpu.powerUp 0).p.reg = 0x34)
  pc := rfl
  cpuCounters := ⟨rfl, rfl, rfl⟩
  fault := rfl
  memories _ := ⟨rfl, rfl⟩
  chrRam h i := by
    have hchr : (powerUp s).cart.chr = [] := if_pos h
    rw [hchr]
    rfl
  ppuStorages _ := ⟨rfl, rfl, rfl, rfl⟩
  ppuAddresses := ⟨rfl, rfl, rfl, rfl, rfl, rfl⟩
  fetchLatches := ⟨rfl, rfl, rfl, rfl, rfl⟩
  ppuStatus := ⟨rfl, rfl, rfl⟩
  ppuCtrl := ⟨rfl, rfl, rfl, rfl, rfl, rfl⟩
  ppuMask := ⟨rfl, rfl, rfl, rfl, rfl, rfl⟩
  ppuCounters := ⟨rfl, rfl, rfl, rfl⟩
  controllers := ⟨rfl, rfl, rfl⟩
  buttons b h := by rcases h with rfl | rfl <;> rfl
  images := ⟨rfl, rfl, rfl, rfl, rfl, fun h => if_neg (by simp [h])⟩

/-- Settles O9: power-up writes each value out, and `boot` is the power-up of the machine with the built cartridge. -/
theorem powerUpValues : Obligations.PowerUpValues := by
  unfold Obligations.PowerUpValues
  refine ⟨fun s => ⟨poweredUp_powerUp s, rfl, rfl, rfl, rfl⟩, fun mode image => ⟨fun c h => ?_, fun e h => ?_⟩⟩
  · refine ⟨powerUp { State.reset with cart := c, accessMode := mode }, ?_,
      poweredUp_powerUp { State.reset with cart := c, accessMode := mode }, rfl⟩
    rw [boot, h]
  · rw [boot, h]

/-! ### The host's operations -/

theorem HostOp.apply_setInputs (op : HostOp) (s : State) (l : List (List HostOp)) :
    op.apply { s with inputs := l } = { op.apply s with inputs := l } := by
  cases op with
  | requestIrq =>
    show Machine.requestIrq _ = { Machine.requestIrq s with inputs := l }
    unfold Machine.requestIrq
    dsimp only
    cases s.cpu.p.i <;> cases s.cpu.pending <;> rfl
  | _ => rfl

/-- Settles O11: each operation is its own update, and a first operation may be taken before the others, since none
looks at the list. -/
theorem hostRequests : Obligations.HostRequests := by
  unfold Obligations.HostRequests
  intro s
  refine ⟨⟨s.resetTarget, read16_resetVector s, rfl⟩, rfl, fun hi => if_pos hi, fun hi hp => ?free, fun k hp => ?queued,
    fun _ _ => rfl, rfl, applyInputs_of_nil, fun rest h => ?none, fun op ops rest h => ?first⟩
  case free =>
    show Machine.requestIrq s = _
    rw [requestIrq, hi, hp]
    rfl
  case queued =>
    show Machine.requestIrq s = _
    rw [requestIrq, hp]
    exact ite_self s
  case none =>
    rw [applyInputs, h]
    rfl
  case first =>
    rw [applyInputs, applyInputs, h]
    dsimp only
    rw [List.foldl_cons, HostOp.apply_setInputs]

/-! ### The cartridge's image -/

/-- R119: what an image needs to build a cartridge. -/
def Accepted (image : List Byte) : Prop :=
  16 ≤ image.length ∧ image.take 4 = inesMagic ∧ mapperNumber (image.getD 6 0) (image.getD 7 0) = 0 ∧
    ((image.getD 4 0).toNat = 1 ∨ (image.getD 4 0).toNat = 2) ∧ (image.getD 5 0).toNat ≤ 1 ∧
    headerBytes + trainerBytes (image.getD 6 0) + 16384 * (image.getD 4 0).toNat + 8192 * (image.getD 5 0).toNat ≤
      image.length

/-- R118 to R122: the cartridge of an accepted image. -/
def cartridgeOf (image : List Byte) : Cartridge where
  prg := Memory.ofBytes ((image.drop (headerBytes + trainerBytes (image.getD 6 0))).take
    (16384 * (image.getD 4 0).toNat))
  prgSize := if (image.getD 4 0).toNat = 1 then .k16 else .k32
  chr := Memory.ofBytes ((image.drop (headerBytes + trainerBytes (image.getD 6 0) +
    16384 * (image.getD 4 0).toNat)).take (8192 * (image.getD 5 0).toNat))
  chrIsRam := decide ((image.getD 5 0).toNat = 0)
  wram := []
  mirroring := if (image.getD 6 0).getLsbD 0 then .vertical else .horizontal
  header :=
    { persistentRam := (image.getD 6 0).getLsbD 1
      ignoreMirroring := (image.getD 6 0).getLsbD 3
      vsUnisystem := (image.getD 7 0).getLsbD 0
      prgRamUnits := image.getD 8 0 }

theorem buildCartridge_of_accepted {image : List Byte} (h : Accepted image) :
    buildCartridge image = .ok (cartridgeOf image) := by
  obtain ⟨hlen, hmagic, hmapper, hprg, hchr, hfits⟩ := h
  have hunits : ¬((image.getD 4 0).toNat ≠ 1 ∧ (image.getD 4 0).toNat ≠ 2) := by omega
  unfold buildCartridge
  dsimp only
  rw [if_neg (by rw [headerBytes]; omega), if_neg (not_not.2 hmagic), if_neg (not_not.2 hmapper), if_neg hunits,
    if_neg (Nat.not_lt.2 hchr), if_neg (Nat.not_lt.2 hfits)]
  rfl

theorem buildCartridge_of_not_accepted {image : List Byte} (h : ¬Accepted image) :
    ∃ e, buildCartridge image = .error e := by
  unfold buildCartridge
  dsimp only
  split_ifs with hlen hmagic hmapper hprg hchr hfits
  iterate 6 exact ⟨_, rfl⟩
  refine absurd ⟨?_, not_not.1 hmagic, not_not.1 hmapper, ?_, Nat.not_lt.1 hchr, Nat.not_lt.1 hfits⟩ h
  · exact Nat.not_lt.1 hlen
  · omega

theorem Memory.inv_ofBytes {bytes : List Byte} {size : Nat} (h : bytes.length ≤ size) :
    Cells.wf (Memory.ofBytes bytes) = true ∧ Cells.below size (Memory.ofBytes bytes) = true :=
  ⟨Memory.wf_ofBytes bytes, Memory.below_ofBytesFrom bytes (by omega)⟩

/-- A part of the image, read back from the storage built of it. -/
theorem read_ofBytes_part (image : List Byte) {start n k : Nat} (hk : k < n) :
    Cells.read (Memory.ofBytes ((image.drop start).take n)) k = image.getD (start + k) 0 := by
  rw [Memory.read_ofBytes, List.getD_eq_getElem?_getD, List.getElem?_take_of_lt hk, List.getElem?_drop,
    List.getD_eq_getElem?_getD]

theorem bytes_prgSize_cartridgeOf {image : List Byte} (h : Accepted image) :
    (cartridgeOf image).prgSize.bytes = 16384 * (image.getD 4 0).toNat := by
  obtain ⟨-, -, -, hprg, -⟩ := h
  unfold cartridgeOf
  rcases hprg with hprg | hprg <;> rw [hprg] <;> rfl

theorem storageInv_cartridgeOf {image : List Byte} (h : Accepted image) :
    StorageInv { State.reset with cart := cartridgeOf image } := by
  have hempty : StorageInv State.reset := resetInvariants.1
  have hprg := bytes_prgSize_cartridgeOf h
  obtain ⟨-, -, -, -, hchr, -⟩ := h
  refine { hempty with prg := Memory.inv_ofBytes ?_, chr := Memory.inv_ofBytes ?_, wram := ⟨rfl, rfl⟩ }
  · exact (List.length_take_le _ _).trans hprg.ge
  · refine (List.length_take_le _ _).trans ?_
    omega

/-- R118: the mapper number is 0 when the two high nibbles are. -/
theorem mapperNumber_eq_zero_iff (byte6 byte7 : Byte) :
    mapperNumber byte6 byte7 = 0 ↔ byte6.extractLsb' 4 4 = 0 ∧ byte7.extractLsb' 4 4 = 0 := by
  have hdigits := toNat_append_eq_add (byte7.extractLsb' 4 4) (byte6.extractLsb' 4 4)
  rw [mapperNumber, ← BitVec.toNat_inj, ← BitVec.toNat_inj, ← BitVec.toNat_inj, hdigits]
  simp only [BitVec.toNat_zero, BitVec.ofNat_eq_ofNat]
  omega

/-- Settles O10: the conditions of the build, in order, are those of acceptance, and each storage is a part of the
image. -/
theorem cartridgeImage : Obligations.CartridgeImage := by
  unfold Obligations.CartridgeImage
  intro image byte6 prgUnits chrUnits prgStart accepted
  have hstart : headerBytes + trainerBytes byte6 = prgStart := by
    simp only [headerBytes, trainerBytes, prgStart]
    split <;> rfl
  have haccepted : accepted ↔ Accepted image := by
    simp only [accepted, Accepted, mapperNumber_eq_zero_iff, and_assoc]
    rw [← hstart]
    rfl
  rw [haccepted]
  refine ⟨fun h => ?_, buildCartridge_of_not_accepted⟩
  refine ⟨_, buildCartridge_of_accepted h, bytes_prgSize_cartridgeOf h, fun k hk => ?_, fun k hk => ?_, rfl,
    fun hchr => ?_, rfl, rfl, (storageInv_cartridgeOf h).powerUp⟩
  · rw [← hstart]
    exact read_ofBytes_part image hk
  · rw [← hstart]
    exact read_ofBytes_part image hk
  · simp only [cartridgeOf]
    rw [show (image.getD 5 0).toNat = 0 from hchr]
    rfl

end Sys2Proof.Machine
end

section
/-! Loads, stores, transfers, logic and shifts (R170 to R181, R202 to R204, R230 to R240): O18, O19, O20, O23, O25 and
O26. -/

namespace Sys2Proof.Machine

/-! ### Loads and logic -/

/-- Settles O18: each load is a reader whose action writes its register, Z and S. -/
theorem loadInstructions : Obligations.LoadInstructions := by
  unfold Obligations.LoadInstructions
  intro m s
  refine ⟨?lda, ?ldx, ?ldy⟩
  case lda => exact readsOperand_of_executeRead (by simp [operandReaders]) (exec_lda m s) fun _ _ _ _ => rfl
  case ldx => exact readsOperand_of_executeRead (by simp [operandReaders]) (exec_ldx m s) fun _ _ _ _ => rfl
  case ldy => exact readsOperand_of_executeRead (by simp [operandReaders]) (exec_ldy m s) fun _ _ _ _ => rfl

/-- Settles O23: each of the three is a reader whose action writes A, Z and S. -/
theorem logicInstructions : Obligations.LogicInstructions := by
  unfold Obligations.LogicInstructions
  intro m s
  refine ⟨?and, ?ora, ?eor⟩
  case and => exact readsOperand_of_executeRead (by simp [operandReaders]) (exec_and m s) fun _ _ _ _ => rfl
  case ora => exact readsOperand_of_executeRead (by simp [operandReaders]) (exec_ora m s) fun _ _ _ _ => rfl
  case eor => exact readsOperand_of_executeRead (by simp [operandReaders]) (exec_eor m s) fun _ _ _ _ => rfl

/-! ### Stores -/

/-- The instructions that store a register, each with the operand form `m` (R173 to R175). -/
def registerStorers (m : Operand) : List Instr := [.sta m, .stx m, .sty m]

theorem effAddr_of_store {m : Operand} {i : Instr} (hi : i ∈ registerStorers m) (hwf : i.wellFormed = true)
    (s : State) : ∃ ea, effAddr m s = some ea := by
  simp only [registerStorers, List.mem_cons, List.not_mem_nil, or_false] at hi
  cases m with
  | acc | imm | ind => rcases hi with rfl | rfl | rfl <;> cases hwf
  | _ => exact ⟨_, rfl⟩

/-- R148, R173 to R175: a store's row has the cost of its form and no page penalty. -/
theorem entry_storeCost {m : Operand} {i : Instr} {e : Entry} (hi : i ∈ registerStorers m) (s : State)
    (he : i.entry = some e) : e.cycles + (if pageCrossed m s then e.penalty else 0) = storeCost m := by
  simp only [registerStorers, List.mem_cons, List.not_mem_nil, or_false] at hi
  rcases hi with rfl | rfl | rfl <;> cases m <;> cases he <;> simp only [storeCost, ite_self]

/-- An instruction that is `executeStore` of its row has the shape of a store, when its register is one that PC and the
cost do not touch. -/
theorem storesRegister_of_executeStore {m : Operand} {i : Instr} {s : State} {reg : State → Byte}
    (hi : i ∈ registerStorers m) (hexec : exec i s = executeStore i.entry m reg s)
    (hreg : ∀ size cost : Nat, reg (s.moved size cost) = reg s) : StoresRegister i m s (reg s) := by
  intro hwf
  obtain ⟨e, he⟩ := Instr.entry_of_wellFormed hwf
  obtain ⟨ea, hea⟩ := effAddr_of_store hi hwf s
  rw [hexec, he, executeStore_mem hea, entry_storeCost hi s he, hreg]
  refine ⟨ea, hea, fun t ht => ?_, fun f hf => ?_⟩
  · rw [ht]
    rfl
  · rw [hf]
    rfl

/-- Settles O19: each store is one bus write from the state that has moved on, which has the registers of the state
before. -/
theorem storeInstructions : Obligations.StoreInstructions := by
  unfold Obligations.StoreInstructions
  intro m s
  refine ⟨?sta, ?stx, ?sty⟩
  case sta => exact storesRegister_of_executeStore (by simp [registerStorers]) (exec_sta m s) fun _ _ => rfl
  case stx => exact storesRegister_of_executeStore (by simp [registerStorers]) (exec_stx m s) fun _ _ => rfl
  case sty => exact storesRegister_of_executeStore (by simp [registerStorers]) (exec_sty m s) fun _ _ => rfl

/-! ### Register transfers, increments and decrements -/

/-- Settles O20: each is an implied instruction of one byte and 2 cycles, and its action is its own update. -/
theorem registerInstructions : Obligations.RegisterInstructions := by
  unfold Obligations.RegisterInstructions
  intro s
  exact ⟨rfl, rfl, rfl, rfl, rfl, rfl, rfl, rfl, rfl, rfl⟩

/-! ### Shifts, increments and decrements -/

/-- R232: the old carry comes in at bit 0. -/
theorem rotateLeft_eq_append (v : Byte) (p : Status) :
    rotateLeft v p = v.extractLsb' 0 7 ++ BitVec.ofBool p.c := by
  unfold rotateLeft
  refine BitVec.eq_of_getLsbD_eq fun i hlt => ?_
  interval_cases i <;> simp [↓BitVec.getLsbD_append]

/-- R233: the old carry comes in at bit 7. -/
theorem rotateRight_eq_append (v : Byte) (p : Status) :
    rotateRight v p = BitVec.ofBool p.c ++ v.extractLsb' 1 7 := by
  unfold rotateRight
  refine BitVec.eq_of_getLsbD_eq fun i hlt => ?_
  interval_cases i <;> simp [↓BitVec.getLsbD_append]

/-- R230 to R233: the accumulator form, by what it writes to A and C. -/
theorem executeModify_acc (e : Entry) (result : Byte → Status → Byte) (carry : Byte → Status → Status) (s : State) :
    executeModify (some e) .acc result carry s =
      .next { s.moved 1 e.cycles with cpu := { (s.moved 1 e.cycles).cpu with
        a := result s.cpu.a s.cpu.p
        p := (carry s.cpu.a s.cpu.p).withZS (result s.cpu.a s.cpu.p) } } := rfl

/-- Settles O25: the four shifts are the accumulator form of their rows. -/
theorem shiftAccumulator : Obligations.ShiftAccumulator := by
  unfold Obligations.ShiftAccumulator
  intro s
  refine ⟨rfl, rfl, ?_, ?_⟩
  · rw [← rotateLeft_eq_append]
    rfl
  · rw [← rotateRight_eq_append]
    rfl

/-- The instructions that modify an operand, each with the operand form `m` (R230 to R235). -/
def operandModifiers (m : Operand) : List Instr := [.asl m, .lsr m, .rol m, .ror m, .inc m, .dec m]

/-- R148, R230 to R235: a row that modifies its operand has the cost of its form and no page penalty. -/
theorem entry_modifyCost {m : Operand} {i : Instr} {e : Entry} (hi : i ∈ operandModifiers m) (s : State)
    (he : i.entry = some e) : e.cycles + (if pageCrossed m s then e.penalty else 0) = modifyCost m := by
  simp only [operandModifiers, List.mem_cons, List.not_mem_nil, or_false] at hi
  rcases hi with rfl | rfl | rfl | rfl | rfl | rfl <;> cases m <;> cases he <;> simp only [modifyCost, ite_self]

/-- A read leaves the CPU, so the state after it moves on as the state before it. -/
theorem setP_cpu_moved {s s' : State} (h : s'.cpu = s.cpu) (size cost : Nat) (p : Status) :
    { s' with cpu := (s.moved size cost).cpu }.setP p =
      { s'.moved size cost with cpu := { (s'.moved size cost).cpu with p := p } } := by
  rw [moved_cpu, ← h]
  rfl

/-- An instruction that is `executeModify` of its row has the shape of one that modifies memory. -/
theorem modifiesMemory_of_executeModify {m : Operand} {i : Instr} {s : State} {result : Byte → Status → Byte}
    {carry : Byte → Status → Status} (hi : i ∈ operandModifiers m)
    (hexec : exec i s = executeModify i.entry m result carry s) :
    ModifiesMemory i m s (fun v => result v s.cpu.p) (fun v => carry v s.cpu.p) := by
  intro hwf ea hea
  obtain ⟨e, he⟩ := Instr.entry_of_wellFormed hwf
  rw [hexec, he]
  constructor
  · intro v s' hread
    have hcpu := read8_cpu_same hread
    rw [executeModify_mem hea hread, entry_modifyCost hi s he, setP_cpu_moved hcpu]
    refine ⟨fun t ht => ?_, fun f hf => ?_⟩
    · rw [ht]
      rfl
    · rw [hf]
      rfl
  · intro f hread
    rw [executeModify_error hea hread, entry_modifyCost hi s he]
    obtain ⟨reason, rfl⟩ := read8_error hread
    rfl

/-- Settles O26: each of the six is one read and one write at its effective address; a rotate is an append of its
carry. -/
theorem modifyMemory : Obligations.ModifyMemory := by
  unfold Obligations.ModifyMemory
  intro m s
  simp only [← rotateLeft_eq_append, ← rotateRight_eq_append]
  refine ⟨?asl, ?lsr, ?rol, ?ror, ?inc, ?dec⟩
  case asl => exact modifiesMemory_of_executeModify (by simp [operandModifiers]) (exec_asl m s)
  case lsr => exact modifiesMemory_of_executeModify (by simp [operandModifiers]) (exec_lsr m s)
  case rol => exact modifiesMemory_of_executeModify (by simp [operandModifiers]) (exec_rol m s)
  case ror => exact modifiesMemory_of_executeModify (by simp [operandModifiers]) (exec_ror m s)
  case inc => exact modifiesMemory_of_executeModify (by simp [operandModifiers]) (exec_inc m s)
  case dec => exact modifiesMemory_of_executeModify (by simp [operandModifiers]) (exec_dec m s)

end Sys2Proof.Machine
end

section
/-! Branches, jumps, the stack, the flags and the no-operations (R260 to R274, R290 to R308): O27, O28, O31, O32, O33,
O34, O35 and O36. -/

namespace Sys2Proof.Machine

/-! ### Branches and jumps -/

/-- R260, R145: a branch of 2 cycles, by its condition on the flags. -/
theorem executeBranch_eq (op : Byte) (d : Byte) (cond : Status → Bool) (s : State) :
    executeBranch (some ⟨op, 2, 0⟩) d cond s =
      .next (if cond s.cpu.p = true then
        { s with cpu := { s.cpu with
          pc := s.cpu.pc + 2 + d.signExtend 16
          cycles := s.cpu.cycles +
            if hiByte (s.cpu.pc + 2) = hiByte (s.cpu.pc + 2 + d.signExtend 16) then 3 else 4 } }
      else { s with cpu := { s.cpu with pc := s.cpu.pc + 2, cycles := s.cpu.cycles + 2 } }) := by
  have hmoved : executeBranch (some ⟨op, 2, 0⟩) d cond s = .next (takeBranch (cond s.cpu.p) d (s.moved 2 2)) := rfl
  have hcost : s.cpu.cycles + 2 + BitVec.ofNat 64 (if crossesPage (s.cpu.pc + 2) (s.cpu.pc + 2 + d.signExtend 16) then 2
      else 1) = s.cpu.cycles + if hiByte (s.cpu.pc + 2) = hiByte (s.cpu.pc + 2 + d.signExtend 16) then 3 else 4 := by
    rw [crossesPage_eq, BitVec.add_assoc]
    generalize hiByte (s.cpu.pc + 2) = page
    generalize hiByte (s.cpu.pc + 2 + d.signExtend 16) = page'
    by_cases hpage : page = page' <;> simp [hpage]
  rw [hmoved, takeBranch, ← hcost]
  split <;> rfl

/-- Settles O27: each branch is `executeBranch` of its row with its condition. -/
theorem branchInstructions : Obligations.BranchInstructions := by
  unfold Obligations.BranchInstructions
  intro d s
  simp only [exec_bcc, exec_bcs, exec_bne, exec_beq, exec_bpl, exec_bmi, exec_bvc, exec_bvs, Instr.entry,
    executeBranch_eq, Bool.not_eq_true', and_self]

/-- Settles O28: the absolute form reads nothing; the indirect form is the two reads of its pointer, which leave the
CPU. -/
theorem jumpInstructions : Obligations.JumpInstructions := by
  unfold Obligations.JumpInstructions
  intro w s
  refine ⟨rfl, fun lo hi s1 s2 hlo hhi => ?reads, fun f hlo => ?low, fun lo s1 f hlo hhi => ?high⟩
  all_goals simp only [exec_jmp, jmpEntry, execute, resolve, read16PageWrap, nextInPage, hlo]
  case reads =>
    rw [hhi]
    have hcpu : s2.cpu = s.cpu := (read8_cpu_same hhi).trans (read8_cpu_same hlo)
    simp only [retire_eq, answer, State.setPc, State.moved, hcpu]
    rfl
  case high => rw [hhi]

/-! ### Returns and software interrupts -/

/-- Settles O31: RTI is the return from an interrupt, from the slots of the state before. -/
theorem returnFromInterrupt : Obligations.ReturnFromInterrupt := by
  unfold Obligations.ReturnFromInterrupt
  intro s m lo hi hm hlo hhi
  rw [exec_rti, Instr.entry, executeImplied_some, leaveInterrupt_of_peek (s := s.moved 1 6) hm hlo hhi]
  rfl

/-- Settles O32: BRK takes an interrupt from the state that has moved past its two bytes. -/
theorem breakInstruction : Obligations.BreakInstruction := by
  unfold Obligations.BreakInstruction
  intro s hwf
  obtain ⟨t, henter, ht, hhi, hlo, hstatus, hframe⟩ :=
    enterInterrupt_spec (s.cpu.pc + 2) true Config.irqVector (s.moved 2 7) (by decide) (by decide) hwf
  refine ⟨t, ?_, ht, hhi, hlo, hstatus, hframe⟩
  rw [exec_brk, Instr.entry, executeImplied_some]
  exact congrArg answer henter

/-! ### Pushes and pulls -/

/-- R36: the status image that PHP pushes. -/
theorem Status.image_true (p : Status) :
    p.image true = BitVec.ofBool p.s ++ BitVec.ofBool p.v ++ 0b11#2 ++ BitVec.ofBool p.d ++ BitVec.ofBool p.i ++
      BitVec.ofBool p.z ++ BitVec.ofBool p.c := by
  have himage : ∀ s v d i z c : Bool,
      BitVec.ofBool s ++ BitVec.ofBool v ++ 1#1 ++ BitVec.ofBool true ++ BitVec.ofBool d ++ BitVec.ofBool i ++
        BitVec.ofBool z ++ BitVec.ofBool c =
      BitVec.ofBool s ++ BitVec.ofBool v ++ 0b11#2 ++ BitVec.ofBool d ++ BitVec.ofBool i ++ BitVec.ofBool z ++
        BitVec.ofBool c := by
    decide
  exact himage p.s p.v p.d p.i p.z p.c

/-- Settles O33: each is one push from the state that has moved on. -/
theorem pushInstructions : Obligations.PushInstructions := by
  unfold Obligations.PushInstructions
  intro s hwf
  have hpush (v : Byte) := push_spec v (s.moved 1 3) hwf
  constructor
  · obtain ⟨t, ht, heq, -, hslot, hframe⟩ := hpush s.cpu.a
    exact ⟨t, congrArg answer ht, heq, hslot, hframe⟩
  · obtain ⟨t, ht, heq, -, hslot, hframe⟩ := hpush (s.cpu.p.image true)
    rw [Status.image_true] at hslot
    exact ⟨t, congrArg answer ht, heq, hslot, hframe⟩

/-- Settles O34: each is one pop from the state that has moved on, which has the slot of the state before. -/
theorem pullInstructions : Obligations.PullInstructions := by
  unfold Obligations.PullInstructions
  intro s m hm
  have hpop : pop (s.moved 1 4) = .ok (m, (s.moved 1 4).setSp (s.cpu.sp + 1)) := pop_of_peek (s := s.moved 1 4) hm
  constructor
  · rw [exec_pla, Instr.entry, executeImplied_some, hpop]
    rfl
  · rw [exec_plp, Instr.entry, executeImplied_some, hpop]
    rfl

/-! ### Flags and no-operations -/

/-- Settles O35: each is an implied instruction of one byte and 2 cycles that writes its flag. -/
theorem flagInstructions : Obligations.FlagInstructions := by
  unfold Obligations.FlagInstructions
  intro s
  exact ⟨rfl, rfl, rfl, rfl, rfl, rfl, rfl⟩

/-- Settles O36: each has a row of 2 cycles and an action that leaves the state as it is. -/
theorem noOperations : Obligations.NoOperations := by
  unfold Obligations.NoOperations
  intro s
  refine ⟨rfl, fun op form hwf => ?_, fun op hwf => ?_⟩
  · have hentry : (Instr.nopStar op form).entry = some ⟨op, 2, 0⟩ := if_pos hwf
    rw [exec_nopStar, hentry]
    rfl
  · have hentry : (Instr.und op).entry = some ⟨op, 2, 0⟩ := if_pos hwf
    rw [exec_und, hentry]
    rfl

end Sys2Proof.Machine
end

section
/-! The frames of operand reads and of storing instructions (R110, R173 to R175, R230 to R235): O37 and O38. -/

namespace Sys2Proof.Machine

/-! ### The addresses of the devices -/

theorem eq_of_target_oamDma {a : Addr} (h : target a = .oamDma) : a = 0x4014 := by
  have hinv := target_inv a
  rw [h] at hinv
  exact BitVec.eq_of_toNat_eq hinv

theorem eq_of_target_ctrl1 {a : Addr} (h : target a = .ctrl1) : a = 0x4016 := by
  have hinv := target_inv a
  rw [h] at hinv
  exact BitVec.eq_of_toNat_eq hinv

theorem eq_of_target_ctrl2 {a : Addr} (h : target a = .ctrl2) : a = 0x4017 := by
  have hinv := target_inv a
  rw [h] at hinv
  exact BitVec.eq_of_toNat_eq hinv

/-! ### Reads -/

/-- R110: what a completed bus read leaves of the state before it. -/
structure ReadFrame (a : Addr) (s t : State) : Prop where
  rest : t = { s with ppu := t.ppu, ctrl := t.ctrl }
  status : t.ppu = { s.ppu with
    vblank := t.ppu.vblank, w := t.ppu.w, readBuffer := t.ppu.readBuffer, v := t.ppu.v }
  ppu : ¬IsPort 2 a → ¬IsPort 7 a → t.ppu = s.ppu
  ctrl : a ≠ 0x4016 → a ≠ 0x4017 → t.ctrl = s.ctrl

theorem ReadFrame.peek {a : Addr} {s t : State} (h : ReadFrame a s t) (b : Addr) : t.peek b = s.peek b := by
  rw [h.rest]
  exact peek_congr rfl rfl b

theorem readFrame_of_read8 {a : Addr} {s t : State} {v : Byte} (h : read8 a s = .ok (v, t)) : ReadFrame a s t := by
  rcases read8_ok h with rfl | ⟨hport, rfl⟩ | ⟨hport, rfl⟩ | ⟨hctrl, rfl⟩ | ⟨hctrl, rfl⟩
  · exact ⟨rfl, rfl, fun _ _ => rfl, fun _ _ => rfl⟩
  · exact ⟨rfl, rfl, fun h2 _ => absurd (isPort_of_target hport) h2, fun _ _ => rfl⟩
  · exact ⟨rfl, rfl, fun _ h7 => absurd (isPort_of_target hport) h7, fun _ _ => rfl⟩
  · obtain ⟨c, hc⟩ := ctrlRead1_snd s
    rw [hc]
    exact ⟨rfl, rfl, fun _ _ => rfl, fun h1 _ => absurd (eq_of_target_ctrl1 hctrl) h1⟩
  · obtain ⟨c, hc⟩ := ctrlRead2_snd s
    rw [hc]
    exact ⟨rfl, rfl, fun _ _ => rfl, fun _ h2 => absurd (eq_of_target_ctrl2 hctrl) h2⟩

/-- R158: an operand is read through the bus at its effective address, or without the bus when it has none. -/
theorem operandRead_cases {m : Operand} {s s' : State} {v : Byte} (h : operandRead m s = .ok (v, s')) :
    (effAddr m s = none ∧ s' = s) ∨ ∃ a, effAddr m s = some a ∧ read8 a s = .ok (v, s') := by
  cases m with
  | imm | acc | ind =>
    cases h
    exact .inl ⟨rfl, rfl⟩
  | _ => exact .inr ⟨_, rfl, h⟩

/-- Settles O37: an operand is one bus read, which leaves what its port does not change. -/
theorem operandReadFrame : Obligations.OperandReadFrame := by
  unfold Obligations.OperandReadFrame
  intro m s s' v h
  rcases operandRead_cases h with ⟨hnone, rfl⟩ | ⟨a, hea, hread⟩
  · exact ⟨rfl, fun _ => rfl, rfl, fun _ _ _ _ => rfl, fun _ _ _ _ => rfl, fun _ => rfl⟩
  · have hframe := readFrame_of_read8 hread
    refine ⟨hframe.rest, hframe.peek, hframe.status, fun b hb => ?_, fun b hb => ?_, fun hnone => ?_⟩
    · cases hea.symm.trans hb
      exact hframe.ppu
    · cases hea.symm.trans hb
      exact hframe.ctrl
    · cases hea.symm.trans hnone

/-! ### Stores -/

/-- What an instruction that stores at `a` leaves: the memory but for the byte there, the PPU and the controllers but
for their ports, and the registers but for P, PC and the cycles. -/
structure StoredAt (m : Operand) (s t : State) (a : Addr) : Prop where
  peek : ∀ b : Addr, target b ≠ target a → t.peek b = s.peek b
  cpu : t.cpu = { s.cpu with p := t.cpu.p, pc := s.cpu.pc + BitVec.ofNat 16 m.size, cycles := t.cpu.cycles }
  ppu : (∀ r : Nat, ¬IsPort r a) → a ≠ 0x4014 → t.ppu = s.ppu
  ctrl : a ≠ 0x4014 → a ≠ 0x4016 → a ≠ 0x4017 → t.ctrl = s.ctrl

/-- A bus write from a state that has read at most at the same address, and has moved on. -/
theorem storedAt_of_write8 {m : Operand} {a : Addr} {v : Byte} {s u t : State} {p : Status} {cost : Nat}
    (hu : ReadFrame a s u)
    (h : write8 a v { u with cpu := { (s.moved m.size cost).cpu with p := p } } = .ok t) :
    StoredAt m s t a ∧ t.cpu.p = p := by
  obtain ⟨-, hcpu, hpeek, -, hppu, hctrl⟩ := write8_frame h
  refine ⟨⟨fun b hb => ?_, ?_, fun hport hdma => ?_, fun hdma h1 h2 => ?_⟩, congrArg Cpu.p hcpu⟩
  · exact (hpeek b hb).trans ((peek_congr rfl rfl b).trans (hu.peek b))
  · rw [hcpu, moved_cpu]
  · exact (hppu (fun r hr => hport _ (isPort_of_target hr)) fun hd => hdma (eq_of_target_oamDma hd)).trans
      (hu.ppu (hport 2) (hport 7))
  · exact (hctrl (fun hc => h1 (eq_of_target_ctrl1 hc)) fun hd => hdma (eq_of_target_oamDma hd)).trans (hu.ctrl h1 h2)

/-- An instruction that completes is a row of the table. -/
theorem wellFormed_of_exec_next {i : Instr} {s t : State} (h : exec i s = .next t) : i.wellFormed = true := by
  by_contra hwf
  have hrefused := onlyIllFormedRefused.1 i s (Bool.eq_false_iff.2 hwf)
  cases h.symm.trans hrefused

/-- R173 to R175: a completed store is one write at its effective address. -/
theorem storedAt_of_storesRegister {i : Instr} {m : Operand} {s t : State} {v : Byte} (hi : StoresRegister i m s v)
    (h : exec i s = .next t) : ∃ a, effAddr m s = some a ∧ StoredAt m s t a ∧ t.cpu.p = s.cpu.p := by
  obtain ⟨a, ha, hok, herr⟩ := hi (wellFormed_of_exec_next h)
  cases hw : write8 a v (s.moved m.size (storeCost m)) with
  | error f => cases h.symm.trans (herr f hw)
  | ok u =>
    cases h.symm.trans (hok u hw)
    have hself : ReadFrame a s s := ⟨rfl, rfl, fun _ _ => rfl, fun _ _ => rfl⟩
    exact ⟨a, ha, storedAt_of_write8 hself hw⟩

/-- R240: a completed instruction that modifies memory is a read and a write at its effective address, and then Z and
S. -/
theorem storedAt_of_modifiesMemory {i : Instr} {m : Operand} {s t : State} {result : Byte → Byte}
    {flags : Byte → Status} (hi : ModifiesMemory i m s result flags) {a : Addr} (ha : effAddr m s = some a)
    (h : exec i s = .next t) : StoredAt m s t a ∧ ∃ v r, t.cpu.p = (flags v).withZS r := by
  obtain ⟨hok, herr⟩ := hi (wellFormed_of_exec_next h) a ha
  cases hread : read8 a s with
  | error f => cases h.symm.trans (herr f hread)
  | ok r =>
    obtain ⟨v, u⟩ := r
    obtain ⟨hok', herr'⟩ := hok v u hread
    have hstate : { u.moved m.size (modifyCost m) with
          cpu := { (u.moved m.size (modifyCost m)).cpu with p := flags v } } =
        { u with cpu := { (s.moved m.size (modifyCost m)).cpu with p := flags v } } := by
      rw [← setP_cpu_moved (read8_cpu_same hread)]
      rfl
    rw [hstate] at hok' herr'
    cases hw : write8 a (result v) { u with cpu := { (s.moved m.size (modifyCost m)).cpu with p := flags v } } with
    | error f => cases h.symm.trans (herr' f hw)
    | ok w =>
      cases h.symm.trans (hok' w hw)
      obtain ⟨⟨hpeek, hcpu, hppu, hctrl⟩, hp⟩ := storedAt_of_write8 (readFrame_of_read8 hread) hw
      refine ⟨⟨fun b hb => (peek_congr rfl rfl b).trans (hpeek b hb), ?_, hppu, hctrl⟩, v, result v, ?_⟩
      · rw [hcpu]
      · rw [hp]

/-- What a storing instruction that completes leaves, in either of its forms: a write at its effective address, or of A
alone (R159). -/
def Stored (m : Operand) (s t : State) : Prop :=
  (∃ a, effAddr m s = some a ∧ StoredAt m s t a) ∨
    (m = .acc ∧ t = { s with cpu :=
      { s.cpu with a := t.cpu.a, p := t.cpu.p, pc := s.cpu.pc + BitVec.ofNat 16 m.size, cycles := t.cpu.cycles } })

/-- Which flags a storing instruction may write: a store none, INC and DEC not C, the others C, Z and S. -/
structure StoreFlags (i : Instr) (m : Operand) (s t : State) : Prop where
  size : i.size = m.size
  kept : t.cpu.p = { s.cpu.p with c := t.cpu.p.c, z := t.cpu.p.z, s := t.cpu.p.s }
  store : i ∈ [.sta m, .stx m, .sty m] → t.cpu.p = s.cpu.p
  count : i ∈ [.inc m, .dec m] → t.cpu.p.c = s.cpu.p.c

theorem effAddr_of_modify {m : Operand} {i : Instr} (hi : i ∈ operandModifiers m) (hwf : i.wellFormed = true)
    (s : State) : m = .acc ∨ ∃ a, effAddr m s = some a := by
  simp only [operandModifiers, List.mem_cons, List.not_mem_nil, or_false] at hi
  cases m with
  | acc => exact .inl rfl
  | imm | ind => rcases hi with rfl | rfl | rfl | rfl | rfl | rfl <;> cases hwf
  | _ => exact .inr ⟨_, rfl⟩

theorem stored_of_executeModify {i : Instr} {m : Operand} {s t : State} {result : Byte → Status → Byte}
    {carry : Byte → Status → Status} (hi : i ∈ operandModifiers m)
    (hexec : exec i s = executeModify i.entry m result carry s) (h : exec i s = .next t) :
    Stored m s t ∧ ∃ v r, t.cpu.p = (carry v s.cpu.p).withZS r := by
  have hwf := wellFormed_of_exec_next h
  rcases effAddr_of_modify hi hwf s with rfl | ⟨a, ha⟩
  · obtain ⟨e, he⟩ := Instr.entry_of_wellFormed hwf
    rw [hexec, he, executeModify_acc] at h
    cases h
    exact ⟨.inr ⟨rfl, rfl⟩, s.cpu.a, result s.cpu.a s.cpu.p, rfl⟩
  · obtain ⟨hstored, hp⟩ := storedAt_of_modifiesMemory (modifiesMemory_of_executeModify hi hexec) ha h
    exact ⟨.inl ⟨a, ha, hstored⟩, hp⟩

theorem stored_of_store {i : Instr} {m : Operand} {s t : State} {v : Byte} (hi : StoresRegister i m s v)
    (hsize : i.size = m.size) (h : exec i s = .next t) : Stored m s t ∧ StoreFlags i m s t := by
  obtain ⟨a, ha, hstored, hp⟩ := storedAt_of_storesRegister hi h
  exact ⟨.inl ⟨a, ha, hstored⟩, hsize, by rw [hp], fun _ => hp, fun _ => by rw [hp]⟩

/-- R230 to R233: a shift or a rotate writes C. -/
theorem stored_of_shift {i : Instr} {m : Operand} {s t : State} {result : Byte → Status → Byte}
    {carry : Byte → Status → Status} (hi : i ∈ [.asl m, .lsr m, .rol m, .ror m])
    (hexec : exec i s = executeModify i.entry m result carry s)
    (hcarry : ∀ v p, ∃ c, carry v p = { p with c := c }) (h : exec i s = .next t) :
    Stored m s t ∧ StoreFlags i m s t := by
  have hmem : i ∈ operandModifiers m := List.mem_append_left [Instr.inc m, Instr.dec m] hi
  obtain ⟨hstored, v, r, hp⟩ := stored_of_executeModify hmem hexec h
  obtain ⟨c, hc⟩ := hcarry v s.cpu.p
  rw [hc] at hp
  simp only [List.mem_cons, List.not_mem_nil, or_false] at hi
  refine ⟨hstored, ?_, by rw [hp]; rfl, fun hs => ?_, fun hcount => ?_⟩ <;> rcases hi with rfl | rfl | rfl | rfl
  iterate 4 rfl
  iterate 4 simp at hs
  iterate 4 simp at hcount

/-- R234, R235: INC and DEC leave C. -/
theorem stored_of_count {i : Instr} {m : Operand} {s t : State} {result : Byte → Status → Byte}
    (hi : i ∈ [.inc m, .dec m]) (hexec : exec i s = executeModify i.entry m result (fun _ p => p) s)
    (h : exec i s = .next t) : Stored m s t ∧ StoreFlags i m s t := by
  have hmem : i ∈ operandModifiers m := List.mem_append_right [Instr.asl m, Instr.lsr m, Instr.rol m, Instr.ror m] hi
  obtain ⟨hstored, v, r, hp⟩ := stored_of_executeModify hmem hexec h
  simp only [List.mem_cons, List.not_mem_nil, or_false] at hi
  refine ⟨hstored, ?_, by rw [hp]; rfl, fun hs => ?_, fun _ => by rw [hp]; rfl⟩ <;> rcases hi with rfl | rfl
  iterate 2 rfl
  iterate 2 simp at hs

theorem stored_of_exec {i : Instr} {m : Operand} {s t : State}
    (hi : i ∈ [.sta m, .stx m, .sty m, .asl m, .lsr m, .rol m, .ror m, .inc m, .dec m]) (h : exec i s = .next t) :
    Stored m s t ∧ StoreFlags i m s t := by
  obtain ⟨hsta, hstx, hsty⟩ := storeInstructions m s
  simp only [List.mem_cons, List.not_mem_nil, or_false] at hi
  rcases hi with rfl | rfl | rfl | rfl | rfl | rfl | rfl | rfl | rfl
  · exact stored_of_store hsta rfl h
  · exact stored_of_store hstx rfl h
  · exact stored_of_store hsty rfl h
  · exact stored_of_shift (by simp) (exec_asl m s) (fun _ _ => ⟨_, rfl⟩) h
  · exact stored_of_shift (by simp) (exec_lsr m s) (fun _ _ => ⟨_, rfl⟩) h
  · exact stored_of_shift (by simp) (exec_rol m s) (fun _ _ => ⟨_, rfl⟩) h
  · exact stored_of_shift (by simp) (exec_ror m s) (fun _ _ => ⟨_, rfl⟩) h
  · exact stored_of_count (by simp) (exec_inc m s) h
  · exact stored_of_count (by simp) (exec_dec m s) h

/-- Settles O38: the instruction has stored at its effective address, or in A when it has none. -/
theorem storeFrame : Obligations.StoreFrame := by
  unfold Obligations.StoreFrame
  intro m s t i hi h
  obtain ⟨hstored, hsize, hkept, hstore, hcount⟩ := stored_of_exec hi h
  rw [hsize]
  rcases hstored with ⟨a, hea, hpeek, hcpu, hppu, hctrl⟩ | ⟨rfl, ht⟩
  · refine ⟨fun b hb => ?_, fun hnone => ?_, ?_, fun _ => ?_, hkept, hstore, hcount, fun b hb => ?_, fun b hb => ?_,
      fun hnone => ?_⟩
    · cases hea.symm.trans hb
      exact hpeek
    · cases hea.symm.trans hnone
    · rw [hcpu]
    · rw [hcpu]
    · cases hea.symm.trans hb
      exact hppu
    · cases hea.symm.trans hb
      exact hctrl
    · cases hea.symm.trans hnone
  · refine ⟨nofun, fun _ b => ?_, ?_, fun hne => absurd rfl hne, hkept, hstore, hcount, nofun, nofun, fun _ => ?_⟩
    · rw [ht]
      exact peek_congr rfl rfl b
    · rw [ht]
    · rw [ht]
      exact ⟨rfl, rfl, rfl⟩

end Sys2Proof.Machine
end

section
/-! The cartridge's addresses, the stubs and the controllers on the CPU bus (R83 to R94, R418, R419): O40, O42 and
O44. -/

namespace Sys2Proof.Machine

/-! ### The cartridge's addresses -/

/-- R92: work RAM has no mirrors. -/
theorem target_ne_of_wram {a b : Addr} (h : 0x6000 ≤ a.toNat) (h' : a.toNat ≤ 0x7FFF) (hb : b ≠ a) :
    target b ≠ target a := by
  rw [target_of_wram h h']
  intro hba
  have hinv := target_inv b
  rw [hba] at hinv
  exact hb (BitVec.eq_of_toNat_eq (by simp only at hinv; omega))

theorem write8_of_wram {a : Addr} {i : Nat} (h : target a = .wram i) (v : Byte) (s : State) :
    write8 a v s = .ok (s.setCart { s.cart with wram := Cells.write s.cart.wram i v }) := by
  simp only [write8, h]

theorem peek_of_wram {a : Addr} {i : Nat} (h : target a = .wram i) (s : State) :
    s.peek a = some (Cells.read s.cart.wram i) := by
  simp only [State.peek, h]

/-- R93: the byte of the image. -/
theorem read8_prg {a : Addr} (h : 0x8000 ≤ a.toNat) (s : State) :
    read8 a s = .ok (Cells.read s.cart.prg ((a.toNat - 0x8000) % s.cart.prgSize.bytes), s) :=
  read8_of_prg (target_of_ge_8000 h) s

/-- Settles O40: work RAM is selected by its own address alone, and PRG by the offset modulo the image's size. -/
theorem cartridgeSpace : Obligations.CartridgeSpace := by
  unfold Obligations.CartridgeSpace
  intro a v s
  refine ⟨fun hwf h h' => ?wram, fun h => ⟨?ignored, read8_prg h s, ?size, fun hsize hlt u hu => ?twice⟩⟩
  case wram =>
    have hta := target_of_wram h h'
    have hwrite := write8_of_wram hta v s
    obtain ⟨-, -, hpeek, -⟩ := write8_frame hwrite
    refine ⟨_, hwrite, read8_of_peek ?_, rfl, fun b hb => hpeek b (target_ne_of_wram h h' hb)⟩
    rw [peek_of_wram hta]
    exact congrArg some (Cells.read_write_self (lo := 0) _ _ hwf)
  case ignored => simp only [write8, target_of_ge_8000 h]
  case size => cases s.cart.prgSize <;> rfl
  case twice =>
    have ha : (a + 0x4000).toNat = a.toNat + 0x4000 := by bv_omega
    have hcell : (a.toNat + 0x4000 - 0x8000) % 16384 = (a.toNat - 0x8000) % 16384 := by omega
    rw [read8_prg h, hsize] at hu
    rw [read8_prg (by omega), ha, hsize, ← hu]
    exact congrArg (fun k => Except.ok (Cells.read s.cart.prg k, s)) hcell

/-! ### The stubs and the programmer errors -/

theorem target_apuStatus : target 0x4015 = .apuStatus := by decide

theorem target_oamDma : target 0x4014 = .oamDma := by decide

theorem target_ctrl1 : target 0x4016 = .ctrl1 := by decide

theorem target_ctrl2 : target 0x4017 = .ctrl2 := by decide

theorem target_of_test {a : Addr} (h : 0x4018 ≤ a.toNat) (h' : a.toNat ≤ 0x401F) : target a = .test := by
  have hinv := target_inv a
  cases hta : target a
  case test => rfl
  all_goals
    rw [hta] at hinv
    simp only at hinv
    omega

theorem target_of_unmapped {a : Addr} (h : 0x4020 ≤ a.toNat) (h' : a.toNat ≤ 0x5FFF) : target a = .unmapped := by
  have hinv := target_inv a
  cases hta : target a
  case unmapped => rfl
  all_goals
    rw [hta] at hinv
    simp only at hinv
    omega

theorem read8_of_unmapped {a : Addr} (h : target a = .unmapped) (s : State) :
    read8 a s = progErrRead (.unmapped a) s := by
  simp only [read8, h]

/-- R337: the ports 0, 1, 3, 5 and 6 are write-only. -/
theorem read8_of_writeOnlyPort {r : Nat} {a : Addr} (hr : r ∈ [0, 1, 3, 5, 6]) (h : IsPort r a) (s : State) :
    read8 a s = progErrRead (.writeOnlyRead a) s := by
  simp only [read8, target_of_isPort h]
  simp only [List.mem_cons, List.not_mem_nil, or_false] at hr
  rcases hr with rfl | rfl | rfl | rfl | rfl <;> rfl

/-- Settles O42: the decoder sends each address to its stub or to the programmer error of its reason. -/
theorem programmerErrors : Obligations.ProgrammerErrors := by
  unfold Obligations.ProgrammerErrors
  intro a v s
  refine ⟨fun ha => ?stubRead, fun ha => ?stubWrite, fun r hr ha => ?writeOnly, fun ha => ?status, ?dma,
    fun h h' => ⟨?unmappedRead, ?unmappedWrite⟩⟩
  case stubRead =>
    rcases ha with rfl | ⟨h, h'⟩
    · simp only [read8, target_apuStatus]
    · simp only [read8, target_of_test h h']
  case stubWrite =>
    rcases ha with rfl | ⟨h, h'⟩
    · simp only [write8, target_apuStatus]
    · rcases Nat.lt_or_ge 0x4017 a.toNat with hlt | hge
      · simp only [write8, target_of_test hlt h']
      · obtain rfl : a = 0x4017 := BitVec.eq_of_toNat_eq (Nat.le_antisymm hge h)
        simp only [write8, target_ctrl2]
  case writeOnly =>
    rw [read8_of_writeOnlyPort hr ha]
    rfl
  case status =>
    simp only [write8, target_of_isPort ha]
    rfl
  case dma =>
    simp only [read8, target_oamDma]
    rfl
  case unmappedRead =>
    rw [read8_of_unmapped (target_of_unmapped h h')]
    rfl
  case unmappedWrite =>
    simp only [write8, target_of_unmapped h h']
    rfl

/-! ### The controllers -/

theorem read8_ctrl1 (s : State) : read8 0x4016 s = .ok (ctrlRead1 s) := by
  simp only [read8, target_ctrl1]

theorem read8_ctrl2 (s : State) : read8 0x4017 s = .ok (ctrlRead2 s) := by
  simp only [read8, target_ctrl2]

theorem write8_ctrl1 (v : Byte) (s : State) : write8 0x4016 v s = .ok (ctrlWrite v s) := by
  simp only [write8, target_ctrl1]

/-- R56, R418: the buttons in the order they are delivered, and then 1. -/
theorem Buttons.bit_eq_getD (b : Buttons) :
    ∀ i : Nat, b.bit i = [b.a, b.b, b.select, b.start, b.up, b.down, b.left, b.right].getD i true
  | 0 | 1 | 2 | 3 | 4 | 5 | 6 | 7 | _ + 8 => rfl

theorem byte_of_bit (b : Bool) : (BitVec.ofBool b).setWidth 8 = if b then (0x01 : Byte) else 0x00 := by
  cases b <;> rfl

theorem nextIndex_eq_min {i : Nat} (h : i ≤ 8) : nextIndex i = min 8 (i + 1) := by
  unfold nextIndex
  split <;> omega

/-- Settles O44: the two reads and the write of the port, by the strobe and the value's bit 0. -/
theorem controllerPorts : Obligations.ControllerPorts := by
  unfold Obligations.ControllerPorts
  intro v s bits
  refine ⟨fun hv => ?start, fun hv hs => ?stop, fun hv hs => ?idle, fun hs hi => ?first, fun hs hi => ?second,
    fun hs => ⟨?firstStrobed, ?secondStrobed⟩⟩
  case start =>
    rw [write8_ctrl1, ctrlWrite, hv, Bool.or_true]
    rfl
  case stop =>
    rw [write8_ctrl1, ctrlWrite, hv, hs]
    rfl
  case idle =>
    rw [write8_ctrl1, ctrlWrite, hv, hs]
    simp only [Bool.or_false, Bool.false_eq_true, if_false]
    rw [← hs]
    rfl
  case first =>
    rw [read8_ctrl1, ctrlRead1, if_neg (by simp [hs]), byte_of_bit, Buttons.bit_eq_getD, nextIndex_eq_min hi]
    rfl
  case second =>
    rw [read8_ctrl2, ctrlRead2, if_neg (by simp [hs]), byte_of_bit, Buttons.bit_eq_getD, nextIndex_eq_min hi]
    rfl
  case firstStrobed =>
    rw [read8_ctrl1, ctrlRead1, if_pos hs]
    dsimp only
    rw [byte_of_bit]
    rfl
  case secondStrobed =>
    rw [read8_ctrl2, ctrlRead2, if_pos hs]
    dsimp only
    rw [byte_of_bit]
    rfl

end Sys2Proof.Machine
end

section
/-! The PPU's register ports and its address space (R100 to R105, R321 to R336): O45, O46, O47, O48, O49, O51 and
O52. -/

namespace Sys2Proof.Machine

/-! ### A port by its number -/

theorem write8_of_port {r : Nat} {a : Addr} (h : IsPort r a) (v : Byte) (s : State) :
    write8 a v s = ppuRegWrite (BitVec.ofNat 3 r) a v s := by
  simp only [write8, target_of_isPort h]

theorem read8_of_port {r : Nat} {a : Addr} (h : IsPort r a) (s : State) :
    read8 a s = ppuRegRead (BitVec.ofNat 3 r) a s := by
  simp only [read8, target_of_isPort h]

/-! ### PPUCTRL, PPUMASK, PPUSTATUS and OAM -/

/-- Settles O45: the mask and the shift of the write are fields of T, and the NMI check schedules the pulse. -/
theorem ppuCtrlWrite : Obligations.PpuCtrlWrite := by
  unfold Obligations.PpuCtrlWrite
  intro a v s ha
  refine ⟨(s.ppu.t &&& 0x73FF#15) ||| ((v &&& 3).setWidth 15 <<< 10), ?_, ?_, ?_, ?write⟩
  case write =>
    have hwrite : write8 a v s = .ok (s.setPpu (s.ppu.writeCtrl v)) := write8_of_port ha v s
    rw [hwrite, Ppu.writeCtrl_eq]
    rfl
  all_goals
    refine BitVec.eq_of_getLsbD_eq fun i hlt => ?_
    interval_cases i <;> simp

/-- Settles O46: port 1 is `writeMask`. -/
theorem ppuMaskWrite : Obligations.PpuMaskWrite := by
  unfold Obligations.PpuMaskWrite
  intro a v s ha
  exact write8_of_port ha v s

/-- Settles O47: port 2 is the status byte, whose bits are the three flags. -/
theorem ppuStatusRead : Obligations.PpuStatusRead := by
  unfold Obligations.PpuStatusRead
  intro a s ha
  refine ⟨s.ppu.status, read8_of_port ha s, ?_, ?_, ?_, BitVec.extractLsb'_append_eq_right⟩ <;> unfold Ppu.status <;>
    simp [↓BitVec.getLsbD_append]

/-- Settles O48: the two ports are OAM at OAMADDR, and a write leaves the other entries. -/
theorem oamPorts : Obligations.OamPorts := by
  unfold Obligations.OamPorts
  intro a v s
  refine ⟨fun ha => write8_of_port ha v s, fun ha => read8_of_port ha s, fun ha hwf => ?_⟩
  refine ⟨s.setPpu (s.ppu.writeOamData v), write8_of_port ha v s, rfl, fun i => ?_⟩
  show Cells.read (Cells.write s.ppu.oam s.ppu.oamAddr.toNat v) i = _
  split
  next hi => rw [hi, Cells.read_write_self (lo := 0) _ _ hwf]
  next hi => exact Cells.read_write_ne _ _ (Ne.symm hi)

/-! ### PPUSCROLL -/

theorem setWidth_eq_extractLsb' {w : Nat} (v : BitVec w) (n : Nat) : v.setWidth n = v.extractLsb' 0 n := by
  refine BitVec.eq_of_getLsbD_eq fun i hlt => ?_
  simp [hlt]

/-- R329: the first write is T's coarse X. -/
theorem scrollFirst_eq_append (t : BitVec 15) (v : Byte) :
    (t &&& 0x7FE0#15) ||| (v >>> 3).setWidth 15 = t.extractLsb' 5 10 ++ v.extractLsb' 3 5 := by
  refine BitVec.eq_of_getLsbD_eq fun i hlt => ?_
  interval_cases i <;> simp [↓BitVec.getLsbD_append]

/-- R330: the second write is T's fine Y and coarse Y. -/
theorem scrollSecond_eq_append (t : BitVec 15) (v : Byte) :
    (t &&& 0x0C1F#15) ||| ((v &&& 7).setWidth 15 <<< 12) ||| ((v &&& 0xF8).setWidth 15 <<< 2) =
      v.extractLsb' 0 3 ++ t.extractLsb' 10 2 ++ v.extractLsb' 3 5 ++ t.extractLsb' 0 5 := by
  refine BitVec.eq_of_getLsbD_eq fun i hlt => ?_
  interval_cases i <;> simp [↓BitVec.getLsbD_append]

/-- Settles O49: each of the two writes is an append of T's fields and the value's. -/
theorem ppuScrollWrites : Obligations.PpuScrollWrites := by
  unfold Obligations.PpuScrollWrites
  intro a v s ha
  have hwrite : write8 a v s = .ok (s.setPpu (s.ppu.writeScroll v)) := write8_of_port ha v s
  rw [hwrite, Ppu.writeScroll]
  cases hw : s.ppu.w with
  | false =>
    refine ⟨s.ppu.t.extractLsb' 5 10 ++ v.extractLsb' 3 5, ?_, fun _ => ⟨?_, ?_, ?write⟩, nofun⟩
    case write =>
      rw [if_pos rfl, scrollFirst_eq_append, setWidth_eq_extractLsb']
      rfl
    all_goals
      refine BitVec.eq_of_getLsbD_eq fun i hlt => ?_
      rw [BitVec.getLsbD_extractLsb']
      interval_cases i <;> simp [↓BitVec.getLsbD_append]
  | true =>
    refine ⟨v.extractLsb' 0 3 ++ s.ppu.t.extractLsb' 10 2 ++ v.extractLsb' 3 5 ++ s.ppu.t.extractLsb' 0 5, ?_, nofun,
      fun _ => ⟨?_, ?_, ?_, ?write⟩⟩
    case write =>
      rw [if_neg (by simp), scrollSecond_eq_append]
      rfl
    all_goals
      refine BitVec.eq_of_getLsbD_eq fun i hlt => ?_
      rw [BitVec.getLsbD_extractLsb']
      interval_cases i <;> simp [↓BitVec.getLsbD_append]

/-! ### PPUDATA -/

/-- R100: a write of the PPU address space changes the two storages of the PPU, and CHR. -/
theorem Ppu.write_eq (p : Ppu) (cart : Cartridge) (a : PpuAddr) (v : Byte) :
    p.write cart a v =
      ({ p with nt := (p.write cart a v).1.nt, pal := (p.write cart a v).1.pal },
        { cart with chr := (p.write cart a v).2.chr }) := by
  rcases Ppu.write_cases p cart a v with hw | ⟨-, -, hw⟩ | ⟨i, -, hw⟩ | ⟨i, -, hw⟩ <;> rw [hw]

theorem Ppu.dataAddr_eq (p : Ppu) : p.dataAddr = p.v.extractLsb' 0 14 := setWidth_eq_extractLsb' p.v 14

/-- Settles O51: port 7 is the buffered read and the write at V's low 14 bits, and then V's step. -/
theorem ppuDataPort : Obligations.PpuDataPort := by
  unfold Obligations.PpuDataPort
  intro a v s ha ppuAddr next
  have hread : read8 a s = .ok (s.ppu.data s.cart, s.setPpu (s.ppu.afterDataRead s.cart)) := read8_of_port ha s
  have hwrite : write8 a v s =
      .ok ((s.setPpu (s.ppu.writeData s.cart v).1).setCart (s.ppu.writeData s.cart v).2) := write8_of_port ha v s
  rw [hread, hwrite, Ppu.data, Ppu.afterDataRead, Ppu.writeData, Ppu.dataAddr_eq]
  refine ⟨fun h => ?buffered, fun h => ?palette, ?write⟩
  case buffered =>
    simp only [if_pos (show (s.ppu.v.extractLsb' 0 14).toNat < 0x3F00 from h)]
    rfl
  case palette =>
    simp only [if_neg (show ¬(s.ppu.v.extractLsb' 0 14).toNat < 0x3F00 from Nat.not_lt.2 h)]
    rfl
  case write =>
    dsimp only
    rw [Ppu.write_eq]
    rfl

/-! ### The PPU's address space -/

/-- R103: the cell as the statement writes it: a table of the storage for each nametable. -/
theorem ntIndex_eq (mirroring : Mirroring) (b : PpuAddr) :
    ntIndex mirroring b =
      0x400 * (match mirroring with
        | .horizontal => [0, 0, 1, 1]
        | .vertical => [0, 1, 0, 1]).getD ((b.toNat - 0x2000) % 0x1000 / 0x400) 0 +
        (b.toNat - 0x2000) % 0x1000 % 0x400 := by
  have htables : ∀ k < 4, k / 2 = [0, 0, 1, 1].getD k 0 ∧ k % 2 = [0, 1, 0, 1].getD k 0 := by decide
  obtain ⟨hhorizontal, hvertical⟩ := htables ((b.toNat - 0x2000) % 0x1000 / 0x400) (by omega)
  unfold ntIndex
  cases mirroring <;> dsimp only
  · rw [hhorizontal, Nat.mul_comm]
  · rw [hvertical, Nat.mul_comm]

/-- R105: the entries that are mirrors, written out. -/
theorem palIndex_eq (b : PpuAddr) :
    palIndex b = if b.toNat % 0x20 ∈ [0x10, 0x14, 0x18, 0x1C] then b.toNat % 0x20 - 0x10 else b.toNat % 0x20 := by
  have hmirror : (b.toNat % 0x20 ≥ 0x10 ∧ b.toNat % 0x20 % 4 = 0) ↔ b.toNat % 0x20 ∈ [0x10, 0x14, 0x18, 0x1C] := by
    simp only [List.mem_cons, List.not_mem_nil, or_false]
    omega
  simp only [palIndex, hmirror]

/-- R100: two addresses select one cell of one storage. -/
def SameCell (mirroring : Mirroring) (a b : PpuAddr) : Prop :=
  if a.toNat < 0x2000 then a = b
  else if a.toNat < 0x3F00 then 0x2000 ≤ b.toNat ∧ b.toNat < 0x3F00 ∧ ntIndex mirroring a = ntIndex mirroring b
  else 0x3F00 ≤ b.toNat ∧ palIndex a = palIndex b

section
variable (p : Ppu) (cart : Cartridge) {a b : PpuAddr}

theorem Ppu.read_chr (h : a.toNat < 0x2000) : p.read cart a = Cells.read cart.chr a.toNat := if_pos h

theorem Ppu.read_nt (h : 0x2000 ≤ a.toNat) (h' : a.toNat < 0x3F00) :
    p.read cart a = Cells.read p.nt (ntIndex cart.mirroring a) := by
  rw [Ppu.read, if_neg (Nat.not_lt.2 h), if_pos h']

theorem Ppu.read_pal (h : 0x3F00 ≤ a.toNat) : p.read cart a = Cells.read p.pal (palIndex a) := by
  rw [Ppu.read, if_neg (by omega), if_neg (by omega)]

theorem Ppu.write_chr (h : a.toNat < 0x2000) (v : Byte) :
    p.write cart a v = (p, if cart.chrIsRam then { cart with chr := Cells.write cart.chr a.toNat v } else cart) :=
  if_pos h

theorem Ppu.write_nt (h : 0x2000 ≤ a.toNat) (h' : a.toNat < 0x3F00) (v : Byte) :
    p.write cart a v = ({ p with nt := Cells.write p.nt (ntIndex cart.mirroring a) v }, cart) := by
  rw [Ppu.write, if_neg (Nat.not_lt.2 h), if_pos h']

theorem Ppu.write_pal (h : 0x3F00 ≤ a.toNat) (v : Byte) :
    p.write cart a v = ({ p with pal := Cells.write p.pal (palIndex a) v }, cart) := by
  rw [Ppu.write, if_neg (by omega), if_neg (by omega)]

/-- R100: the three regions of the PPU address space. -/
theorem ppuRegions (a : PpuAddr) :
    a.toNat < 0x2000 ∨ (0x2000 ≤ a.toNat ∧ a.toNat < 0x3F00) ∨ 0x3F00 ≤ a.toNat := by
  omega

theorem Ppu.read_congr_of_sameCell (h : SameCell cart.mirroring a b) : p.read cart a = p.read cart b := by
  unfold SameCell at h
  split_ifs at h with hchr hnt
  · rw [h]
  · obtain ⟨hb, hb', hcell⟩ := h
    rw [p.read_nt cart (Nat.not_lt.1 hchr) hnt, p.read_nt cart hb hb', hcell]
  · obtain ⟨hb, hcell⟩ := h
    rw [p.read_pal cart (Nat.not_lt.1 hnt), p.read_pal cart hb, hcell]

/-- R102: a write reads back at its own address, unless it is one of CHR ROM. -/
theorem Ppu.read_write_self (hram : 0x2000 ≤ a.toNat ∨ cart.chrIsRam = true) (hnt : Cells.wf p.nt = true)
    (hpal : Cells.wf p.pal = true) (hchr : Cells.wf cart.chr = true) (v : Byte) :
    (p.write cart a v).1.read (p.write cart a v).2 a = v := by
  rcases ppuRegions a with h | ⟨h, h'⟩ | h
  · rw [p.write_chr cart h, if_pos (hram.resolve_left (Nat.not_le.2 h)), Ppu.read_chr _ _ h]
    exact Cells.read_write_self (lo := 0) _ _ hchr
  · rw [p.write_nt cart h h', Ppu.read_nt _ _ h h']
    exact Cells.read_write_self (lo := 0) _ _ hnt
  · rw [p.write_pal cart h, Ppu.read_pal _ _ h]
    exact Cells.read_write_self (lo := 0) _ _ hpal

/-- A write leaves every address of another cell. -/
theorem Ppu.read_write_of_not_sameCell (h : ¬SameCell cart.mirroring a b) (v : Byte) :
    (p.write cart a v).1.read (p.write cart a v).2 b = p.read cart b := by
  unfold SameCell at h
  rcases ppuRegions a with ha | ⟨ha, ha'⟩ | ha
  · rw [if_pos ha] at h
    rw [p.write_chr cart ha]
    split
    · rcases ppuRegions b with hb | ⟨hb, hb'⟩ | hb
      · rw [Ppu.read_chr _ _ hb, Ppu.read_chr _ _ hb]
        exact Cells.read_write_ne _ _ fun e => h (BitVec.eq_of_toNat_eq e)
      · rw [Ppu.read_nt _ _ hb hb', Ppu.read_nt _ _ hb hb']
      · rw [Ppu.read_pal _ _ hb, Ppu.read_pal _ _ hb]
    · rfl
  · rw [if_neg (Nat.not_lt.2 ha), if_pos ha'] at h
    rw [p.write_nt cart ha ha']
    rcases ppuRegions b with hb | ⟨hb, hb'⟩ | hb
    · rw [Ppu.read_chr _ _ hb, Ppu.read_chr _ _ hb]
    · rw [Ppu.read_nt _ _ hb hb', Ppu.read_nt _ _ hb hb']
      exact Cells.read_write_ne _ _ fun e => h ⟨hb, hb', e⟩
    · rw [Ppu.read_pal _ _ hb, Ppu.read_pal _ _ hb]
  · rw [if_neg (by omega), if_neg (Nat.not_lt.2 ha)] at h
    rw [p.write_pal cart ha]
    rcases ppuRegions b with hb | ⟨hb, hb'⟩ | hb
    · rw [Ppu.read_chr _ _ hb, Ppu.read_chr _ _ hb]
    · rw [Ppu.read_nt _ _ hb hb', Ppu.read_nt _ _ hb hb']
    · rw [Ppu.read_pal _ _ hb, Ppu.read_pal _ _ hb]
      exact Cells.read_write_ne _ _ fun e => h ⟨hb, e⟩

end

/-- The mirrors of R103 and R105 are addresses of one cell. -/
theorem sameCell_nt {mirroring : Mirroring} {a b : PpuAddr} (ha : 0x2000 ≤ a.toNat) (ha' : a.toNat < 0x3F00)
    (hb : 0x2000 ≤ b.toNat) (hb' : b.toNat < 0x3F00) (h : ntIndex mirroring a = ntIndex mirroring b) :
    SameCell mirroring a b := by
  rw [SameCell, if_neg (Nat.not_lt.2 ha), if_pos ha']
  exact ⟨hb, hb', h⟩

theorem sameCell_pal {mirroring : Mirroring} {a b : PpuAddr} (ha : 0x3F00 ≤ a.toNat) (hb : 0x3F00 ≤ b.toNat)
    (h : palIndex a = palIndex b) : SameCell mirroring a b := by
  rw [SameCell, if_neg (by omega), if_neg (Nat.not_lt.2 ha)]
  exact ⟨hb, h⟩

section
variable {mirroring : Mirroring} {a : PpuAddr}

/-- R104: 0x3000 to 0x3EFF repeats the nametables. -/
theorem sameCell_sub_0x1000 (h : 0x3000 ≤ a.toNat) (h' : a.toNat < 0x3F00) : SameCell mirroring a (a - 0x1000) := by
  have hsub : (a - 0x1000).toNat = a.toNat - 0x1000 := by bv_omega
  refine sameCell_nt (by omega) h' (by omega) (by omega) ?_
  have hoffset : (a.toNat - 0x1000 - 0x2000) % 0x1000 = (a.toNat - 0x2000) % 0x1000 := by omega
  simp only [ntIndex, hsub, hoffset]

/-- R105: the palette repeats every 32 bytes. -/
theorem sameCell_add_0x20 (h : 0x3F00 ≤ a.toNat) (h' : a.toNat < 0x3FE0) : SameCell mirroring a (a + 0x20) := by
  have hadd : (a + 0x20).toNat = a.toNat + 0x20 := by bv_omega
  refine sameCell_pal h (by omega) ?_
  rw [palIndex, palIndex, hadd, Nat.add_mod_right]

/-- R105: the entries 0x10, 0x14, 0x18 and 0x1C are those 0x10 below. -/
theorem sameCell_sub_0x10 (h : a ∈ [0x3F10, 0x3F14, 0x3F18, 0x3F1C]) : SameCell mirroring a (a - 0x10) := by
  simp only [List.mem_cons, List.not_mem_nil, or_false] at h
  rcases h with rfl | rfl | rfl | rfl <;> exact sameCell_pal (by decide) (by decide) (by decide)

/-- R103: horizontal mirroring pairs a nametable with the one at its right. -/
theorem sameCell_add_0x400 (h : 0x2000 ≤ a.toNat) (h' : a.toNat < 0x3000) (hleft : a.toNat / 0x400 % 2 = 0) :
    SameCell .horizontal a (a + 0x400) := by
  have hadd : (a + 0x400).toNat = a.toNat + 0x400 := by bv_omega
  refine sameCell_nt h (by omega) (by omega) (by omega) ?_
  simp only [ntIndex, hadd]
  omega

/-- R103: vertical mirroring pairs a nametable with the one below it. -/
theorem sameCell_add_0x800 (h : 0x2000 ≤ a.toNat) (h' : a.toNat < 0x2800) :
    SameCell .vertical a (a + 0x800) := by
  have hadd : (a + 0x800).toNat = a.toNat + 0x800 := by bv_omega
  refine sameCell_nt h (by omega) (by omega) (by omega) ?_
  simp only [ntIndex, hadd]
  omega

end

/-- Settles O52: each region is one storage by its cell, a write is one cell's, and every mirror is an address of the
cell it mirrors. -/
theorem ppuBus : Obligations.PpuBus := by
  unfold Obligations.PpuBus
  intro p cart a v ntCell palCell sameCell
  have hntCell (b : PpuAddr) : ntIndex cart.mirroring b = ntCell b := ntIndex_eq cart.mirroring b
  have hpalCell (b : PpuAddr) : palIndex b = palCell b := palIndex_eq b
  have hsame (b c : PpuAddr) : sameCell b c ↔ SameCell cart.mirroring b c := by
    simp only [sameCell, SameCell, hntCell, hpalCell]
  refine ⟨fun b h => p.read_chr cart h, fun b h h' => hntCell b ▸ p.read_nt cart h h',
    fun b h => hpalCell b ▸ p.read_pal cart h, fun h hrom => ?rom, fun hram hnt hpal hchr b hb => ?readBack,
    fun b hb => p.read_write_of_not_sameCell cart (mt (hsame a b).2 hb) v, congrArg Prod.fst (p.write_eq cart a v),
    congrArg Prod.snd (p.write_eq cart a v), fun h h' => ?repeated, fun h h' => ?repeatedPal, fun h => ?mirror,
    fun hm h h' hk => ?horizontal, fun hm h h' => ?vertical⟩
  case rom => rw [p.write_chr cart h, hrom]; rfl
  case readBack =>
    have hmirroring : (p.write cart a v).2.mirroring = cart.mirroring := by rw [Ppu.write_eq]
    rw [← Ppu.read_congr_of_sameCell _ _ (hmirroring.symm ▸ (hsame a b).1 hb)]
    exact p.read_write_self cart hram hnt hpal hchr v
  all_goals apply Ppu.read_congr_of_sameCell
  case repeated => exact sameCell_sub_0x1000 h h'
  case repeatedPal => exact sameCell_add_0x20 h h'
  case mirror => exact sameCell_sub_0x10 h
  case horizontal => exact hm ▸ sameCell_add_0x400 h h' hk
  case vertical => exact hm ▸ sameCell_add_0x800 h h'

end Sys2Proof.Machine
end

section
/-! The PPU's tick (R341 to R346, R351, R355 to R359): O53, O54, O55, O56, O57 and O59. -/

namespace Sys2Proof.Machine

/-! ### The dot counters, the flags and the NMI -/

/-- R341: the tick's dot is the next one. -/
theorem Ppu.tick_counters (cart : Cartridge) (p : Ppu) :
    (p.tick cart).cycle = p.advanceDot.cycle ∧ (p.tick cart).scanline = p.advanceDot.scanline ∧
      (p.tick cart).frame = p.advanceDot.frame := by
  obtain ⟨_, _, _, _, _, _, _, _, htick, -⟩ := Ppu.tick_eq cart p
  rw [htick]
  exact ⟨rfl, rfl, rfl⟩

/-- Settles O53: the next dot, at the end of a line and at the end of a frame. -/
theorem dotAdvance : Obligations.DotAdvance := by
  unfold Obligations.DotAdvance
  intro cart p hc hs
  obtain ⟨hcycle, hscanline, hframe⟩ := Ppu.tick_counters cart p
  obtain ⟨hcycle_le, hscanline_le⟩ := Ppu.advanceDot_le hc hs
  refine ⟨?next, ?frame, hcycle ▸ hcycle_le, hscanline ▸ hscanline_le⟩
  case next =>
    rw [dotIndex, dotIndex, dotsPerFrame, hcycle, hscanline, Ppu.advanceDot_eq]
    dsimp only
    split_ifs <;> omega
  case frame =>
    have hlast : (p.cycle + 1 = 341 ∧ p.scanline + 1 = 262) ↔ dotIndex p = dotsPerFrame - 1 := by
      rw [dotIndex, dotsPerFrame]
      omega
    rw [hframe, Ppu.advanceDot_eq]
    simp only [hlast]

/-- Settles O54: the flags and the NMI delay of the tick are `Ppu.tick_eq`'s. -/
theorem vblankFlags : Obligations.VblankFlags := by
  unfold Obligations.VblankFlags
  intro cart p q
  obtain ⟨v, nt, ab, lo, hi, pipe, hit, fb, htick, -, hkeep, -, hoff⟩ := Ppu.tick_eq cart p
  have hq : q = _ := htick
  rw [hq]
  dsimp only
  refine ⟨fun hs hc => ⟨?start, ?pulse⟩, fun hs hc => ⟨?stop, ?clear⟩, fun hstart hend => ?vblank,
    fun hend hhit => ?hitKept, fun hdot hhit => ?hitOff, fun hstart => ?countdown, rfl⟩
  case start => rw [if_pos ⟨hs, hc⟩]
  case pulse =>
    have hdelay : p.nmiDelay - 1 = 0 ↔ p.nmiDelay ≤ 1 := by omega
    simp only [hs, hc, hdelay, true_and]
  case stop => rw [if_neg (by omega), if_pos ⟨hs, hc⟩]
  case clear => rw [if_pos ⟨hs, hc⟩]
  case vblank => rw [if_neg hstart, if_neg hend]
  case hitKept => rw [if_neg hend, hkeep hhit]
  case hitOff => rw [(hoff hdot).1, hhit, ite_self]
  case countdown => rw [if_neg fun ⟨hs, hc, _⟩ => hstart ⟨hs, hc⟩]

/-- Settles O55: the tick posts the NMI by the test that `Ppu.postsNmi` decides. -/
theorem nmiPulse : Obligations.NmiPulse := by
  unfold Obligations.NmiPulse
  intro s
  have hposts : s.ppu.postsNmi = true ↔ s.ppu.nmiDelay = 1 ∧ s.ppu.vblank = true ∧ s.ppu.nmiEnable = true := by
    simp [Ppu.postsNmi, and_assoc]
  rw [ppuTick_eq]
  simp only [hposts]

/-! ### What a tick leaves -/

theorem renderLine_eq_true_iff {s : Nat} : renderLine s = true ↔ s ≤ 239 ∨ s = 261 := by
  simp [renderLine]

/-- R342, R343: the render stage of no render line, and with rendering off. -/
theorem Ppu.renderStage_of_not (cart : Cartridge) {s : Nat} (c : Nat) {p : Ppu}
    (h : ¬((p.showBg = true ∨ p.showSpr = true) ∧ (s ≤ 239 ∨ s = 261))) : Ppu.renderStage cart s c p = p := by
  have hcond : ¬(p.rendering && renderLine s) = true := by
    rw [Bool.and_eq_true, Ppu.rendering, Bool.or_eq_true, renderLine_eq_true_iff]
    exact h
  exact if_neg hcond

/-- R343: a tick whose dot has no render stage leaves V, the pipeline and the latches. -/
theorem Ppu.tick_of_not_rendering (cart : Cartridge) {p : Ppu}
    (h : ¬((p.showBg = true ∨ p.showSpr = true) ∧
      ((p.tick cart).scanline ≤ 239 ∨ (p.tick cart).scanline = 261))) :
    p.tick cart = p.withDotOf (p.tick cart) :=
  (Ppu.tick_eq_renderStage cart p).trans
    (congrArg (Ppu.withDotOf · (p.tick cart)) (Ppu.renderStage_of_not cart _ h))

/-- Settles O56: the fields of `Ppu.tick_eq`, and the dots without a render stage and without a pixel. -/
theorem tickFrame : Obligations.TickFrame := by
  unfold Obligations.TickFrame
  intro cart p q
  obtain ⟨v, nt, ab, lo, hi, pipe, hit, fb, htick, -, -, -, hoff⟩ := Ppu.tick_eq cart p
  refine ⟨by rw [show q = _ from htick], fun hbg hspr => ?off, fun hdot => ?noPixel⟩
  case off =>
    have hq : q = p.withDotOf q := Ppu.tick_of_not_rendering cart (by simp [hbg, hspr])
    rw [hq]
    exact ⟨rfl, rfl, rfl, rfl, rfl, rfl⟩
  case noPixel =>
    rw [show q = _ from htick] at hdot ⊢
    exact (hoff hdot).2

/-! ### The pixel of a dot -/

/-- R345: fine X selects a nibble of the pipeline's high half. -/
theorem pipeNibble_eq (pipe : BitVec 64) (fineX : BitVec 3) :
    ((pipe >>> 32) >>> ((7 - fineX.toNat) * 4)).setWidth 4 = pipe.extractLsb' (60 - 4 * fineX.toNat) 4 := by
  have hlt := fineX.isLt
  have hshift : 32 + (7 - fineX.toNat) * 4 = 60 - 4 * fineX.toNat := by omega
  rw [← BitVec.shiftRight_add, hshift]
  refine BitVec.eq_of_getLsbD_eq fun i hi => ?_
  simp [hi]

/-- R359: the sprite covers (x, y), at the row and the column it gives. -/
theorem Ppu.sprite0Opaque_iff (p : Ppu) (cart : Cartridge) (x y : Nat) :
    p.sprite0Opaque cart x y = true ↔
      ∃ row col : Nat, y = (Cells.read p.oam 0).toNat + 1 + row ∧ x = (Cells.read p.oam 3).toNat + col ∧
        row < (if p.sprSize16 then 16 else 8) ∧ col < 8 ∧
        p.patternBit cart
          (p.spritePattern (Cells.read p.oam 1).toNat
            (if (Cells.read p.oam 2).getLsbD 7 then (if p.sprSize16 then 16 else 8) - 1 - row else row))
          (if (Cells.read p.oam 2).getLsbD 6 then 7 - col else col) = true := by
  unfold Ppu.sprite0Opaque
  dsimp only
  rw [Bool.if_false_right, Bool.and_eq_true, decide_eq_true_eq]
  constructor
  · rintro ⟨⟨hy, hrow, hx, hcol⟩, hbit⟩
    exact ⟨_, _, (Nat.add_sub_cancel' hy).symm, (Nat.add_sub_cancel' hx).symm, hrow, hcol, hbit⟩
  · rintro ⟨row, col, rfl, rfl, hrow, hcol, hbit⟩
    rw [Nat.add_sub_cancel_left, Nat.add_sub_cancel_left]
    exact ⟨⟨Nat.le_add_right _ _, hrow, Nat.le_add_right _ _, hcol⟩, hbit⟩

/-- R359: the hit stays set, and the sprite-0 test sets it. -/
theorem Ppu.sprite0Check_hit_iff (cart : Cartridge) (x y : Nat) (bg : BitVec 4) (p : Ppu) :
    (Ppu.sprite0Check cart x y bg p).sprite0Hit = true ↔
      p.sprite0Hit = true ∨
        (p.showBg = true ∧ p.showSpr = true ∧ bg &&& 3 ≠ 0 ∧ x ≠ 255 ∧
          ¬(x < 8 ∧ (p.showLeftBg = false ∨ p.showLeftSpr = false)) ∧ p.sprite0Opaque cart x y = true) := by
  unfold Ppu.sprite0Check
  split
  next h => exact iff_of_true rfl (.inr h.2)
  next h =>
    exact ⟨.inl, fun h' => h'.elim id fun hhit => by_contra fun hnot => h ⟨Bool.not_eq_true _ ▸ hnot, hhit⟩⟩

/-- R343: on a visible line a tick's pixels and hit are those of its pixel stage. -/
theorem Ppu.tick_pixels (cart : Cartridge) (p : Ppu) {s c : Nat} (hs : p.countNmi.advanceDot.scanline = s)
    (hc : p.countNmi.advanceDot.cycle = c) (hvisible : s ≤ 239) :
    (p.tick cart).framebuffer = (Ppu.pixelStage cart s c p.countNmi.advanceDot).framebuffer ∧
      (p.tick cart).sprite0Hit = (Ppu.pixelStage cart s c p.countNmi.advanceDot).sprite0Hit := by
  have htick : p.tick cart =
      Ppu.vblankStage s c (Ppu.renderStage cart s c (Ppu.pixelStage cart s c p.countNmi.advanceDot)) :=
    hs ▸ hc ▸ rfl
  obtain ⟨_, _, _, _, _, _, hrender, -⟩ := Ppu.renderStage_eq cart s c (Ppu.pixelStage cart s c p.countNmi.advanceDot)
  rw [htick, hrender, Ppu.vblankStage_eq]
  dsimp only
  exact ⟨rfl, if_neg (by omega)⟩

/-- R345: the pixel output writes the colour of the background value. -/
theorem Ppu.outputPixel_framebuffer (cart : Cartridge) (x y : Nat) (p : Ppu) :
    (Ppu.outputPixel cart x y p).framebuffer =
      Cells.write p.framebuffer (y * 256 + x) (p.color cart (p.background x)) := by
  obtain ⟨hit, hcheck, -⟩ := Ppu.sprite0Check_eq cart x y (p.background x) p
  unfold Ppu.outputPixel
  dsimp only
  rw [hcheck]
  rfl

/-- R341, R345, R359: the tick of dot (y, x + 1) of a visible line outputs the pixel (x, y). -/
theorem Ppu.tick_outputPixel (cart : Cartridge) {p : Ppu} {x y : Nat} (hx : x < 256) (hy : y < 240)
    (hscanline : p.scanline = y) (hcycle : p.cycle = x) :
    (p.tick cart).framebuffer = Cells.write p.framebuffer (y * 256 + x) (p.color cart (p.background x)) ∧
      ((p.tick cart).sprite0Hit = true ↔ (Ppu.sprite0Check cart x y (p.background x) p).sprite0Hit = true) := by
  have hdot : p.countNmi.advanceDot = { p with nmiDelay := p.nmiDelay - 1, cycle := x + 1 } := by
    have hnot : ¬x + 1 = 341 := by omega
    rw [Ppu.advanceDot_eq]
    simp only [Ppu.countNmi, hcycle, hnot, false_and, if_false]
  obtain ⟨hfb, hhit⟩ := Ppu.tick_pixels cart p (s := y) (c := x + 1) (hdot ▸ hscanline) (hdot ▸ rfl) (by omega)
  rw [hfb, hhit, Ppu.pixelStage, if_pos (by omega), Ppu.outputPixel_framebuffer, hdot]
  refine ⟨rfl, ?_⟩
  exact (Ppu.sprite0Check_hit_iff cart x y _ _).trans (Ppu.sprite0Check_hit_iff cart x y _ p).symm

/-- Settles O57: the pixel stage writes the entry of the dot and makes the sprite-0 test. -/
theorem pixelOutput : Obligations.PixelOutput := by
  unfold Obligations.PixelOutput
  intro cart p x y hwf hx hy hscanline hcycle q bg attr height tile opaqueAt
  obtain ⟨hfb, hhit⟩ := Ppu.tick_outputPixel cart hx hy hscanline hcycle
  have hbg : p.background x = bg := by
    unfold Ppu.background
    rw [pipeNibble_eq]
  refine ⟨fun x' y' hx' => ?pixel, ?hit⟩
  case pixel =>
    rw [hfb, hbg]
    split
    next heq =>
      obtain ⟨rfl, rfl⟩ := heq
      exact Cells.read_write_self (lo := 0) _ _ hwf
    next hne => exact Cells.read_write_ne _ _ (by omega)
  case hit =>
    have hopaque : ∀ b : BitVec 4, b &&& 3 ≠ 0 ↔ b.extractLsb' 0 2 ≠ 0 := by decide
    have hleft : ¬(x < 8 ∧ (p.showLeftBg = false ∨ p.showLeftSpr = false)) ↔
        (x < 8 → p.showLeftBg = true ∧ p.showLeftSpr = true) := by
      simp
    have hpattern (tile row col : Nat) :
        p.patternBit cart (p.spritePattern tile row) col = true ↔
          (p.read cart (BitVec.ofNat 14 (p.spritePattern tile row))).getLsbD (7 - col) = true ∨
            (p.read cart (BitVec.ofNat 14 (p.spritePattern tile row + 8))).getLsbD (7 - col) = true :=
      Bool.or_eq_true_iff
    rw [hhit, Ppu.sprite0Check_hit_iff, hbg, hopaque, hleft, Ppu.sprite0Opaque_iff]
    simp only [hpattern]
    rfl

/-! ### The pipeline, and the dots that leave V -/

/-- R347 to R350: only micro-step 0 adds to the pipeline. -/
theorem Ppu.fetchStep_pipe_of_ne_zero (cart : Cartridge) {k : Nat} (h : k ≠ 0) (p : Ppu) :
    (Ppu.fetchStep cart k p).pipe = p.pipe := by
  unfold Ppu.fetchStep
  split
  · exact absurd rfl h
  all_goals rfl

/-- R351: the four bits of a pixel: the attribute bits, then the bit of each plane. -/
def Ppu.pixelNibble (p : Ppu) (b : Nat) : BitVec 4 :=
  p.atBits.extractLsb' 2 2 ++ BitVec.ofBool (p.ptHigh.getLsbD b) ++ BitVec.ofBool (p.ptLow.getLsbD b)

/-- R351: the eight pixels of a tile, bit 7 of the planes the highest. -/
def Ppu.tileRow (p : Ppu) : BitVec 32 :=
  p.pixelNibble 7 ++ (p.pixelNibble 6 ++ (p.pixelNibble 5 ++ (p.pixelNibble 4 ++ (p.pixelNibble 3 ++
    (p.pixelNibble 2 ++ (p.pixelNibble 1 ++ p.pixelNibble 0))))))

theorem Ppu.tilePixel_eq_pixelNibble {p : Ppu} (h : p.atBits &&& 0xF3 = 0) (b : Nat) :
    p.tilePixel b = (p.pixelNibble b).setWidth 64 := by
  have hat : ∀ v : Byte, v &&& 0xF3 = 0 → v.setWidth 64 = (v.extractLsb' 2 2 ++ 0#2).setWidth 64 := by
    decide +kernel
  have hor : ∀ (a : BitVec 2) (hi lo : Bool),
      (a ++ 0#2).setWidth 64 ||| ((BitVec.ofBool hi).setWidth 64 <<< 1) ||| (BitVec.ofBool lo).setWidth 64 =
        (a ++ BitVec.ofBool hi ++ BitVec.ofBool lo).setWidth 64 := by decide
  rw [Ppu.tilePixel, hat p.atBits h, hor, Ppu.pixelNibble]

/-- An OR above the low bits is an append. -/
theorem setWidth_or_shiftLeft_eq_append {m n w : Nat} (x : BitVec m) (y : BitVec n) :
    y.setWidth w ||| (x.setWidth w <<< n) = (x ++ y).setWidth w := by
  refine BitVec.eq_of_getLsbD_eq fun i hi => ?_
  simp only [BitVec.getLsbD_or, BitVec.getLsbD_setWidth, BitVec.getLsbD_shiftLeft, BitVec.getLsbD_append, hi,
    decide_true, Bool.true_and]
  by_cases hn : i < n
  · simp [hn]
  · simp [hn, BitVec.getLsbD_of_ge y i (Nat.not_lt.1 hn), Nat.lt_of_le_of_lt (Nat.sub_le i n) hi]

theorem Ppu.tilePixels_eq_tileRow {p : Ppu} (h : p.atBits &&& 0xF3 = 0) :
    p.tilePixels = p.tileRow.setWidth 64 := by
  simp only [Ppu.tilePixels, List.foldl_cons, List.foldl_nil, Ppu.tilePixel_eq_pixelNibble h, Nat.zero_mul,
    BitVec.shiftLeft_zero, BitVec.ofNat_eq_ofNat, BitVec.zero_or, Nat.reduceMul]
  rw [setWidth_or_shiftLeft_eq_append (n := 4), setWidth_or_shiftLeft_eq_append (n := 8),
    setWidth_or_shiftLeft_eq_append (n := 12), setWidth_or_shiftLeft_eq_append (n := 16),
    setWidth_or_shiftLeft_eq_append (n := 20), setWidth_or_shiftLeft_eq_append (n := 24),
    setWidth_or_shiftLeft_eq_append (n := 28), Ppu.tileRow]

theorem Ppu.extractLsb'_tileRow (p : Ppu) {j : Nat} (hj : j < 8) :
    p.tileRow.extractLsb' (4 * j) 4 = p.pixelNibble j := by
  unfold Ppu.tileRow
  refine BitVec.eq_of_getLsbD_eq fun i hi => ?_
  rw [BitVec.getLsbD_extractLsb']
  interval_cases j <;> interval_cases i <;> simp [↓BitVec.getLsbD_append]

/-- R355: fine Y, coarse Y and the vertical nametable bit come from T. -/
theorem copyY_eq_append (v t : BitVec 15) :
    copyY v t = t.extractLsb' 11 4 ++ v.extractLsb' 10 1 ++ t.extractLsb' 5 5 ++ v.extractLsb' 0 5 := by
  unfold copyY
  refine BitVec.eq_of_getLsbD_eq fun i hlt => ?_
  interval_cases i <;> simp [↓BitVec.getLsbD_append]

theorem scrollStage_of_copyY {c : Nat} (t v : BitVec 15) (h : 280 ≤ c) (h' : c ≤ 304) :
    scrollStage 261 c t v = copyY v t := by
  have hfetch : ¬(fetchDot c = true ∧ c % 8 = 0) := by
    rw [fetchDot_eq_true_iff]
    omega
  have h256 : c ≠ 256 := by omega
  have h257 : c ≠ 257 := by omega
  simp only [scrollStage, h, h', and_self, if_true, if_neg hfetch, if_neg h256, if_neg h257]

theorem scrollStage_of_none {s c : Nat} (t v : BitVec 15)
    (heighth : ¬(((1 ≤ c ∧ c ≤ 256) ∨ (321 ≤ c ∧ c ≤ 336)) ∧ c % 8 = 0)) (h257 : c ≠ 257)
    (hcopy : ¬(s = 261 ∧ 280 ≤ c ∧ c ≤ 304)) : scrollStage s c t v = v := by
  have hfetch : ¬(fetchDot c = true ∧ c % 8 = 0) := by rwa [fetchDot_eq_true_iff]
  have h256 : c ≠ 256 := by omega
  simp only [scrollStage, if_neg hcopy, if_neg hfetch, if_neg h256, if_neg h257]

/-- Settles O59: the tick's pipeline and V are the render stage's, by the micro-step and the scroll updates of its
dot. -/
theorem renderDots : Obligations.RenderDots := by
  unfold Obligations.RenderDots
  intro cart p hon hat q line fetchDot
  have hpipe (hline : line) (hdot : fetchDot) :
      q.pipe = (Ppu.fetchStep cart (q.cycle % 8) { p with pipe := p.pipe <<< 4 }).pipe := by
    rw [← Ppu.fetchStage_of_fetchDot cart p hdot]
    exact (congrArg Ppu.pipe (Ppu.tick_eq_of_rendering cart hon hline) :)
  refine ⟨fun hline hdot hk => ?shift, fun hline hdot hk => ?store, fun hnot => ?rest, fun hs hc hc' => ?copy,
    fun hnone => ?keep⟩
  case shift => exact (hpipe hline hdot).trans (Ppu.fetchStep_pipe_of_ne_zero cart hk _)
  case store =>
    refine ⟨p.tileRow, ?_, fun j hj => p.extractLsb'_tileRow hj⟩
    rw [hpipe hline hdot, hk, ← Ppu.tilePixels_eq_tileRow hat]
    rfl
  case rest =>
    have hq : q = Ppu.withDotOf { p with v := q.v } q := by
      by_cases hline : line
      · have hstage : Ppu.fetchStage cart q.cycle p = p :=
          if_neg fun h => hnot ⟨hline, fetchDot_eq_true_iff.1 h⟩
        have htick : q = Ppu.withDotOf _ q := Ppu.tick_eq_of_rendering cart hon hline
        rw [hstage] at htick
        rw [htick]
        rfl
      · rw [show q = _ from Ppu.tick_of_not_rendering cart fun h => hline h.2]
        rfl
    rw [hq]
    exact ⟨rfl, rfl, rfl, rfl, rfl⟩
  case copy =>
    have hv : q.v = scrollStage q.scanline q.cycle p.t p.v := Ppu.tick_v_of_rendering cart hon (.inr hs)
    rw [hv, hs, scrollStage_of_copyY _ _ hc hc', copyY_eq_append]
  case keep =>
    by_cases hline : line
    · obtain ⟨heighth, h257, hcopy⟩ := hnone.resolve_left (not_not.2 hline)
      exact (Ppu.tick_v_of_rendering cart hon hline).trans (scrollStage_of_none _ _ heighth h257 hcopy)
    · exact (congrArg Ppu.v (Ppu.tick_of_not_rendering cart fun h => hline h.2) :)

end Sys2Proof.Machine
end

section
/-! The OAM DMA (R338 to R340): O43. -/

namespace Sys2Proof.Machine

/-! ### The copy, read by read -/

/-- R338: what each read of the copy keeps, from the page's first byte to its last. -/
theorem dmaCopy_of_reads {page : Byte} {Copied : Nat → State → Prop}
    (hstep : ∀ i < 256, ∀ t, Copied i t →
      ∃ v u, read8 (page ++ BitVec.ofNat 8 i) t = .ok (v, u) ∧ Copied (i + 1) (u.setOam i v)) :
    ∀ n ≤ 256, ∀ t, Copied (256 - n) t → ∃ u, dmaCopy page n t = .ok u ∧ Copied 256 u
  | 0, _, t, ht => ⟨t, rfl, ht⟩
  | n + 1, hn, t, ht => by
    have hfirst : 256 - (n + 1) = 255 - n := by omega
    have hnext : 255 - n + 1 = 256 - n := by omega
    rw [hfirst] at ht
    obtain ⟨v, u, hread, hu⟩ := hstep (255 - n) (by omega) t ht
    rw [hnext] at hu
    obtain ⟨w, hcopy, hw⟩ := dmaCopy_of_reads hstep n (by omega) _ hu
    refine ⟨w, ?_, hw⟩
    rw [dmaCopy, leWord, hread]
    exact hcopy

theorem write8_oamDma (page : Byte) (s : State) : write8 0x4014 page s = oamDma page s := by
  simp only [write8, target_oamDma]

/-- R339, R340: a copy whose reads complete ends charged. -/
theorem write8_oamDma_of_reads {page : Byte} {s : State} {Copied : Nat → State → Prop} (hs : Copied 0 s)
    (hstep : ∀ i < 256, ∀ t, Copied i t →
      ∃ v u, read8 (page ++ BitVec.ofNat 8 i) t = .ok (v, u) ∧ Copied (i + 1) (u.setOam i v)) :
    ∃ u, write8 0x4014 page s = .ok (u.charge (dmaStall u)) ∧ Copied 256 u := by
  obtain ⟨u, hcopy, hu⟩ := dmaCopy_of_reads hstep 256 (Nat.le_refl 256) s hs
  refine ⟨u, ?_, hu⟩
  rw [write8_oamDma, oamDma, hcopy]

/-- R411: a fault of the first read is the write's, before anything is copied. -/
theorem write8_oamDma_of_fault {page : Byte} {s : State} {f : Fault} (h : read8 (page ++ 0x00#8) s = .error f) :
    write8 0x4014 page s = .error f := by
  have hcopy : dmaCopy page (255 + 1) s = .error f := by
    rw [dmaCopy, leWord, show BitVec.ofNat 8 (255 - 255) = 0x00#8 from rfl, h]
  rw [write8_oamDma, oamDma, hcopy]

theorem State.charge_dmaStall (u : State) :
    u.charge (dmaStall u) =
      { u with cpu := { u.cpu with cycles := u.cpu.cycles + if u.cpu.cycles.toNat % 2 = 1 then 514 else 513 } } := by
  unfold dmaStall
  split <;> rfl

theorem toNat_pageAddr (page : Byte) {i : Nat} (h : i < 256) :
    (page ++ BitVec.ofNat 8 i).toNat = 256 * page.toNat + i := by
  rw [toNat_append_eq_add, BitVec.toNat_ofNat, Nat.mod_eq_of_lt h, Nat.mul_comm]
  rfl

theorem isPort_page {page : Byte} (h : 0x20 ≤ page.toNat) (h' : page.toNat ≤ 0x3F) {i : Nat} (hi : i < 256) :
    IsPort (i % 8) (page ++ BitVec.ofNat 8 i) := by
  rw [IsPort, toNat_pageAddr page hi]
  omega

theorem target_of_unmapped_page {page : Byte} (h : 0x41 ≤ page.toNat) (h' : page.toNat ≤ 0x5F) {i : Nat}
    (hi : i < 256) : target (page ++ BitVec.ofNat 8 i) = .unmapped := by
  have haddr := toNat_pageAddr page hi
  exact target_of_unmapped (by omega) (by omega)

/-! ### Pages whose reads change nothing -/

/-- `t` is `s` with the first `i` entries of OAM copied from `bytes`. -/
structure CopiedFrom (s : State) (bytes : Nat → Byte) (i : Nat) (t : State) : Prop where
  wf : Cells.wf t.ppu.oam = true
  entry : ∀ j < i, Cells.read t.ppu.oam j = bytes j
  rest : t = s.setPpu { s.ppu with oam := t.ppu.oam }

theorem CopiedFrom.setOam {s t : State} {bytes : Nat → Byte} {i : Nat} (h : CopiedFrom s bytes i t) :
    CopiedFrom s bytes (i + 1) (t.setOam i (bytes i)) where
  wf := Cells.wf_write _ _ h.wf
  entry j hj := by
    rcases Nat.lt_succ_iff_lt_or_eq.1 hj with hlt | rfl
    · exact (Cells.read_write_ne _ _ (Nat.ne_of_gt hlt)).trans (h.entry j hlt)
    · exact Cells.read_write_self (lo := 0) _ _ h.wf
  rest := by
    rw [h.rest]
    rfl

/-- R338, R340: the DMA of a page whose reads give `bytes` and change nothing. -/
theorem write8_oamDma_of_pureReads {page : Byte} {s : State} {bytes : Nat → Byte} (hwf : Cells.wf s.ppu.oam = true)
    (hread : ∀ i < 256, ∀ oam : Memory,
      read8 (page ++ BitVec.ofNat 8 i) (s.setPpu { s.ppu with oam := oam }) =
        .ok (bytes i, s.setPpu { s.ppu with oam := oam })) :
    ∃ t, write8 0x4014 page s = .ok t ∧ (∀ i < 256, Cells.read t.ppu.oam i = bytes i) ∧
      t = { s with
        ppu := { s.ppu with oam := t.ppu.oam }
        cpu := { s.cpu with cycles := s.cpu.cycles + if s.cpu.cycles.toNat % 2 = 1 then 514 else 513 } } := by
  obtain ⟨u, hwrite, hu⟩ := write8_oamDma_of_reads (page := page) (Copied := CopiedFrom s bytes)
    ⟨hwf, fun _ hj => absurd hj (Nat.not_lt_zero _), rfl⟩
    fun i hi t ht => ⟨bytes i, t, ht.rest ▸ hread i hi t.ppu.oam, ht.setOam⟩
  refine ⟨_, hwrite, hu.entry, ?_⟩
  rw [State.charge_dmaStall, hu.rest]
  rfl

/-- RAM, work RAM and PRG ROM are plain memory. -/
theorem exists_peek_of_plainPage {page : Byte} (h : page.toNat ≤ 0x1F ∨ 0x60 ≤ page.toNat) {i : Nat} (hi : i < 256)
    (s : State) : ∃ v, s.peek (page ++ BitVec.ofNat 8 i) = some v := by
  have haddr := toNat_pageAddr page hi
  unfold State.peek
  rcases target_cases (page ++ BitVec.ofNat 8 i) with ⟨-, ht⟩ | ⟨hlow, hhigh, -⟩ | ⟨-, -, ht⟩ | ⟨-, ht⟩
  · exact ⟨_, by rw [ht]⟩
  · omega
  · exact ⟨_, by rw [ht]⟩
  · exact ⟨_, by rw [ht]⟩

/-! ### The PPU's ports, in lenient mode -/

section
variable (s : State)

/-- R336: V after `k` accesses of PPUDATA. -/
def vAfter (k : Nat) : BitVec 15 := s.ppu.v + BitVec.ofNat 15 (k * if s.ppu.inc32 then 32 else 1)

def dataAddrAfter (k : Nat) : PpuAddr := (vAfter s k).extractLsb' 0 14

/-- R333, R334: the buffer that the access after `k` others leaves. -/
def bufferedAt (k : Nat) : Byte :=
  s.ppu.read s.cart
    (if (dataAddrAfter s k).toNat < 0x3F00 then dataAddrAfter s k else dataAddrAfter s k - 0x1000)

/-- The buffer after `k` accesses of PPUDATA. -/
def bufferAfter (k : Nat) : Byte := if k = 0 then s.ppu.readBuffer else bufferedAt s (k - 1)

/-- The state after `i` reads of the ports in order from port 0, with the OAM as copied. -/
def portsRead (i : Nat) (oam : Memory) : State :=
  s.setPpu { s.ppu with
    oam := oam
    vblank := decide (i ≤ 2) && s.ppu.vblank
    w := decide (i ≤ 2) && s.ppu.w
    v := vAfter s (i / 8)
    readBuffer := bufferAfter s (i / 8) }

/-- The byte that the copy of a page of ports puts into entry `i`, where `oam` is the OAM at that read. -/
def portByte (oam : Memory) (i : Nat) : Byte :=
  match i % 8 with
  | 2 => BitVec.ofBool (decide (i = 2) && s.ppu.vblank) ++ BitVec.ofBool s.ppu.sprite0Hit ++
      BitVec.ofBool s.ppu.spriteOverflow ++ 0#5
  | 4 => if s.ppu.oamAddr.toNat < i then Cells.read oam s.ppu.oamAddr.toNat
      else Cells.read s.ppu.oam s.ppu.oamAddr.toNat
  | 7 => if 0x3F00 ≤ (dataAddrAfter s (i / 8)).toNat then s.ppu.read s.cart (dataAddrAfter s (i / 8))
      else bufferAfter s (i / 8)
  | _ => 0x00

theorem vAfter_succ (k : Nat) : vAfter s (k + 1) = vAfter s k + if s.ppu.inc32 then 32#15 else 1#15 := by
  have hstep : ∀ c : Nat, BitVec.ofNat 15 ((k + 1) * c) = BitVec.ofNat 15 (k * c) + BitVec.ofNat 15 c := fun c => by
    rw [Nat.succ_mul, BitVec.ofNat_add]
  rw [vAfter, vAfter, hstep, BitVec.add_assoc]
  cases s.ppu.inc32 <;> rfl

end

section
variable {s : State} {i : Nat}

theorem portsRead_zero : portsRead s 0 s.ppu.oam = s := by
  have hv : vAfter s 0 = s.ppu.v := by simp [vAfter]
  rw [portsRead, Nat.zero_div, hv]
  rfl

/-- The reads of the write-only ports and of OAMDATA change nothing. -/
theorem portsRead_succ (h2 : i % 8 ≠ 2) (h7 : i % 8 ≠ 7) (oam : Memory) :
    portsRead s (i + 1) oam = portsRead s i oam := by
  have hblock : (i + 1) / 8 = i / 8 := by omega
  have hstatus : i + 1 ≤ 2 ↔ i ≤ 2 := by omega
  simp only [portsRead, hblock, hstatus]

/-- R324: the first read of PPUSTATUS clears vblank and W, and the others leave them clear. -/
theorem portsRead_succ_status (h : i % 8 = 2) (oam : Memory) :
    portsRead s (i + 1) oam = (portsRead s i oam).setPpu (portsRead s i oam).ppu.afterStatusRead := by
  have hblock : (i + 1) / 8 = i / 8 := by omega
  have hstatus : ¬i + 1 ≤ 2 := by omega
  simp only [portsRead, hblock, hstatus, decide_false, Bool.false_and]
  rfl

/-- R333, R334, R336: a read of PPUDATA refills the buffer and moves V. -/
theorem portsRead_succ_data (h : i % 8 = 7) (oam : Memory) :
    portsRead s (i + 1) oam =
      (portsRead s i oam).setPpu ((portsRead s i oam).ppu.afterDataRead (portsRead s i oam).cart) := by
  have hblock : (i + 1) / 8 = i / 8 + 1 := by omega
  have hstatus : ¬i + 1 ≤ 2 := by omega
  have hstatus' : ¬i ≤ 2 := by omega
  simp only [portsRead, hblock, hstatus, hstatus', decide_false, Bool.false_and]
  have hbuffer : bufferAfter s (i / 8 + 1) =
      if (dataAddrAfter s (i / 8)).toNat < 0x3F00 then s.ppu.read s.cart (dataAddrAfter s (i / 8))
      else s.ppu.read s.cart (dataAddrAfter s (i / 8) - 0x1000) := by
    rw [bufferAfter, if_neg (Nat.succ_ne_zero _), Nat.add_sub_cancel, bufferedAt]
    split <;> rfl
  rw [vAfter_succ, hbuffer, Ppu.afterDataRead, Ppu.dataAddr_eq]
  rfl

theorem progErrRead_lenient {reason : FaultReason} {s : State} (h : s.accessMode = .lenient) :
    progErrRead reason s = .ok (0x00, s) := by
  rw [progErrRead, h]

theorem progErrRead_strict {reason : FaultReason} {s : State} (h : s.accessMode = .strict) :
    progErrRead reason s = .error (s.stop reason) := by
  rw [progErrRead, h]

/-- R337: each read of the page of ports, in lenient mode. -/
theorem read8_port_lenient {page : Byte} (h : 0x20 ≤ page.toNat) (h' : page.toNat ≤ 0x3F) (hi : i < 256)
    (hmode : s.accessMode = .lenient) {oam : Memory}
    (huncopied : ∀ j ≥ i, Cells.read oam j = Cells.read s.ppu.oam j) :
    read8 (page ++ BitVec.ofNat 8 i) (portsRead s i oam) = .ok (portByte s oam i, portsRead s (i + 1) oam) := by
  have hport := isPort_page h h' hi
  have hwriteOnly (hr : i % 8 ∈ [0, 1, 3, 5, 6]) :
      read8 (page ++ BitVec.ofNat 8 i) (portsRead s i oam) = .ok (0x00, portsRead s i oam) := by
    rw [read8_of_writeOnlyPort hr hport]
    exact progErrRead_lenient hmode
  have hread := read8_of_port hport (portsRead s i oam)
  unfold portByte
  split
  case h_1 hr =>
    have hfirst : i ≤ 2 ↔ i = 2 := by omega
    rw [hread, hr, portsRead_succ_status hr, portsRead]
    simp only [hfirst]
    rfl
  case h_2 hr =>
    have hoam : Cells.read oam s.ppu.oamAddr.toNat =
        if s.ppu.oamAddr.toNat < i then Cells.read oam s.ppu.oamAddr.toNat
        else Cells.read s.ppu.oam s.ppu.oamAddr.toNat := by
      split
      next => rfl
      next h => exact huncopied _ (Nat.not_lt.1 h)
    rw [hread, hr, portsRead_succ (by omega) (by omega), ← hoam]
    rfl
  case h_3 hr =>
    have hdata : (portsRead s i oam).ppu.data s.cart =
        if 0x3F00 ≤ (dataAddrAfter s (i / 8)).toNat then s.ppu.read s.cart (dataAddrAfter s (i / 8))
        else bufferAfter s (i / 8) := by
      rw [Ppu.data, Ppu.dataAddr_eq, ← ite_not]
      simp only [Nat.not_lt]
      rfl
    rw [hread, hr, portsRead_succ_data hr, ← hdata]
    rfl
  case h_4 hstatus hdata hppudata =>
    have hr : i % 8 ∈ [0, 1, 3, 5, 6] := by
      have hne : i % 8 ≠ 2 ∧ i % 8 ≠ 4 ∧ i % 8 ≠ 7 := ⟨hstatus, hdata, hppudata⟩
      simp only [List.mem_cons, List.not_mem_nil, or_false]
      omega
    rw [hwriteOnly hr, portsRead_succ hstatus hppudata]

end

/-- `t` is the state after `i` reads of a page of ports, with their bytes in OAM. -/
structure CopiedFromPorts (s : State) (i : Nat) (t : State) : Prop where
  wf : Cells.wf t.ppu.oam = true
  entry : ∀ j < i, Cells.read t.ppu.oam j = portByte s t.ppu.oam j
  uncopied : ∀ j ≥ i, Cells.read t.ppu.oam j = Cells.read s.ppu.oam j
  rest : t = portsRead s i t.ppu.oam

/-- OAMDATA gives an entry below the one being copied, which a later entry does not change. -/
theorem portByte_write (s : State) (oam : Memory) {i j : Nat} (h : j ≤ i) (v : Byte) :
    portByte s (Cells.write oam i v) j = portByte s oam j := by
  have hkeep : s.ppu.oamAddr.toNat < j →
      Cells.read (Cells.write oam i v) s.ppu.oamAddr.toNat = Cells.read oam s.ppu.oamAddr.toNat :=
    fun hlt => Cells.read_write_ne _ _ (by omega)
  unfold portByte
  split
  case h_2 => exact ite_congr rfl hkeep fun _ => rfl
  all_goals rfl

theorem CopiedFromPorts.setOam {s t : State} {i : Nat} (h : CopiedFromPorts s i t) :
    CopiedFromPorts s (i + 1) ((portsRead s (i + 1) t.ppu.oam).setOam i (portByte s t.ppu.oam i)) where
  wf := Cells.wf_write _ _ h.wf
  entry j hj := by
    refine Eq.trans ?_ (portByte_write s t.ppu.oam (Nat.lt_succ_iff.1 hj) _).symm
    rcases Nat.lt_succ_iff_lt_or_eq.1 hj with hlt | rfl
    · exact (Cells.read_write_ne _ _ (Nat.ne_of_gt hlt)).trans (h.entry j hlt)
    · exact Cells.read_write_self (lo := 0) _ _ h.wf
  uncopied j hj := (Cells.read_write_ne _ _ (Nat.ne_of_lt hj)).trans (h.uncopied j (Nat.le_of_succ_le hj))
  rest := rfl

/-- R337 to R340: the DMA of a page of ports in lenient mode. -/
theorem write8_oamDma_of_ports {page : Byte} {s : State} (h : 0x20 ≤ page.toNat) (h' : page.toNat ≤ 0x3F)
    (hmode : s.accessMode = .lenient) (hwf : Cells.wf s.ppu.oam = true) :
    ∃ u, write8 0x4014 page s = .ok (u.charge (dmaStall u)) ∧ CopiedFromPorts s 256 u := by
  refine write8_oamDma_of_reads ⟨hwf, fun _ hj => absurd hj (Nat.not_lt_zero _), fun _ _ => rfl, portsRead_zero.symm⟩
    fun i hi t ht => ⟨portByte s t.ppu.oam i, portsRead s (i + 1) t.ppu.oam, ?_, ht.setOam⟩
  · have hread := read8_port_lenient h h' hi hmode ht.uncopied
    rwa [← ht.rest] at hread

/-- Settles O43: each class of page is a copy whose reads are pure, a fault of the first read, or the copy of the
ports. -/
theorem oamDmaTransfers : Obligations.OamDma := by
  unfold Obligations.OamDma
  intro page s charged start
  refine ⟨fun hwf hplain => ?plain, ?apu, fun h h' => ⟨fun hmode => ?unmapped, fun hmode hwf => ?zeros⟩,
    fun h h' => ⟨fun hmode => ?port, fun hmode hwf => ?ports⟩⟩
  case plain =>
    have hread : ∀ i < 256, ∀ oam : Memory,
        read8 (page ++ BitVec.ofNat 8 i) (s.setPpu { s.ppu with oam := oam }) =
          .ok ((s.peek (page ++ BitVec.ofNat 8 i)).getD 0, s.setPpu { s.ppu with oam := oam }) := fun i hi oam => by
      obtain ⟨v, hv⟩ := exists_peek_of_plainPage hplain hi s
      have hpeek : (s.setPpu { s.ppu with oam := oam }).peek (page ++ BitVec.ofNat 8 i) = some v := hv
      rw [read8_of_peek hpeek, hv]
      rfl
    obtain ⟨t, hwrite, hbytes, ht⟩ := write8_oamDma_of_pureReads hwf hread
    refine ⟨t, hwrite, fun i => ?_, ht⟩
    obtain ⟨v, hv⟩ := exists_peek_of_plainPage hplain i.isLt s
    rw [BitVec.ofNat_toNat, BitVec.setWidth_eq] at hv
    rw [hbytes i.toNat i.isLt, BitVec.ofNat_toNat, BitVec.setWidth_eq, hv]
    rfl
  case apu =>
    refine write8_oamDma_of_fault ?_
    have htarget : target ((0x40 : Byte) ++ 0x00#8) = .apu := by decide
    rw [read8, htarget]
    rfl
  case unmapped =>
    refine write8_oamDma_of_fault ?_
    rw [read8_of_unmapped (target_of_unmapped_page h h' (i := 0) (by decide)), progErrRead_strict hmode]
    rfl
  case zeros =>
    refine write8_oamDma_of_pureReads hwf fun i hi oam => ?_
    rw [read8_of_unmapped (target_of_unmapped_page h h' hi)]
    exact progErrRead_lenient hmode
  case port =>
    refine write8_oamDma_of_fault ?_
    rw [read8_of_writeOnlyPort (r := 0) (by decide) (isPort_page h h' (i := 0) (by decide)), progErrRead_strict hmode]
    rfl
  case ports =>
    intro vAt addrAt buffered o
    obtain ⟨u, hwrite, hu⟩ := write8_oamDma_of_ports h h' hmode hwf
    have hentry (i : Nat) (hi : i < 256) : Cells.read u.ppu.oam i = portByte s u.ppu.oam i := hu.entry i hi
    refine ⟨_, hwrite, ?state, fun i hi hr => ?writeOnly, fun i hi hr => ?status, fun i hi hr => ?oamData,
      fun k hk => ?data⟩
    case state =>
      rw [State.charge_dmaStall, hu.rest]
      rfl
    all_goals refine (hentry _ (by omega)).trans ?_
    case writeOnly =>
      simp only [List.mem_cons, List.not_mem_nil, or_false] at hr
      rcases hr with hr | hr | hr | hr | hr <;> simp only [portByte, hr]
    case status =>
      rw [portByte, hr]
      rfl
    case oamData =>
      rw [portByte, hr]
      rfl
    case data =>
      have hr : (8 * k + 7) % 8 = 7 := by omega
      have hk : (8 * k + 7) / 8 = k := by omega
      rw [portByte, hr, hk]
      rfl

end Sys2Proof.Machine
end
